-- ==== Sys2Proof/Machine/Bits.lean ====
section
/-!
DEFINITION. The bit-vector notation of 00_scope.md R11, on naturals: slices, masks, the two's
complement `neg_n` and the signed reading `signed_w`.
-/

namespace Sys2Proof.Machine

/-- R11: `v[hi:lo] = (v div 2^lo) mod 2^(hi - lo + 1)`; the empty slice (hi < lo) is 0. -/
def slice (v hi lo : Nat) : Nat := v / 2 ^ lo % 2 ^ (hi + 1 - lo)

/-- R11: `Mask(n) = 2^n - 1`. -/
def mask (n : Nat) : Nat := 2 ^ n - 1

/-- R11: `neg_n(v) = (2^n - v) mod 2^n`. -/
def negN (n v : Nat) : Nat := (2 ^ n - v) % 2 ^ n

/-- R11: `signed_w(v) = v - 2^w` if `v[w-1] = 1`, else v. -/
def signedOf (w v : Nat) : Int := if v.testBit (w - 1) then (v : Int) - (2 ^ w : Nat) else (v : Int)

/-- A one-bit field of a word as a number. -/
def bitNat (b : Bool) : Nat := if b then 1 else 0

/-- The two's complement of an integer in w bits: `v mod 2^w` (R10's floor mod), as R74 and R97 write
the fields k and E. -/
def wrapInt (w : Nat) (v : Int) : Nat := (v % ((2 ^ w : Nat) : Int)).toNat

end Sys2Proof.Machine
end

