-- ==== Sys2Proof/Word.lean ====
section
/-!
DEFINITION. The word types of the ports (30_encoding.md R40, R41): all are bit vectors numbered
from bit 0, the least significant (R11, R31).
-/

namespace Sys2Proof

/-- R42: the command word. -/
abbrev CmdWord := BitVec 32

/-- R43: the packed posit value. -/
abbrev PVWord := BitVec 78

/-- R45, R46, R47, R49: the auxiliary word, a FIELDS, EXACT, F64 or CFG word. -/
abbrev AuxWord := BitVec 160

end Sys2Proof
end

