-- ==== Sys2Proof/Syntax.lean ====
section
/-!
DEFINITION. The syntax of the PAU's operations: one constructor per row of the opcode map
(30_encoding.md R50, opcode_table.json). The operands of formats U, B and CX travel on the request's
own ports (R48), so only the command word's fields (R42) are arguments here.
-/

namespace Sys2Proof

/-- R50: the 25 operations. `usedef`, `cn` and `ces` are the fields of R42, carried by formats CX and C
(SETDEF has `usedef = 0` always, R42). -/
inductive Instr where
  | unpack
  | pack (usedef : Bool) (cn ces : Nat)
  | toexact
  | round (usedef : Bool) (cn ces : Nat)
  | toF64
  | fromF64 (usedef : Bool) (cn ces : Nat)
  | construct (usedef : Bool) (cn ces : Nat)
  | neg
  | recip
  | add
  | sub
  | mul
  | div
  | eq
  | gt
  | ge
  | lt
  | le
  | isZero
  | isOne
  | isInf
  | isNeg
  | isNan
  | setdef (cn ces : Nat)
  | getdef
deriving DecidableEq, Repr

end Sys2Proof
end

