-- ==== Sys2Proof/WellFormed.lean ====
section
/-!
DEFINITION. When an instruction can be written as a command word: its immediates fit the fields of
30_encoding.md R42, cn "unsigned, 0 to 127" and ces "unsigned, 0 to 63". A configuration that fits the
fields and is not a valid one is well-formed here: it is refused when the operation runs (R52).
-/

namespace Sys2Proof

/-- R42: cn fits bits [12:6] and ces fits bits [18:13]. -/
def immediatesFit (cn ces : Nat) : Bool := decide (cn < 128) && decide (ces < 64)

/-- R42: the checks of an instruction's immediates; an operation without immediates has none. -/
def Instr.wf : Instr → Bool
  | .unpack => true
  | .pack _ cn ces => immediatesFit cn ces
  | .toexact => true
  | .round _ cn ces => immediatesFit cn ces
  | .toF64 => true
  | .fromF64 _ cn ces => immediatesFit cn ces
  | .construct _ cn ces => immediatesFit cn ces
  | .neg => true
  | .recip => true
  | .add => true
  | .sub => true
  | .mul => true
  | .div => true
  | .eq => true
  | .gt => true
  | .ge => true
  | .lt => true
  | .le => true
  | .isZero => true
  | .isOne => true
  | .isInf => true
  | .isNeg => true
  | .isNan => true
  | .setdef cn ces => immediatesFit cn ces
  | .getdef => true

end Sys2Proof
end

