-- ==== Sys2Proof/Decode.lean ====
section
/-!
DEFINITION. The command word (30_encoding.md R42, R50, R53): the decoder, total and refusing by name,
and after it the encoder, written from the same tables. `opcodeTable` is R50's match and mask columns
as they stand; the decoder itself is written from the formats of R42, and a statement says the two
agree.
-/

namespace Sys2Proof

open Sys2Proof.Machine (slice bitNat)

/-- R53: why a command word is illegal. All three raise InvalidRequest (R164 a). -/
inductive Reject where
  /-- The opcode is one of the seven unassigned ones. -/
  | unassignedOpcode (op : Nat)
  /-- A bit is set that the format requires to be 0. -/
  | reservedBits
  /-- SETDEF with usedef = 1. -/
  | setdefWithUsedef
deriving DecidableEq, Repr

/-- R42: formats U, B and N require bits [31:5] to be 0. -/
def decodePlain (v : Nat) (i : Instr) : Except Reject Instr :=
  if slice v 31 5 = 0 then .ok i else .error .reservedBits

/-- R42: formats CX and C require bits [31:19] to be 0 and carry usedef, cn and ces. -/
def decodeConfigured (v : Nat) (mk : Bool → Nat → Nat → Instr) : Except Reject Instr :=
  if slice v 31 19 = 0 then .ok (mk (slice v 5 5 == 1) (slice v 12 6) (slice v 18 13))
  else .error .reservedBits

/-- R42, R53: SETDEF requires bits [31:19] and usedef to be 0. -/
def decodeSetdef (v : Nat) : Except Reject Instr :=
  if slice v 31 19 = 0 then
    if slice v 5 5 = 0 then .ok (.setdef (slice v 12 6) (slice v 18 13)) else .error .setdefWithUsedef
  else .error .reservedBits

/-- R50, R53: a command word is one of the 25 operations or is illegal. -/
def decodeCmd (w : CmdWord) : Except Reject Instr :=
  match slice w.toNat 4 0 with
  | 0x01 => decodePlain w.toNat .unpack
  | 0x02 => decodeConfigured w.toNat .pack
  | 0x03 => decodePlain w.toNat .toexact
  | 0x04 => decodeConfigured w.toNat .round
  | 0x05 => decodePlain w.toNat .toF64
  | 0x06 => decodeConfigured w.toNat .fromF64
  | 0x07 => decodeConfigured w.toNat .construct
  | 0x08 => decodePlain w.toNat .neg
  | 0x09 => decodePlain w.toNat .recip
  | 0x0A => decodePlain w.toNat .add
  | 0x0B => decodePlain w.toNat .sub
  | 0x0C => decodePlain w.toNat .mul
  | 0x0D => decodePlain w.toNat .div
  | 0x10 => decodePlain w.toNat .eq
  | 0x11 => decodePlain w.toNat .gt
  | 0x12 => decodePlain w.toNat .ge
  | 0x13 => decodePlain w.toNat .lt
  | 0x14 => decodePlain w.toNat .le
  | 0x18 => decodePlain w.toNat .isZero
  | 0x19 => decodePlain w.toNat .isOne
  | 0x1A => decodePlain w.toNat .isInf
  | 0x1B => decodePlain w.toNat .isNeg
  | 0x1C => decodePlain w.toNat .isNan
  | 0x1E => decodeSetdef w.toNat
  | 0x1F => decodePlain w.toNat .getdef
  | op => .error (.unassignedOpcode op)

/-- The decoder without the reason of a refusal. -/
def decode (w : CmdWord) : Option Instr :=
  match decodeCmd w with
  | .ok i => some i
  | .error _ => none

/-- The host's question: what the decoder reads from an instruction whose bits are w. Every command
word is 32 bits and has one length (R42, R54), so the word is the 32-bit number w. -/
def decodeTableWord (_nbits w : Nat) : Option Instr := decode (BitVec.ofNat 32 w)

/-- R50: the opcode of each operation. -/
def Instr.opcode : Instr → Nat
  | .unpack => 0x01
  | .pack _ _ _ => 0x02
  | .toexact => 0x03
  | .round _ _ _ => 0x04
  | .toF64 => 0x05
  | .fromF64 _ _ _ => 0x06
  | .construct _ _ _ => 0x07
  | .neg => 0x08
  | .recip => 0x09
  | .add => 0x0A
  | .sub => 0x0B
  | .mul => 0x0C
  | .div => 0x0D
  | .eq => 0x10
  | .gt => 0x11
  | .ge => 0x12
  | .lt => 0x13
  | .le => 0x14
  | .isZero => 0x18
  | .isOne => 0x19
  | .isInf => 0x1A
  | .isNeg => 0x1B
  | .isNan => 0x1C
  | .setdef _ _ => 0x1E
  | .getdef => 0x1F

/-- R42: the bits above the opcode of each operation's command word: `usedef<<5 | cn<<6 | ces<<13` for
formats CX and C, nothing for the others. -/
def Instr.immediates : Instr → Nat
  | .pack u cn ces => bitNat u * 2 ^ 5 + cn * 2 ^ 6 + ces * 2 ^ 13
  | .round u cn ces => bitNat u * 2 ^ 5 + cn * 2 ^ 6 + ces * 2 ^ 13
  | .fromF64 u cn ces => bitNat u * 2 ^ 5 + cn * 2 ^ 6 + ces * 2 ^ 13
  | .construct u cn ces => bitNat u * 2 ^ 5 + cn * 2 ^ 6 + ces * 2 ^ 13
  | .setdef cn ces => cn * 2 ^ 6 + ces * 2 ^ 13
  | .unpack => 0
  | .toexact => 0
  | .toF64 => 0
  | .neg => 0
  | .recip => 0
  | .add => 0
  | .sub => 0
  | .mul => 0
  | .div => 0
  | .eq => 0
  | .gt => 0
  | .ge => 0
  | .lt => 0
  | .le => 0
  | .isZero => 0
  | .isOne => 0
  | .isInf => 0
  | .isNeg => 0
  | .isNan => 0
  | .getdef => 0

/-- R42: the command word of an instruction. -/
def encode (i : Instr) : CmdWord := BitVec.ofNat 32 (i.opcode + i.immediates)

/-- One row of R50: a word w selects it when `w & mask = match`; `build` reads the fields outside the
mask (usedef, cn, ces). -/
structure OpcodeRow where
  mask : CmdWord
  value : CmdWord
  build : Bool → Nat → Nat → Instr

/-- R50's match and mask columns, row by row. -/
def opcodeTable : List OpcodeRow :=
  [⟨0xFFFFFFFF, 0x00000001, fun _ _ _ => .unpack⟩,
   ⟨0xFFF8001F, 0x00000002, .pack⟩,
   ⟨0xFFFFFFFF, 0x00000003, fun _ _ _ => .toexact⟩,
   ⟨0xFFF8001F, 0x00000004, .round⟩,
   ⟨0xFFFFFFFF, 0x00000005, fun _ _ _ => .toF64⟩,
   ⟨0xFFF8001F, 0x00000006, .fromF64⟩,
   ⟨0xFFF8001F, 0x00000007, .construct⟩,
   ⟨0xFFFFFFFF, 0x00000008, fun _ _ _ => .neg⟩,
   ⟨0xFFFFFFFF, 0x00000009, fun _ _ _ => .recip⟩,
   ⟨0xFFFFFFFF, 0x0000000A, fun _ _ _ => .add⟩,
   ⟨0xFFFFFFFF, 0x0000000B, fun _ _ _ => .sub⟩,
   ⟨0xFFFFFFFF, 0x0000000C, fun _ _ _ => .mul⟩,
   ⟨0xFFFFFFFF, 0x0000000D, fun _ _ _ => .div⟩] ++
  [⟨0xFFFFFFFF, 0x00000010, fun _ _ _ => .eq⟩,
   ⟨0xFFFFFFFF, 0x00000011, fun _ _ _ => .gt⟩,
   ⟨0xFFFFFFFF, 0x00000012, fun _ _ _ => .ge⟩,
   ⟨0xFFFFFFFF, 0x00000013, fun _ _ _ => .lt⟩,
   ⟨0xFFFFFFFF, 0x00000014, fun _ _ _ => .le⟩,
   ⟨0xFFFFFFFF, 0x00000018, fun _ _ _ => .isZero⟩,
   ⟨0xFFFFFFFF, 0x00000019, fun _ _ _ => .isOne⟩,
   ⟨0xFFFFFFFF, 0x0000001A, fun _ _ _ => .isInf⟩,
   ⟨0xFFFFFFFF, 0x0000001B, fun _ _ _ => .isNeg⟩,
   ⟨0xFFFFFFFF, 0x0000001C, fun _ _ _ => .isNan⟩,
   ⟨0xFFF8003F, 0x0000001E, fun _ cn ces => .setdef cn ces⟩,
   ⟨0xFFFFFFFF, 0x0000001F, fun _ _ _ => .getdef⟩]

/-- R50: "a word w selects the row when `w & mask = match`". -/
def OpcodeRow.selects (row : OpcodeRow) (w : CmdWord) : Bool := w &&& row.mask == row.value

end Sys2Proof
end

