-- ==== Sys2Proof/Machine/Value.lean ====
section
/-!
DEFINITION. The data the rules compute with: configurations, posit values, their classes and fields
(00_scope.md R8, R12; 10_state.md R20, R21; 40_codec.md R61, R67), and the exact numbers of R10.
-/

namespace Sys2Proof.Machine

/-- R8: a configuration (total width, exponent-field width). -/
structure Cfg where
  n : Nat
  es : Nat
deriving DecidableEq, Repr

/-- R20: a posit value. -/
structure PV where
  bits : Nat
  n : Nat
  es : Nat
  nan : Bool
deriving DecidableEq, Repr

/-- R44, R61: the four classes. -/
inductive PClass where
  | fin
  | zero
  | inf
  | nan
deriving DecidableEq, Repr

/-- R63: what the regime scan finds. -/
structure Regime where
  b0 : Bool
  r : Nat
  t : Bool
  k : Int
deriving DecidableEq, Repr

/-- R64: what is left after the regime, split. -/
structure Rest where
  eb : Nat
  e : Nat
  fb : Nat
  f : Nat
deriving DecidableEq, Repr

/-- R67: the field decomposition of a finite non-zero value. -/
structure Fields where
  sign : Bool
  b0 : Bool
  r : Nat
  t : Bool
  k : Int
  eb : Nat
  e : Nat
  fb : Nat
  f : Nat
deriving DecidableEq, Repr

/-- R76: the field widths a regime value leaves. -/
structure Widths where
  r : Nat
  reglen : Nat
  eb : Nat
  fb : Nat
deriving DecidableEq, Repr

/-- R61 with R67: a value taken apart. Only class FIN has fields, so no rule can read the fields of
another class (U12). -/
inductive Decoded where
  | fin (F : Fields)
  | zero
  | inf
  | nan
deriving DecidableEq, Repr

/-- An exact number `coef · 2^exp`. -/
structure Term where
  coef : Int
  exp : Int
deriving DecidableEq, Repr

/-- R10: an exact rational of the arithmetic rules, `(sum of num) / den`, with den not 0. The exponents of
a 64-bit posit reach 62·2^62 (R84), so a sum keeps its terms apart and is never written out as one
integer. -/
structure Exact where
  num : List Term
  den : Nat
deriving DecidableEq, Repr

/-- R45: the fields of a FIELDS word that PACK reads. -/
structure FieldsIn where
  cls : PClass
  sign : Bool
  k : Int
  e : Nat
  fb : Nat
  f : Nat
deriving DecidableEq, Repr

/-- R46: the fields of an EXACT word that ROUND reads. -/
structure ExactIn where
  cls : PClass
  sign : Bool
  E : Int
  sig : Nat
deriving DecidableEq, Repr

end Sys2Proof.Machine
end

