-- ==== Sys2Proof/Machine/Exact.lean ====
section
/-!
DEFINITION. Exact arithmetic (00_scope.md R10: "Every intermediate of the arithmetic rules is an exact
element of ℤ or ℚ"). A number is a quotient of a sum of terms `c · 2^e`; its sign, and with it every
comparison, is decided exactly however far apart the exponents are. Sys2Proof/Machine/Reals.lean gives
the rational each of these stands for.
-/

namespace Sys2Proof.Machine

/-- The integer with the given magnitude and sign bit (1 is negative): `(-1)^sign · m`. -/
def signed (sign : Bool) (m : Nat) : Int := if sign then -(m : Int) else (m : Int)

/-- The negation of a term. -/
def Term.neg (t : Term) : Term := ⟨-t.coef, t.exp⟩

/-- The product of two terms. -/
def Term.mul (t u : Term) : Term := ⟨t.coef * u.coef, t.exp + u.exp⟩

/-- A term times an integer. -/
def Term.scale (c : Int) (t : Term) : Term := ⟨c * t.coef, t.exp⟩

/-- The sum of the magnitudes of the coefficients. -/
def coefTotal (ts : List Term) : Nat := (ts.map fun t => t.coef.natAbs).sum

/-- Insert a term into a list ordered by falling exponent. -/
def insertTerm (t : Term) : List Term → List Term
  | [] => [t]
  | u :: us => if u.exp ≤ t.exp then t :: u :: us else u :: insertTerm t us

/-- Order terms by falling exponent. -/
def sortTerms (ts : List Term) : List Term := ts.foldr insertTerm []

/-- The sign of `acc · 2^e` plus the terms, ordered by falling exponent from e down. Where the gap to the
next exponent is so wide that all remaining terms together are smaller than `2^e`, the sign is that
of acc; otherwise acc is brought down to the next exponent. -/
def signFrom (acc e : Int) : List Term → Int
  | [] => acc.sign
  | t :: ts =>
    if acc = 0 then signFrom t.coef t.exp ts
    else if (coefTotal (t :: ts)).log2 < (e - t.exp).toNat then acc.sign
    else signFrom (acc * ((2 ^ (e - t.exp).toNat : Nat) : Int) + t.coef) t.exp ts

/-- The sign of a sum of terms: -1, 0 or 1. -/
def sumSign (ts : List Term) : Int := signFrom 0 0 (sortTerms ts)

/-- A term as an exact number. -/
def Exact.ofTerm (t : Term) : Exact := ⟨[t], 1⟩

/-- A sum of terms as an exact number. -/
def Exact.ofSum (ts : List Term) : Exact := ⟨ts, 1⟩

/-- The sign of an exact number. -/
def Exact.sign (x : Exact) : Int := sumSign x.num

/-- The negation of an exact number. -/
def Exact.neg (x : Exact) : Exact := ⟨x.num.map Term.neg, x.den⟩

/-- Twice an exact number. -/
def Exact.double (x : Exact) : Exact := ⟨x.num.map (Term.scale 2), x.den⟩

/-- The sign of `x` less the sum of the terms: 1 where x is above it, 0 where equal, -1 where below. -/
def Exact.cmp (x : Exact) (ts : List Term) : Int :=
  sumSign (x.num ++ ts.map (Term.scale (-(x.den : Int))))

/-- The reciprocal of a term that is not 0: `1 / (c · 2^e)`. -/
def Exact.recip (t : Term) : Exact := ⟨[⟨t.coef.sign, -t.exp⟩], t.coef.natAbs⟩

end Sys2Proof.Machine
end

