-- ==== Sys2Proof/Config.lean ====
section
/-!
DEFINITION. What an implementation of the PAU fixes (00_scope.md R8). NMAX and the native format are
given by the spec; RESET_CFG is left OPEN by it (10_state.md R24, 92_eei_decisions.md D18).
-/

namespace Sys2Proof

/-- R8: NMAX, the largest total width. -/
def Config.nmax : Nat := 64

/-- The implementation's own choice behind RESET_N: any number, of which nothing is known. -/
opaque Config.rawN : Nat

/-- The implementation's own choice behind RESET_ES: any number, of which nothing is known. -/
opaque Config.rawEs : Nat

/-- DESIGN CHOICE (log entry 1), safe: RESET_N of R8 and R24, an open constant. Folding the free
number `rawN` into 2 … 64 reaches every width ValidCfg allows and no other. -/
def Config.resetN : Nat := 2 + Config.rawN % 63

/-- DESIGN CHOICE (log entry 1), safe: RESET_ES of R8 and R24, an open constant. Folding the free
number `rawEs` into 0 … RESET_N - 2 reaches every exponent width ValidCfg allows and no other. -/
def Config.resetEs : Nat := Config.rawEs % (Config.resetN - 1)

end Sys2Proof
end

