-- ==== Sys2Proof/Machine/State.lean ====
section
/-!
DEFINITION. The state of the PAU. Its one architectural register is DEFCFG (10_state.md R22, R28); the
request and response ports (30_encoding.md R40, R41) are held beside it because a step reads the one
and writes the other. There is no register file, program counter, flag or memory (R25 to R28, R30).
-/

namespace Sys2Proof.Machine

/-- R161: the four error codes. -/
inductive ErrCode where
  | ok
  | invalidConfiguration
  | configMismatch
  | invalidRequest
deriving DecidableEq, Repr

/-- R40: a request. -/
structure Request where
  cmd : CmdWord
  a : PVWord
  b : PVWord
  x : AuxWord
deriving DecidableEq, Repr

/-- R41: a response. `err` is one of the four codes of R161, which are all the values two bits have. -/
structure Response where
  err : ErrCode
  r : PVWord
  flag : Bool
  y : AuxWord
deriving DecidableEq, Repr

/-- The PAU and what stands at its ports. -/
structure State where
  /-- R22: DEFCFG.n, bits [6:0]. -/
  defcfgN : BitVec 7
  /-- R22: DEFCFG.es, bits [12:7]. -/
  defcfgEs : BitVec 6
  /-- R40: the request port, holding the request accepted last. -/
  req : Request
  /-- The model's own field (log entry 2): requests presented and not yet performed, oldest first. -/
  pending : List Request
  /-- R41: the response port; none before the first response (R181, U14). -/
  response : Option Response
deriving DecidableEq, Repr

/-- The PAU never stops with a fault: an error is a value of the response (60_exceptions.md R166) and
every request produces its response (R186). So there is no reason to name, and no step can raise one:
safe. -/
inductive Fault where
deriving DecidableEq, Repr

/-- Why a step may be refused. -/
inductive Refusal where
  /-- Raised by exec's arm of an instruction that has no meaning yet, and by nothing else: safe. No
  arm of this model raises it. -/
  | notModelled (mnemonic : String)
deriving DecidableEq, Repr

/-- A port at rest, all bits 0. -/
def Request.idle : Request := ⟨0, 0, 0, 0⟩

/-- R180, R181: after reset DEFCFG is RESET_CFG (open, log entry 1), no response stands on the port (R181,
U14), and no request has been presented (log entries 2 and 3). -/
def State.reset : State where
  defcfgN := BitVec.ofNat 7 Config.resetN
  defcfgEs := BitVec.ofNat 6 Config.resetEs
  req := Request.idle
  pending := []
  response := none

end Sys2Proof.Machine
end

