-- ==== Sys2Proof/Machine/Words.lean ====
section
/-!
DEFINITION. The layouts of the data words (30_encoding.md R43 to R49): PV, FIELDS, EXACT, F64 and CFG
words, read and written.
-/

namespace Sys2Proof.Machine

/-- R12: `cfg(v)`. -/
def PV.cfg (v : PV) : Cfg := ⟨v.n, v.es⟩

/-- R43: bits [63:0], n [70:64], es [76:71], nan [77]. -/
def PV.ofWord (w : PVWord) : PV where
  bits := slice w.toNat 63 0
  n := slice w.toNat 70 64
  es := slice w.toNat 76 71
  nan := slice w.toNat 77 77 == 1

/-- R43, written: `bits | n<<64 | es<<71 | nan<<77`. -/
def PV.toWord (v : PV) : PVWord :=
  BitVec.ofNat 78 (v.bits + v.n * 2 ^ 64 + v.es * 2 ^ 71 + bitNat v.nan * 2 ^ 77)

/-- R44: the class codes. -/
def PClass.code : PClass → Nat
  | .fin => 0
  | .zero => 1
  | .inf => 2
  | .nan => 3

/-- R44, read: the class of a 2-bit code. -/
def PClass.ofCode : Nat → PClass
  | 0 => .fin
  | 1 => .zero
  | 2 => .inf
  | _ => .nan

/-- R45, R74: the FIELDS word of a decoded value; "for a class other than FIN every field but `class` is
0". -/
def fieldsWord : Decoded → AuxWord
  | .fin F =>
    BitVec.ofNat 160
      (F.f + F.e * 2 ^ 64 + F.fb * 2 ^ 128 + F.eb * 2 ^ 134 + wrapInt 8 F.k * 2 ^ 140 + F.r * 2 ^ 148 +
        bitNat F.t * 2 ^ 155 + bitNat F.sign * 2 ^ 156 + PClass.fin.code * 2 ^ 157)
  | .zero => BitVec.ofNat 160 (PClass.zero.code * 2 ^ 157)
  | .inf => BitVec.ofNat 160 (PClass.inf.code * 2 ^ 157)
  | .nan => BitVec.ofNat 160 (PClass.nan.code * 2 ^ 157)

/-- R45: on input "only `class`, `sign`, `k`, `e`, `fb` and `f` are read". -/
def FieldsIn.ofWord (w : AuxWord) : FieldsIn where
  cls := PClass.ofCode (slice w.toNat 158 157)
  sign := slice w.toNat 156 156 == 1
  k := signedOf 8 (slice w.toNat 147 140)
  e := slice w.toNat 127 64
  fb := slice w.toNat 133 128
  f := slice w.toNat 63 0

/-- R46: an EXACT word from its fields. -/
def exactWord (cls : PClass) (sign : Bool) (E : Int) (sig : Nat) : AuxWord :=
  BitVec.ofNat 160 (sig + wrapInt 72 E * 2 ^ 64 + bitNat sign * 2 ^ 136 + cls.code * 2 ^ 137)

/-- R46, read. -/
def ExactIn.ofWord (w : AuxWord) : ExactIn where
  cls := PClass.ofCode (slice w.toNat 138 137)
  sign := slice w.toNat 136 136 == 1
  E := signedOf 72 (slice w.toNat 135 64)
  sig := slice w.toNat 63 0

/-- R47: bits [63:0] of an F64 word; the rest is 0 on output. -/
def f64Word (d : Nat) : AuxWord := BitVec.ofNat 160 d

/-- R47: the binary64 value of an F64 word; the rest is ignored on input. -/
def f64OfWord (w : AuxWord) : Nat := slice w.toNat 63 0

/-- R49: `y[6:0] = n`, `y[12:7] = es`. -/
def cfgWord (c : Cfg) : AuxWord := BitVec.ofNat 160 (c.n + c.es * 2 ^ 7)

end Sys2Proof.Machine
end

