-- ==== Sys2Proof/Machine/Ops.lean ====
section
/-!
DEFINITION. The named operations on the state: accepting a request, writing the response, raising an
error (60_exceptions.md R166), and DEFCFG read and written as a pair (10_state.md R22, 20_memory.md
R33).
-/

namespace Sys2Proof.Machine

/-- R161: the numbers of the error codes. -/
def ErrCode.code : ErrCode → BitVec 2
  | .ok => 0
  | .invalidConfiguration => 1
  | .configMismatch => 2
  | .invalidRequest => 3

/-- R41: a response of an operation that succeeded and writes nothing. -/
def Response.done : Response := ⟨.ok, 0, false, 0⟩

/-- R41: a successful response that writes r. -/
def Response.ofPV (v : PV) : Response := ⟨.ok, v.toWord, false, 0⟩

/-- R41: a successful response that writes flag. -/
def Response.ofFlag (f : Bool) : Response := ⟨.ok, 0, f, 0⟩

/-- R41: a successful response that writes y. -/
def Response.ofAux (y : AuxWord) : Response := ⟨.ok, 0, false, y⟩

/-- R166: the error response, `err = code`, `r = 0`, `flag = 0`, `y = 0`. -/
def Response.ofError (e : ErrCode) : Response := ⟨e, 0, false, 0⟩

/-- R41, R33: the response port is written whole. -/
def State.respond (rsp : Response) (s : State) : State := { s with response := some rsp }

/-- R13, R166, R167: `raise <Error>` ends the operation with the error response and does nothing else.
This is the whole of taking an exception on the PAU; there is no return from one (R168). -/
def State.raise (e : ErrCode) (s : State) : State := s.respond (Response.ofError e)

/-- R22: DEFCFG read as a pair. -/
def State.defcfg (s : State) : Cfg := ⟨s.defcfgN.toNat, s.defcfgEs.toNat⟩

/-- R33, R152: `DEFCFG <- (n, es)`, "both fields in one step". -/
def State.setDefcfg (c : Cfg) (s : State) : State :=
  { s with defcfgN := BitVec.ofNat 7 c.n, defcfgEs := BitVec.ofNat 6 c.es }

/-- R26, R36: the oldest request presented is the one performed. -/
def State.accept (q : Request) (rest : List Request) (s : State) : State :=
  { s with req := q, pending := rest }

/-- R40: the host presents one more request, after all it has presented before. -/
def State.present (q : Request) (s : State) : State := { s with pending := s.pending ++ [q] }

end Sys2Proof.Machine
end

