-- ==== Sys2Proof/Machine/Operands.lean ====
section
/-!
DEFINITION. The operand forms: the configuration predicate (00_scope.md R9), configuration resolution
(30_encoding.md R51) and steps 2 and 3 of the common prologue (R52), one function per format of R48.
-/

namespace Sys2Proof.Machine

/-- R9: `ValidCfg(n, es)` is `2 ≤ n ∧ n ≤ 64 ∧ es ≤ n - 2`. -/
def Cfg.valid (c : Cfg) : Bool :=
  decide (2 ≤ c.n) && decide (c.n ≤ Config.nmax) && decide (c.es ≤ c.n - 2)

/-- R52 step 3: `bits <- bits mod 2^n`. -/
def PV.normalise (v : PV) : PV := { v with bits := v.bits % 2 ^ v.n }

/-- R52 steps 2 and 3 on one operand word: its configuration is valid, its bits are reduced. -/
def loadOperand (w : PVWord) : Except ErrCode PV :=
  if (PV.ofWord w).cfg.valid then .ok (PV.ofWord w).normalise else .error .invalidConfiguration

/-- R51: `Cfg(REQ)` is DEFCFG if usedef = 1, else (cn, ces). -/
def resolveCfg (usedef : Bool) (cn ces : Nat) (s : State) : Cfg :=
  if usedef then s.defcfg else ⟨cn, ces⟩

/-- R48, R52: format U, which reads operand A. -/
def withA (s : State) (f : PV → Response) : Response :=
  match loadOperand s.req.a with
  | .error e => Response.ofError e
  | .ok A => f A

/-- R48, R52, R165: format B, which reads operands A and B and checks A first. -/
def withAB (s : State) (f : PV → PV → Response) : Response :=
  withA s fun A =>
    match loadOperand s.req.b with
    | .error e => Response.ofError e
    | .ok B => f A B

/-- R48, R52: formats CX and C, which use the configuration `Cfg(REQ)`. -/
def withCfg (usedef : Bool) (cn ces : Nat) (s : State) (f : Cfg → Response) : Response :=
  if (resolveCfg usedef cn ces s).valid then f (resolveCfg usedef cn ces s)
  else Response.ofError .invalidConfiguration

/-- R110, R163: ADD, SUB, MUL and DIV check `cfg(A) = cfg(B)` before any look at the values. -/
def sameCfg (A B : PV) (result : PV) : Response :=
  if A.cfg = B.cfg then Response.ofPV result else Response.ofError .configMismatch

/-- A value of configuration c with its NaN flag clear. -/
def PV.real (c : Cfg) (bits : Nat) : PV := ⟨bits, c.n, c.es, false⟩

/-- R113: the canonical NaN of a configuration. -/
def PV.nanOf (c : Cfg) : PV := ⟨0, c.n, c.es, true⟩

end Sys2Proof.Machine
end

