-- ==== Sys2Proof/Machine/Codec.lean ====
section
/-!
DEFINITION. posit_codec (40_codec.md): taking a bit pattern apart, putting one together, and the
operations UNPACK and PACK.
-/

namespace Sys2Proof.Machine

/-- R68: `InfPat(n) = 2^(n-1)`. -/
def infPat (n : Nat) : Nat := 2 ^ (n - 1)

/-- The infinity of a configuration (R68). -/
def PV.infOf (c : Cfg) : PV := PV.real c (infPat c.n)

/-- R62: `Sign(v) = v.bits[n-1]`. -/
def PV.sign (v : PV) : Bool := v.bits.testBit (v.n - 1)

/-- R62: the magnitude pattern. -/
def PV.mag (v : PV) : Nat := if v.sign then negN v.n v.bits else v.bits

/-- R63: how many of the lowest i bits of m, scanned from bit i - 1 down, equal b before one differs. -/
def runLength (m : Nat) (b : Bool) : Nat → Nat
  | 0 => 0
  | i + 1 => if m.testBit i == b then runLength m b i + 1 else 0

/-- R63: regime decode of a magnitude pattern, `0 < m < 2^(n-1)`. -/
def regimeDecode (m n : Nat) : Regime :=
  let b0 := m.testBit (n - 2)
  let r := runLength m b0 (n - 1)
  { b0 := b0, r := r, t := decide (r < n - 1), k := if b0 then (r : Int) - 1 else -(r : Int) }

/-- R64, R65, R66: the bits below the regime, split into exponent (high-order bits of e) and fraction. -/
def splitRest (m n es r : Nat) (t : Bool) : Rest :=
  let nrem := if t then n - 2 - r else 0
  let eb := min es nrem
  let fb := nrem - eb
  { eb := eb
    e := m / 2 ^ fb % 2 ^ eb * 2 ^ (es - eb)
    fb := fb
    f := m % 2 ^ fb }

/-- R67, R62: the fields of a magnitude pattern, with the given sign. -/
def magFields (c : Cfg) (sign : Bool) (m : Nat) : Fields :=
  let g := regimeDecode m c.n
  let s := splitRest m c.n c.es g.r g.t
  { sign := sign, b0 := g.b0, r := g.r, t := g.t, k := g.k, eb := s.eb, e := s.e, fb := s.fb, f := s.f }

/-- R67: `Fields(v)`, for class FIN. -/
def PV.fields (v : PV) : Fields := magFields v.cfg v.sign v.mag

/-- R61 and R67: the class, and for class FIN the fields. -/
def PV.decoded (v : PV) : Decoded :=
  if v.nan then .nan
  else if v.bits = 0 then .zero
  else if v.bits = infPat v.n then .inf
  else .fin v.fields

/-- R61: `Class(v)`. -/
def PV.cls (v : PV) : PClass :=
  match v.decoded with
  | .fin _ => .fin
  | .zero => .zero
  | .inf => .inf
  | .nan => .nan

/-- R76: the field widths a regime value k leaves. -/
def budget (c : Cfg) (k : Int) : Widths :=
  let r := if 0 ≤ k then k.toNat + 1 else (-k).toNat
  let reglen := min (r + 1) (c.n - 1)
  let nrem := c.n - 1 - reglen
  let eb := min c.es nrem
  { r := r, reglen := reglen, eb := eb, fb := nrem - eb }

/-- R69, R70: the magnitude pattern of (k, e, f) with fw fraction bits: the first n - 1 bits of
`regime run, terminator, e, f, zeros`, and maxpos or minpos where the run does not fit. -/
def packMag (c : Cfg) (k : Int) (e fw f : Nat) : Nat :=
  if (c.n : Int) - 2 < k then 2 ^ (c.n - 1) - 1
  else if k < -((c.n : Int) - 2) then 1
  else
    let r := if 0 ≤ k then k.toNat + 1 else (-k).toNat
    let run := if 0 ≤ k then 2 ^ r - 1 else 0
    let terminator := if 0 ≤ k then 0 else 1
    let w := run * 2 ^ (1 + c.es + fw) + terminator * 2 ^ (c.es + fw) + e * 2 ^ fw + f
    w * 2 ^ (c.n - 1) / 2 ^ (r + 1 + c.es + fw)

/-- R71: `Pack(n, es, sign, k, e, fw, f)`. -/
def packBits (c : Cfg) (sign : Bool) (k : Int) (e fw f : Nat) : Nat :=
  if sign then negN c.n (packMag c k e fw f) else packMag c k e fw f

/-- R75: PACK on a configuration and a FIELDS word. -/
def packFields (c : Cfg) (X : FieldsIn) : Response :=
  match X.cls with
  | .zero => Response.ofPV (PV.real c 0)
  | .inf => Response.ofPV (PV.infOf c)
  | .nan => Response.ofPV (PV.nanOf c)
  | .fin =>
    if 2 ^ c.es ≤ X.e ∨ 2 ^ X.fb ≤ X.f then Response.ofError .invalidRequest
    else Response.ofPV (PV.real c (packBits c X.sign X.k X.e X.fb X.f))

/-- R74: UNPACK. -/
def execUnpack (s : State) : Host.Outcome State Fault Refusal :=
  .next (s.respond (withA s fun A => Response.ofAux (fieldsWord A.decoded)))

/-- R75: PACK. -/
def execPack (usedef : Bool) (cn ces : Nat) (s : State) : Host.Outcome State Fault Refusal :=
  .next (s.respond (withCfg usedef cn ces s fun c => packFields c (FieldsIn.ofWord s.req.x)))

end Sys2Proof.Machine
end

