-- ==== Sys2Proof/Machine/Rounding.lean ====
section
/-!
DEFINITION. The values of patterns and rounding to them (41_converter.md R80 to R92), and the native
format binary64 (R94, R96).
-/

namespace Sys2Proof.Machine

/-- R80: `E = k · 2^es + e`. -/
def Fields.exponent (es : Nat) (F : Fields) : Int := F.k * ((2 ^ es : Nat) : Int) + (F.e : Int)

/-- R81: the value `(-1)^sign · 2^E · (1 + f / 2^fb)` of fields, as `(-1)^sign · (2^fb + f) · 2^(E - fb)`. -/
def Fields.term (es : Nat) (F : Fields) : Term :=
  ⟨signed F.sign (2 ^ F.fb + F.f), F.exponent es - (F.fb : Int)⟩

/-- R81: `valmag(n, es, m)`, the value of a magnitude pattern. -/
def valmag (c : Cfg) (m : Nat) : Term := (magFields c false m).term c.es

/-- R84: `Emax = (n - 2) · 2^es`, the exponent of maxpos. -/
def emax (c : Cfg) : Nat := (c.n - 2) * 2 ^ c.es

/-- R84: `maxpos = 2^Emax`. -/
def maxpos (c : Cfg) : Term := ⟨1, (emax c : Int)⟩

/-- R84: `minpos = 2^(-Emax)`. -/
def minpos (c : Cfg) : Term := ⟨1, -(emax c : Int)⟩

/-- The largest magnitude pattern whose value is at most x among those that agree with p above the
lowest i bits, for a p whose lowest i bits are 0: the values rise with the patterns (R83). -/
def floorPattern (c : Cfg) (x : Exact) : Nat → Nat → Nat
  | 0, p => p
  | i + 1, p =>
    if 0 ≤ x.cmp [valmag c (p + 2 ^ i)] then floorPattern c x i (p + 2 ^ i) else floorPattern c x i p

/-- DEDUCED (log entry 5): R88's `RoundMag(n, es, x)` for x > 0. Beyond the range it saturates (R89).
Inside, the patterns nearest to x are among the largest one p with `valmag(p) ≤ x` and its successor
(R83); of these the nearer is taken, and the even one on a tie (R90), which is decided by comparing
2x with the sum of the two values. -/
def roundMag (c : Cfg) (x : Exact) : Nat :=
  if 0 ≤ x.cmp [maxpos c] then 2 ^ (c.n - 1) - 1
  else if x.cmp [minpos c] ≤ 0 then 1
  else
    let p := floorPattern c x (c.n - 1) 0
    let side := x.double.cmp [valmag c p, valmag c (p + 1)]
    if side < 0 then p
    else if 0 < side then p + 1
    else if p % 2 = 0 then p else p + 1

/-- R88: `Round(n, es, x)`. -/
def roundBits (c : Cfg) (x : Exact) : Nat :=
  if x.sign = 0 then 0
  else if x.sign < 0 then negN c.n (roundMag c x.neg)
  else roundMag c x

/-- R88 on a configuration: the posit nearest to x. -/
def PV.rounded (c : Cfg) (x : Exact) : PV := PV.real c (roundBits c x)

/-- R94: `F64Class(d)`. -/
def f64Class (d : Nat) : PClass :=
  let be := slice d 62 52
  let tf := slice d 51 0
  if be = 0 ∧ tf = 0 then .zero
  else if be = 2047 ∧ tf = 0 then .inf
  else if be = 2047 then .nan
  else .fin

/-- R94: `F64Val(d)`, for class FIN. -/
def f64Val (d : Nat) : Term :=
  let s := slice d 63 63 == 1
  let be := slice d 62 52
  let tf := slice d 51 0
  if be = 0 then ⟨signed s tf, -1074⟩ else ⟨signed s (2 ^ 52 + tf), (be : Int) - 1075⟩

/-- R96: `RNE(m / 2^k)`, the nearest integer, the even one on a tie. Where m has fewer than k - 1 bits the
quotient is below one half and nothing is written out. -/
def rneDiv (m k : Nat) : Nat :=
  if m.log2 + 1 < k then 0
  else
    let q := m / 2 ^ k
    let twice := 2 * (m % 2 ^ k)
    if twice < 2 ^ k then q
    else if 2 ^ k < twice then q + 1
    else if q % 2 = 0 then q else q + 1

/-- R96: `RNE(m · 2^sh)`. -/
def rneShift (m : Nat) (sh : Int) : Nat :=
  if 0 ≤ sh then m * 2 ^ sh.toNat else rneDiv m (-sh).toNat

/-- R96: the sign bit in a binary64 word. -/
def f64SignBit (s : Bool) : Nat := bitNat s * 2 ^ 63

/-- R96: a normal result of `RoundF64`: the exponent E and the rounded significand q, `2^52 ≤ q ≤ 2^53`. -/
def f64Normal (s : Bool) (E : Int) (q : Nat) : Nat :=
  let E' := if q = 2 ^ 53 then E + 1 else E
  let q' := if q = 2 ^ 53 then 2 ^ 52 else q
  if 1023 < E' then f64SignBit s + 2047 * 2 ^ 52
  else f64SignBit s + (E' + 1023).toNat * 2 ^ 52 + (q' - 2 ^ 52)

/-- R96: `RoundF64(x)` for `x = coef · 2^exp`, not 0. Here `floor(log2 |x|)` is the position of the
coefficient's highest bit plus exp. -/
def roundF64 (x : Term) : Nat :=
  let s := decide (x.coef < 0)
  let a := x.coef.natAbs
  let E := (a.log2 : Int) + x.exp
  if E < -1022 then f64SignBit s + rneShift a (x.exp + 1074)
  else f64Normal s E (rneShift a (x.exp + (52 - E)))

end Sys2Proof.Machine
end

