-- ==== Sys2Proof/Machine/Arithmetic.lean ====
section
/-!
DEFINITION. posit_adder, posit_multiplier, posit_reciprocal, posit_divider (42_arithmetic.md R110 to
R122): the value functions on well-formed values and the operations NEG, REC, ADD, SUB, MUL, DIV.
-/

namespace Sys2Proof.Machine

/-- R114: `NegV(A)`. -/
def negV (A : PV) : PV := if A.nan then A else { A with bits := negN A.n A.bits }

/-- R116: `RecV(A)`. -/
def recV (A : PV) : PV :=
  match A.decoded with
  | .nan => PV.nanOf A.cfg
  | .zero => PV.infOf A.cfg
  | .inf => PV.real A.cfg 0
  | .fin F => PV.rounded A.cfg (Exact.recip (F.term A.es))

/-- R117: `val(B)` or, for SUB, `-val(B)`. -/
def addend (sub : Bool) (t : Term) : Term := if sub then t.neg else t

/-- R117, R111: `AddV(A, B, sub)` for operands of one configuration. -/
def addV (A B : PV) (sub : Bool) : PV :=
  match A.decoded, B.decoded with
  | .nan, _ => PV.nanOf A.cfg
  | _, .nan => PV.nanOf A.cfg
  | .inf, .inf => if sub then PV.nanOf A.cfg else PV.infOf A.cfg
  | .inf, _ => PV.infOf A.cfg
  | _, .inf => PV.infOf A.cfg
  | .zero, .zero => PV.rounded A.cfg (Exact.ofSum [])
  | .zero, .fin G => PV.rounded A.cfg (Exact.ofSum [addend sub (G.term B.es)])
  | .fin F, .zero => PV.rounded A.cfg (Exact.ofSum [F.term A.es])
  | .fin F, .fin G => PV.rounded A.cfg (Exact.ofSum [F.term A.es, addend sub (G.term B.es)])

/-- R119, R111: `MulV(A, B)` for operands of one configuration. -/
def mulV (A B : PV) : PV :=
  match A.decoded, B.decoded with
  | .nan, _ => PV.nanOf A.cfg
  | _, .nan => PV.nanOf A.cfg
  | .inf, .zero => PV.nanOf A.cfg
  | .zero, .inf => PV.nanOf A.cfg
  | .inf, _ => PV.infOf A.cfg
  | _, .inf => PV.infOf A.cfg
  | .zero, _ => PV.rounded A.cfg (Exact.ofSum [])
  | _, .zero => PV.rounded A.cfg (Exact.ofSum [])
  | .fin F, .fin G => PV.rounded A.cfg (Exact.ofTerm ((F.term A.es).mul (G.term B.es)))

/-- R114: NEG. -/
def execNeg (s : State) : Host.Outcome State Fault Refusal :=
  .next (s.respond (withA s fun A => Response.ofPV (negV A)))

/-- R116: REC. -/
def execRecip (s : State) : Host.Outcome State Fault Refusal :=
  .next (s.respond (withA s fun A => Response.ofPV (recV A)))

/-- R117: ADD. -/
def execAdd (s : State) : Host.Outcome State Fault Refusal :=
  .next (s.respond (withAB s fun A B => sameCfg A B (addV A B false)))

/-- R118: SUB. -/
def execSub (s : State) : Host.Outcome State Fault Refusal :=
  .next (s.respond (withAB s fun A B => sameCfg A B (addV A B true)))

/-- R119: MUL. -/
def execMul (s : State) : Host.Outcome State Fault Refusal :=
  .next (s.respond (withAB s fun A B => sameCfg A B (mulV A B)))

/-- R120: DIV, which rounds twice: `MulV(A, RecV(B))`. -/
def execDiv (s : State) : Host.Outcome State Fault Refusal :=
  .next (s.respond (withAB s fun A B => sameCfg A B (mulV A (recV B))))

end Sys2Proof.Machine
end

