-- ==== Sys2Proof/Machine/Flags.lean ====
section
/-!
DEFINITION. The booleans the PAU computes (43_compare_predicates.md R130, R131, R140 to R144). The PAU has
no status flags (10_state.md R27): each of these is the response field `flag` of its one operation.
-/

namespace Sys2Proof.Machine

/-- R130: the comparison key of a value that is not NaN: -∞, or a number (no term is 0). -/
inductive Key where
  | negInf
  | num (ts : List Term)
deriving DecidableEq, Repr

/-- R130: `Key(v)`; a NaN has none. -/
def PV.key (v : PV) : Option Key :=
  match v.decoded with
  | .nan => none
  | .inf => some .negInf
  | .zero => some (.num [])
  | .fin F => some (.num [F.term v.es])

/-- R130: the order of two keys, -1, 0 or 1: "−∞ is below every rational and equal to itself". -/
def Key.cmp : Key → Key → Int
  | .negInf, .negInf => 0
  | .negInf, .num _ => -1
  | .num _, .negInf => 1
  | .num ts, .num us => (Exact.ofSum ts).cmp us

/-- R131: the flag of a comparison: 0 when either operand is NaN, else the test of the keys' order. -/
def compareFlag (A B : PV) (test : Int → Bool) : Bool :=
  match A.key, B.key with
  | some a, some b => test (a.cmp b)
  | _, _ => false

/-- R140. -/
def PV.isZero (v : PV) : Bool := v.bits == 0 && !v.nan

/-- R141: the pattern of one is `2^(n-2)`. -/
def PV.isOne (v : PV) : Bool := v.bits == 2 ^ (v.n - 2) && !v.nan

/-- R142. -/
def PV.isInf (v : PV) : Bool := v.bits == 2 ^ (v.n - 1) && !v.nan

/-- R143: the sign bit, whatever the class; "taken as written". -/
def PV.isNeg (v : PV) : Bool := v.bits.testBit (v.n - 1) && !(v.bits == 0 && !v.nan)

end Sys2Proof.Machine
end

