-- ==== Sys2Proof/Machine/Compare.lean ====
section
/-!
DEFINITION. posit_comparator (43_compare_predicates.md R130 to R144): the five comparisons, which never
raise ConfigMismatch (R132), and the five predicates.
-/

namespace Sys2Proof.Machine

/-- R133: EQ. -/
def execEq (s : State) : Host.Outcome State Fault Refusal :=
  .next (s.respond (withAB s fun A B => Response.ofFlag (compareFlag A B fun o => o == 0)))

/-- R134: GT. -/
def execGt (s : State) : Host.Outcome State Fault Refusal :=
  .next (s.respond (withAB s fun A B => Response.ofFlag (compareFlag A B fun o => decide (0 < o))))

/-- R135: GE. -/
def execGe (s : State) : Host.Outcome State Fault Refusal :=
  .next (s.respond (withAB s fun A B => Response.ofFlag (compareFlag A B fun o => decide (0 ≤ o))))

/-- R136: LT. -/
def execLt (s : State) : Host.Outcome State Fault Refusal :=
  .next (s.respond (withAB s fun A B => Response.ofFlag (compareFlag A B fun o => decide (o < 0))))

/-- R137: LE. -/
def execLe (s : State) : Host.Outcome State Fault Refusal :=
  .next (s.respond (withAB s fun A B => Response.ofFlag (compareFlag A B fun o => decide (o ≤ 0))))

/-- R140: IS_ZERO. -/
def execIsZero (s : State) : Host.Outcome State Fault Refusal :=
  .next (s.respond (withA s fun A => Response.ofFlag A.isZero))

/-- R141: IS_ONE. -/
def execIsOne (s : State) : Host.Outcome State Fault Refusal :=
  .next (s.respond (withA s fun A => Response.ofFlag A.isOne))

/-- R142: IS_INF. -/
def execIsInf (s : State) : Host.Outcome State Fault Refusal :=
  .next (s.respond (withA s fun A => Response.ofFlag A.isInf))

/-- R143: IS_NEG. -/
def execIsNeg (s : State) : Host.Outcome State Fault Refusal :=
  .next (s.respond (withA s fun A => Response.ofFlag A.isNeg))

/-- R144: IS_NAN. -/
def execIsNan (s : State) : Host.Outcome State Fault Refusal :=
  .next (s.respond (withA s fun A => Response.ofFlag A.nan))

end Sys2Proof.Machine
end

