-- ==== Sys2Proof/Machine/ConfigStore.lean ====
section
/-!
DEFINITION. The default-configuration store and construction (44_config_store.md R150 to R154): CONSTRUCT,
SETDEF, GETDEF.
-/

namespace Sys2Proof.Machine

/-- R151: CONSTRUCT gives zero in the configuration. -/
def execConstruct (usedef : Bool) (cn ces : Nat) (s : State) : Host.Outcome State Fault Refusal :=
  .next (s.respond (withCfg usedef cn ces s fun c => Response.ofPV (PV.real c 0)))

/-- R152: a valid pair is written and answered with err = 0; an invalid one is refused and DEFCFG is
unchanged. -/
def storeDefcfg (c : Cfg) (s : State) : State :=
  if c.valid then (s.setDefcfg c).respond Response.done else s.raise .invalidConfiguration

/-- R152: SETDEF. -/
def execSetdef (cn ces : Nat) (s : State) : Host.Outcome State Fault Refusal :=
  .next (storeDefcfg ⟨cn, ces⟩ s)

/-- R153: GETDEF. -/
def execGetdef (s : State) : Host.Outcome State Fault Refusal :=
  .next (s.respond (Response.ofAux (cfgWord s.defcfg)))

end Sys2Proof.Machine
end

