-- ==== Sys2Proof/Machine/Converter.lean ====
section
/-!
DEFINITION. posit_value_converter's operations (41_converter.md R93 to R100): TOEXACT, ROUND, TO_F64,
FROM_F64.
-/

namespace Sys2Proof.Machine

/-- R93, R97: the EXACT word of a value of exponent width es. -/
def toexactWord (es : Nat) : Decoded → AuxWord
  | .fin F => exactWord .fin F.sign (F.exponent es) (2 ^ 63 + F.f * 2 ^ (63 - F.fb))
  | .zero => exactWord .zero false 0 0
  | .inf => exactWord .inf false 0 0
  | .nan => exactWord .nan false 0 0

/-- R46: the value of a FIN EXACT word, `(-1)^sign · 2^E · sig / 2^63`. -/
def ExactIn.term (X : ExactIn) : Term := ⟨signed X.sign X.sig, X.E - 63⟩

/-- R98: ROUND on a configuration and an EXACT word. -/
def roundExact (c : Cfg) (X : ExactIn) : Response :=
  match X.cls with
  | .zero => Response.ofPV (PV.real c 0)
  | .inf => Response.ofPV (PV.infOf c)
  | .nan => Response.ofPV (PV.nanOf c)
  | .fin =>
    if X.sig.testBit 63 then Response.ofPV (PV.rounded c (Exact.ofTerm X.term))
    else Response.ofError .invalidRequest

/-- R99: the binary64 word of a value of exponent width es. -/
def toF64Bits (es : Nat) : Decoded → Nat
  | .nan => 0x7FF8000000000000
  | .inf => 0x7FF0000000000000
  | .zero => 0x0000000000000000
  | .fin F => roundF64 (F.term es)

/-- R95, R100: the posit of a binary64 word. -/
def fromF64PV (c : Cfg) (d : Nat) : PV :=
  match f64Class d with
  | .zero => PV.real c 0
  | .inf => PV.infOf c
  | .nan => PV.nanOf c
  | .fin => PV.rounded c (Exact.ofTerm (f64Val d))

/-- R97: TOEXACT. -/
def execToexact (s : State) : Host.Outcome State Fault Refusal :=
  .next (s.respond (withA s fun A => Response.ofAux (toexactWord A.es A.decoded)))

/-- R98: ROUND. -/
def execRound (usedef : Bool) (cn ces : Nat) (s : State) : Host.Outcome State Fault Refusal :=
  .next (s.respond (withCfg usedef cn ces s fun c => roundExact c (ExactIn.ofWord s.req.x)))

/-- R99: TO_F64. -/
def execToF64 (s : State) : Host.Outcome State Fault Refusal :=
  .next (s.respond (withA s fun A => Response.ofAux (f64Word (toF64Bits A.es A.decoded))))

/-- R100: FROM_F64. -/
def execFromF64 (usedef : Bool) (cn ces : Nat) (s : State) : Host.Outcome State Fault Refusal :=
  .next (s.respond (withCfg usedef cn ces s fun c => Response.ofPV (fromF64PV c (f64OfWord s.req.x))))

end Sys2Proof.Machine
end

