-- ==== Sys2Proof/Machine/Dispatch.lean ====
section
/-!
DEFINITION. One arm per operation of the opcode map (30_encoding.md R50).
-/

namespace Sys2Proof.Machine

def exec (i : Instr) (s : State) : Host.Outcome State Fault Refusal :=
  match i with
  -- posit_codec and posit_value_converter
  | .unpack => Sys2Proof.Machine.execUnpack s
  | .pack u cn ces => Sys2Proof.Machine.execPack u cn ces s
  | .toexact => Sys2Proof.Machine.execToexact s
  | .round u cn ces => Sys2Proof.Machine.execRound u cn ces s
  | .toF64 => Sys2Proof.Machine.execToF64 s
  | .fromF64 u cn ces => Sys2Proof.Machine.execFromF64 u cn ces s
  | .construct u cn ces => Sys2Proof.Machine.execConstruct u cn ces s
  -- posit_adder, posit_reciprocal, posit_multiplier, posit_divider
  | .neg => Sys2Proof.Machine.execNeg s
  | .recip => Sys2Proof.Machine.execRecip s
  | .add => Sys2Proof.Machine.execAdd s
  | .sub => Sys2Proof.Machine.execSub s
  | .mul => Sys2Proof.Machine.execMul s
  | .div => Sys2Proof.Machine.execDiv s
  -- posit_comparator
  | .eq => Sys2Proof.Machine.execEq s
  | .gt => Sys2Proof.Machine.execGt s
  | .ge => Sys2Proof.Machine.execGe s
  | .lt => Sys2Proof.Machine.execLt s
  | .le => Sys2Proof.Machine.execLe s
  | .isZero => Sys2Proof.Machine.execIsZero s
  | .isOne => Sys2Proof.Machine.execIsOne s
  | .isInf => Sys2Proof.Machine.execIsInf s
  | .isNeg => Sys2Proof.Machine.execIsNeg s
  | .isNan => Sys2Proof.Machine.execIsNan s
  -- configuration store
  | .setdef cn ces => Sys2Proof.Machine.execSetdef cn ces s
  | .getdef => Sys2Proof.Machine.execGetdef s

end Sys2Proof.Machine
end

