-- ==== Sys2Proof/Machine/Step.lean ====
section
/-!
DEFINITION. One step: one request performed (70_reset_and_hazards.md R185), and where the host places a
request.
-/

namespace Sys2Proof.Machine

/-- R52 step 1, R53: decode the accepted request's command word; an illegal one raises
InvalidRequest (R164 a). -/
def performRequest (s : State) : Host.Outcome State Fault Refusal :=
  match decode s.req.cmd with
  | some i => exec i s
  | none => .next (s.raise .invalidRequest)

/-- R26, R33, R36: the oldest request presented is accepted and performed as one indivisible step. With no
request presented the PAU does nothing (log entry 2). -/
def step (s : State) : Host.Outcome State Fault Refusal :=
  match s.pending with
  | [] => .next s
  | q :: rest => performRequest (s.accept q rest)

/-- The operands that stand beside the next command word: those of the request presented first, or those
on the request port where none is presented. -/
def State.nextOperands (s : State) : Request := s.pending.headD s.req

/-- s with the command word w at the head of the request stream, so that the next step performs it (log
entry 6). Every command word is 32 bits (R42). -/
def State.withFetchWord (s : State) (_nbits w : Nat) : State :=
  { s with pending := { s.nextOperands with cmd := BitVec.ofNat 32 w } :: s.pending.tail }

end Sys2Proof.Machine
end

