-- ==== Sys2Proof/Machine/Reals.lean ====
section
/-!
DEFINITION. The rational numbers the machine's exact data stand for, and the rules of 41_converter.md and
43_compare_predicates.md written on rationals as the spec writes them (R80, R81, R84, R88, R91, R94,
R96, R130). The machine never computes with these; statements about it are made in their terms.
-/

namespace Sys2Proof.Machine

/-- The rational `coef · 2^exp`. -/
def Term.toRat (t : Term) : ℚ := (t.coef : ℚ) * (2 : ℚ) ^ t.exp

/-- The rational a sum of terms stands for. -/
def sumRat (ts : List Term) : ℚ := (ts.map Term.toRat).sum

/-- The rational an exact number stands for. -/
def Exact.toRat (x : Exact) : ℚ := sumRat x.num / (x.den : ℚ)

/-- `(-1)^sign` (R62). -/
def signRat (sign : Bool) : ℚ := if sign then -1 else 1

/-- R80, R81: `(-1)^sign · 2^E · (1 + f / 2^fb)` with `E = k · 2^es + e`. -/
def Fields.val (es : Nat) (F : Fields) : ℚ :=
  signRat F.sign * (2 : ℚ) ^ (F.k * (2 : Int) ^ es + (F.e : Int)) * (1 + (F.f : ℚ) / (2 : ℚ) ^ F.fb)

/-- R81: `val(v)`, "defined for classes FIN and ZERO only". -/
def PV.val (v : PV) : Option ℚ :=
  match v.decoded with
  | .fin F => some (F.val v.es)
  | .zero => some 0
  | .inf => none
  | .nan => none

/-- R81: `valmag(n, es, m)`. -/
def valmagRat (c : Cfg) (m : Nat) : ℚ := (magFields c false m).val c.es

/-- R62, R88: the magnitude patterns of a configuration, `0 < p < 2^(n-1)`. -/
def IsMagPattern (c : Cfg) (p : Nat) : Prop := 0 < p ∧ p < 2 ^ (c.n - 1)

/-- R84: maxpos. -/
def maxposRat (c : Cfg) : ℚ := (2 : ℚ) ^ (((c.n - 2) * 2 ^ c.es : Nat) : Int)

/-- R84: minpos. -/
def minposRat (c : Cfg) : ℚ := (2 : ℚ) ^ (-(((c.n - 2) * 2 ^ c.es : Nat) : Int))

/-- R88, R90: p is a magnitude pattern whose value is at the least distance from x, and it is even where
another pattern is at the same distance. -/
def IsNearestPattern (c : Cfg) (x : ℚ) (p : Nat) : Prop :=
  IsMagPattern c p ∧
    ∀ q, IsMagPattern c q →
      |valmagRat c p - x| ≤ |valmagRat c q - x| ∧
        (|valmagRat c q - x| = |valmagRat c p - x| → q ≠ p → p % 2 = 0)

/-- R88: p is `RoundMag(n, es, x)`. -/
def IsRoundMag (c : Cfg) (x : ℚ) (p : Nat) : Prop :=
  (maxposRat c ≤ x → p = 2 ^ (c.n - 1) - 1) ∧
    (x ≤ minposRat c → p = 1) ∧
      (minposRat c < x → x < maxposRat c → IsNearestPattern c x p)

/-- R88: p is `Round(n, es, x)`. -/
def IsRound (c : Cfg) (x : ℚ) (p : Nat) : Prop :=
  (x = 0 → p = 0) ∧
    (0 < x → IsRoundMag c x p) ∧
      (x < 0 → ∃ q, IsRoundMag c (-x) q ∧ p = negN c.n q)

/-- R91, first branch: the whole exponent field fits and fb fraction bits are kept. -/
def roundFraction (c : Cfg) (k : Int) (e fb : Nat) (m : ℚ) : Nat :=
  let q := ⌊(m - 1) * 2 ^ fb⌋
  let rem := (m - 1) * 2 ^ fb - (q : ℚ)
  let plo := packMag c k e fb q.toNat
  if rem < 1 / 2 then plo
  else if 1 / 2 < rem then plo + 1
  else if plo % 2 = 0 then plo else plo + 1

/-- R91, second branch: cut low exponent bits do not fit and no fraction bit is kept. -/
def roundExponent (c : Cfg) (E k : Int) (e cut : Nat) (m : ℚ) : Nat :=
  let elo := e / 2 ^ cut * 2 ^ cut
  let plo := packMag c k elo 0 0
  let Ehi := k * 2 ^ c.es + (elo : Int) + 2 ^ cut
  let d := (m - 1) - (2 : ℚ) ^ (-(2 ^ cut : Int))
  if E ≤ Ehi - 2 then plo
  else if d < 0 then plo
  else if 0 < d then plo + 1
  else if plo % 2 = 0 then plo else plo + 1

/-- R91: the operational form of `RoundMag`, for x > 0. -/
def roundMagOperational (c : Cfg) (x : ℚ) : Nat :=
  let E := Int.log 2 x
  let m := x / (2 : ℚ) ^ E
  let k := E / 2 ^ c.es
  let e := (E % 2 ^ c.es).toNat
  let w := budget c k
  if (emax c : Int) ≤ E then 2 ^ (c.n - 1) - 1
  else if E < -(emax c : Int) then 1
  else if w.eb = c.es then roundFraction c k e w.fb m
  else roundExponent c E k e (c.es - w.eb) m

/-- R94: `F64Val(d)`, for class FIN: `(-1)^s · tf · 2^(-1074)` or `(-1)^s · (2^52 + tf) · 2^(be - 1075)`. -/
def f64ValRat (d : Nat) : ℚ :=
  if slice d 62 52 = 0 then
    signRat (d.testBit 63) * (slice d 51 0 : ℚ) * (2 : ℚ) ^ (-1074 : Int)
  else
    signRat (d.testBit 63) * ((2 : ℚ) ^ 52 + (slice d 51 0 : ℚ)) * (2 : ℚ) ^ ((slice d 62 52 : Int) - 1075)

/-- R96: `RNE(t)`, "the integer nearest to t in ℚ; if t is half way between two integers, the even one",
for t ≥ 0. -/
def rneRat (t : ℚ) : Nat :=
  let q := ⌊t⌋.toNat
  if t - (q : ℚ) < 1 / 2 then q
  else if 1 / 2 < t - (q : ℚ) then q + 1
  else if q % 2 = 0 then q else q + 1

/-- R96: `RoundF64(x)`, for x ≠ 0. -/
def roundF64Rat (x : ℚ) : Nat :=
  let s := f64SignBit (decide (x < 0))
  let a := |x|
  let E := Int.log 2 a
  let q := rneRat (a * (2 : ℚ) ^ (52 - E))
  let E' := if q = 2 ^ 53 then E + 1 else E
  let q' := if q = 2 ^ 53 then 2 ^ 52 else q
  if E < -1022 then s + rneRat (a * 2 ^ 1074)
  else if 1023 < E' then s + 2047 * 2 ^ 52
  else s + (E' + 1023).toNat * 2 ^ 52 + (q' - 2 ^ 52)

/-- R130: `Key(v)` as an element of ℚ ∪ {−∞}; a NaN has none. -/
def PV.keyRat (v : PV) : Option (WithBot ℚ) :=
  match v.decoded with
  | .nan => none
  | .inf => some ⊥
  | .zero => some ((0 : ℚ) : WithBot ℚ)
  | .fin F => some ((F.val v.es : ℚ) : WithBot ℚ)

end Sys2Proof.Machine
end

