-- ==== Sys2Proof/Safety.lean ====
section
/-!
DEFINITION. What counts as a sound state of the PAU, and the terms the statements are made in: replies,
well-formed values (10_state.md R20), the invariant of DEFCFG (R23) and of the response port
(40_codec.md R73, 30_encoding.md R41).
-/

namespace Sys2Proof

/-- R48: format B. -/
def Instr.isFormatB : Instr → Bool
  | .add | .sub | .mul | .div | .eq | .gt | .ge | .lt | .le => true
  | _ => false

/-- R163: the four operations that raise ConfigMismatch. -/
def Instr.isArithmeticB : Instr → Bool
  | .add | .sub | .mul | .div => true
  | _ => false

/-- R50: the operations that write r. -/
def Instr.writesR : Instr → Bool
  | .pack _ _ _ | .round _ _ _ | .fromF64 _ _ _ | .construct _ _ _ => true
  | .neg | .recip | .add | .sub | .mul | .div => true
  | _ => false

/-- R50: SETDEF, the one operation that writes DEFCFG (R28). -/
def Instr.isSetdef : Instr → Bool
  | .setdef _ _ => true
  | _ => false

end Sys2Proof

namespace Sys2Proof.Machine

/-- R20: a value is well-formed when its configuration is valid and `bits < 2^n`. -/
def PV.wellFormed (v : PV) : Bool := v.cfg.valid && decide (v.bits < 2 ^ v.n)

/-- R41, R73: a response that reports an error holds nothing else; the PV it holds, where it holds one, is
well-formed. -/
def Response.sound (rsp : Response) : Prop :=
  (rsp.err ≠ .ok → rsp.r = 0 ∧ rsp.flag = false ∧ rsp.y = 0) ∧
    (rsp.r = 0 ∨ (PV.ofWord rsp.r).wellFormed = true)

/-- R23 and R73: DEFCFG is a valid configuration, and the response port holds a sound response or nothing. -/
def State.Inv (s : State) : Prop :=
  s.defcfg.valid = true ∧ ∀ rsp, s.response = some rsp → rsp.sound

/-- The operation answers with a response and changes nothing else: DEFCFG, the request port and the
pending requests are as before. -/
def Replies (i : Instr) (s : State) (rsp : Response) : Prop :=
  exec i s = .next { s with response := some rsp }

/-- The operation answers with the value v in r, and nothing else of the response (R41). -/
def RepliesPV (i : Instr) (s : State) (v : PV) : Prop := Replies i s ⟨.ok, v.toWord, false, 0⟩

/-- The operation answers with the boolean f, and nothing else of the response (R41). -/
def RepliesFlag (i : Instr) (s : State) (f : Bool) : Prop := Replies i s ⟨.ok, 0, f, 0⟩

/-- The operation answers with the auxiliary word y, and nothing else of the response (R41). -/
def RepliesAux (i : Instr) (s : State) (y : AuxWord) : Prop := Replies i s ⟨.ok, 0, false, y⟩

/-- R166: the operation answers with the error e and zeros, and changes nothing else. -/
def RepliesError (i : Instr) (s : State) (e : ErrCode) : Prop := Replies i s ⟨e, 0, false, 0⟩

/-- R52: the operand word w is accepted and loads as v: its configuration is valid and its bits are
reduced mod 2^n. -/
def Loads (w : PVWord) (v : PV) : Prop :=
  2 ≤ (PV.ofWord w).n ∧ (PV.ofWord w).n ≤ 64 ∧ (PV.ofWord w).es ≤ (PV.ofWord w).n - 2 ∧
    v = { PV.ofWord w with bits := (PV.ofWord w).bits % 2 ^ (PV.ofWord w).n }

/-- R9: the operand word w carries an invalid configuration. -/
def BadConfig (w : PVWord) : Prop :=
  (PV.ofWord w).n < 2 ∨ 64 < (PV.ofWord w).n ∨ (PV.ofWord w).n - 2 < (PV.ofWord w).es

/-- R9: `ValidCfg(n, es)` is `2 ≤ n ∧ n ≤ 64 ∧ es ≤ n − 2`. -/
def ValidCfg (c : Cfg) : Prop := 2 ≤ c.n ∧ c.n ≤ 64 ∧ c.es ≤ c.n - 2

/-- R51: `Cfg(REQ)` as the spec writes it. -/
def chosenCfg (usedef : Bool) (cn ces : Nat) (s : State) : Cfg :=
  if usedef then ⟨s.defcfgN.toNat, s.defcfgEs.toNat⟩ else ⟨cn, ces⟩

/-- R142: infinity, the sign-bit-only pattern with the NaN flag clear. -/
def IsInfinity (v : PV) : Prop := v.nan = false ∧ v.bits = 2 ^ (v.n - 1)

/-- R162: a configuration the operation is about to use fails ValidCfg. -/
def UsesBadConfig (i : Instr) (s : State) : Prop :=
  match i with
  | .pack u cn ces => ¬ValidCfg (chosenCfg u cn ces s)
  | .round u cn ces => ¬ValidCfg (chosenCfg u cn ces s)
  | .fromF64 u cn ces => ¬ValidCfg (chosenCfg u cn ces s)
  | .construct u cn ces => ¬ValidCfg (chosenCfg u cn ces s)
  | .setdef cn ces => ¬ValidCfg ⟨cn, ces⟩
  | .getdef => False
  | i => BadConfig s.req.a ∨ (i.isFormatB = true ∧ BadConfig s.req.b)

/-- R164 b, c: the FIELDS word of PACK or the EXACT word of ROUND is of class FIN and outside its domain,
in a configuration c. -/
def MalformedAux (i : Instr) (c : Cfg) (x : AuxWord) : Prop :=
  match i with
  | .pack _ _ _ =>
    slice x.toNat 158 157 = 0 ∧
      (2 ^ c.es ≤ slice x.toNat 127 64 ∨ 2 ^ slice x.toNat 133 128 ≤ slice x.toNat 63 0)
  | .round _ _ _ => slice x.toNat 138 137 = 0 ∧ x.toNat.testBit 63 = false
  | _ => False

/-- R51: the configuration a PACK or ROUND uses; for another operation of no account. -/
def auxCfg (i : Instr) (s : State) : Cfg :=
  match i with
  | .pack u cn ces => chosenCfg u cn ces s
  | .round u cn ces => chosenCfg u cn ces s
  | _ => s.defcfg

/-- R48, R40: two requests agree on every field beside the command word that the operation reads. -/
def Request.agreesFor (i : Instr) (q q' : Request) : Prop :=
  match i with
  | .pack _ _ _ => q.x = q'.x
  | .round _ _ _ => q.x = q'.x
  | .fromF64 _ _ _ => q.x = q'.x
  | .construct _ _ _ => True
  | .setdef _ _ => True
  | .getdef => True
  | i => q.a = q'.a ∧ (i.isFormatB = true → q.b = q'.b)

/-- A request with its operands A and B exchanged. -/
def Request.swap (q : Request) : Request := { q with a := q.b, b := q.a }

/-- R53: the words the rule names as illegal. -/
def IllegalWord (w : CmdWord) : Prop :=
  slice w.toNat 4 0 ∈ [0x00, 0x0E, 0x0F, 0x15, 0x16, 0x17, 0x1D] ∨
    slice w.toNat 31 19 ≠ 0 ∨
      (slice w.toNat 4 0 ∉ [0x02, 0x04, 0x06, 0x07, 0x1E] ∧ slice w.toNat 18 5 ≠ 0) ∨
        (slice w.toNat 4 0 = 0x1E ∧ slice w.toNat 5 5 = 1)

/-- R69: the bit string S that encode emits, bit j counted from its first: the regime run of r bits b, the
terminator, the es bits of e and the fw bits of f, high bits first, then zeros without end. -/
def packString (b : Bool) (r es e fw f j : Nat) : Bool :=
  if j < r then b
  else if j = r then !b
  else if j < r + 1 + es then e.testBit (es - 1 - (j - (r + 1)))
  else if j < r + 1 + es + fw then f.testBit (fw - 1 - (j - (r + 1 + es)))
  else false

end Sys2Proof.Machine
end

