-- ==== Sys2Proof/Certificates/Slice0/Obligations.lean ====
section
/-!
DEFINITION. The statements for the provers. Each docstring names the rule of spec/ it is about; a clause that
rests on a choice of the model says so and names the log entry.
-/

open Sys2Proof Sys2Proof.Machine

/-! ## Reset, steps and requests -/

/-- R24: after reset DEFCFG is RESET_CFG, of which only ValidCfg is known. -/
def Obligations.ResetHoldsAValidDefault : Prop :=
  State.reset.defcfg = ⟨Config.resetN, Config.resetEs⟩ ∧ ValidCfg State.reset.defcfg

/-- R23, R181: the invariant holds at reset. -/
def Obligations.ResetMeetsTheInvariant : Prop := State.reset.Inv

/-- R23, R73, R41: every step keeps DEFCFG valid and the response port sound, from every state that meets the
invariant. -/
def Obligations.StepKeepsTheInvariant : Prop :=
  ∀ s t : State, s.Inv → step s = .next t → t.Inv

/-- R26, R36, R52: the step accepts the oldest request and runs the operation its command word decodes to.
With no request presented it changes nothing (the model's choice, log entry 2). -/
def Obligations.StepPerformsTheDecodedRequest : Prop :=
  ∀ s : State,
    (∀ q rest i, s.pending = q :: rest → decode q.cmd = some i →
      step s = exec i { s with req := q, pending := rest }) ∧
    (s.pending = [] → step s = .next s)

/-- R41, R186: every request, ill-formed or not, gets exactly one response in one step. -/
def Obligations.EveryRequestProducesOneResponse : Prop :=
  ∀ (s : State) (q : Request) (rest : List Request), s.pending = q :: rest →
    ∃ t rsp, step s = .next t ∧ t.response = some rsp ∧ t.req = q ∧ t.pending = rest

/-- R28, R33: the frame of every operation but SETDEF, on every state and every operand: it completes, writes
the response port and changes nothing else. -/
def Obligations.EveryOperationButSetdefOnlyReplies : Prop :=
  ∀ (i : Instr) (s : State), i.isSetdef = false → ∃ rsp, Replies i s rsp

/-- R40, R28: an operation reads only the request fields its format names, and DEFCFG. -/
def Obligations.UnnamedRequestFieldsAreIgnored : Prop :=
  ∀ (i : Instr) (s s' : State) (rsp : Response), i.isSetdef = false → s'.defcfg = s.defcfg →
    Request.agreesFor i s.req s'.req → Replies i s rsp → Replies i s' rsp

/-! ## Encoding -/

/-- R42, R50: command words written out from the spec's tables decode to their operations. -/
def Obligations.CommandWordsDecode : Prop :=
  decode 0x00000001 = some .unpack ∧
  decode 0x00004182 = some (.pack false 6 2) ∧
  decode 0x00002406 = some (.fromF64 false 16 1) ∧
  decode 0x00000026 = some (.fromF64 true 0 0) ∧
  decode 0x0007D007 = some (.construct false 64 62) ∧
  decode 0x0000000A = some .add ∧
  decode 0x00000013 = some .lt ∧
  decode 0x0000001B = some .isNeg ∧
  decode 0x0000241E = some (.setdef 16 1) ∧
  decode 0x0000003E = none ∧
  decode 0x0000001F = some .getdef

/-- R50: the decoder is the table: a word decodes to an operation exactly when a row selects it, and no word
selects two rows. -/
def Obligations.DecodeAgreesWithTheOpcodeTable : Prop :=
  (∀ (w : CmdWord) (i : Instr), decode w = some i ↔
    ∃ row ∈ opcodeTable, row.selects w = true ∧
      i = row.build (w.getLsbD 5) (slice w.toNat 12 6) (slice w.toNat 18 13)) ∧
  opcodeTable.Pairwise fun r r' => ∀ w, ¬(r.selects w = true ∧ r'.selects w = true)

/-- R53: the words that match no row are those the rule names, and a request with one raises
InvalidRequest and does nothing else. -/
def Obligations.IllegalCommandWordsRaiseInvalidRequest : Prop :=
  (∀ w : CmdWord, (∀ row ∈ opcodeTable, row.selects w = false) ↔ IllegalWord w) ∧
  ∀ (s : State) (q : Request) (rest : List Request), s.pending = q :: rest → IllegalWord q.cmd →
    step s = .next { s with
      req := q, pending := rest, response := some ⟨.invalidRequest, 0, false, 0⟩ }

/-- R42, R50: decoding the command word of a well-formed instruction gives the instruction back. -/
def Obligations.DecodeOfEncodeIsTheInstruction : Prop :=
  ∀ i : Instr, i.wf = true → decode (encode i) = some i

/-- R42, R50, R54: each instruction has one command word, and what decodes is well-formed. -/
def Obligations.EncodeOfDecodeIsTheWord : Prop :=
  ∀ (w : CmdWord) (i : Instr), decode w = some i → encode i = w ∧ i.wf = true

/-! ## Errors -/

/-- R162: InvalidConfiguration is answered exactly when a configuration the operation is about to use is
invalid; with usedef = 1 that cannot happen while the invariant holds. -/
def Obligations.InvalidConfigurationIsReported : Prop :=
  ∀ (i : Instr) (s : State),
    (UsesBadConfig i s → RepliesError i s .invalidConfiguration) ∧
    (∀ t rsp, exec i s = .next t → t.response = some rsp → rsp.err = .invalidConfiguration →
      UsesBadConfig i s) ∧
    (s.Inv → ∀ cn ces, ¬UsesBadConfig (.pack true cn ces) s ∧ ¬UsesBadConfig (.round true cn ces) s ∧
      ¬UsesBadConfig (.fromF64 true cn ces) s ∧ ¬UsesBadConfig (.construct true cn ces) s)

/-- R163, R110: ConfigMismatch is answered exactly by ADD, SUB, MUL and DIV on valid operands of different
configuration. -/
def Obligations.MismatchedArithmeticIsRefused : Prop :=
  ∀ (i : Instr) (s : State),
    (∀ A B, i.isArithmeticB = true → Loads s.req.a A → Loads s.req.b B → (A.n ≠ B.n ∨ A.es ≠ B.es) →
      RepliesError i s .configMismatch) ∧
    (∀ t rsp, exec i s = .next t → t.response = some rsp → rsp.err = .configMismatch →
      i.isArithmeticB = true ∧
        ∃ A B, Loads s.req.a A ∧ Loads s.req.b B ∧ (A.n ≠ B.n ∨ A.es ≠ B.es))

/-- R164 b, c: a decoded operation answers InvalidRequest exactly when it is PACK or ROUND with a valid
configuration and a malformed x. -/
def Obligations.MalformedAuxiliaryOperandIsRefused : Prop :=
  ∀ (i : Instr) (s : State),
    (ValidCfg (auxCfg i s) → MalformedAux i (auxCfg i s) s.req.x → RepliesError i s .invalidRequest) ∧
    (∀ t rsp, exec i s = .next t → t.response = some rsp → rsp.err = .invalidRequest →
      ValidCfg (auxCfg i s) ∧ MalformedAux i (auxCfg i s) s.req.x)

/-- R165: the order of the checks of one request: decode, then configurations, then the operation's own
checks, whatever the values. -/
def Obligations.ErrorPriority : Prop :=
  ∀ (s : State) (q : Request) (rest : List Request) (s' : State), s.pending = q :: rest →
    s' = { s with req := q, pending := rest } →
    (decode q.cmd = none → step s = .next { s' with response := some ⟨.invalidRequest, 0, false, 0⟩ }) ∧
    (∀ i, decode q.cmd = some i → UsesBadConfig i s' →
      step s = .next { s' with response := some ⟨.invalidConfiguration, 0, false, 0⟩ }) ∧
    (∀ i, decode q.cmd = some i → ¬UsesBadConfig i s' → MalformedAux i (auxCfg i s') q.x →
      step s = .next { s' with response := some ⟨.invalidRequest, 0, false, 0⟩ }) ∧
    (∀ i, decode q.cmd = some i → ¬UsesBadConfig i s' → i.isArithmeticB = true →
      (PV.ofWord q.a).cfg ≠ (PV.ofWord q.b).cfg →
      step s = .next { s' with response := some ⟨.configMismatch, 0, false, 0⟩ })

/-! ## posit_codec -/

/-- R61: the class is the first that applies, and only a value of class FIN has fields. -/
def Obligations.ClassIsTheFirstThatApplies : Prop :=
  ∀ v : PV, v.wellFormed = true →
    (v.cls = .nan ↔ v.nan = true) ∧
    (v.cls = .zero ↔ v.nan = false ∧ v.bits = 0) ∧
    (v.cls = .inf ↔ v.nan = false ∧ v.bits = 2 ^ (v.n - 1)) ∧
    (v.cls = .fin ↔ v.nan = false ∧ v.bits ≠ 0 ∧ v.bits ≠ 2 ^ (v.n - 1)) ∧
    (v.cls = .fin ↔ v.decoded = .fin v.fields)

/-- R63, R65: the regime of a magnitude pattern is the longest run of bits equal to bit n - 2, its value k is
r - 1 or -r, and the run is exhausted only by the all-ones body. -/
def Obligations.RegimeRunIsMaximal : Prop :=
  ∀ n m : Nat, 2 ≤ n → 0 < m → m < 2 ^ (n - 1) →
    let g := regimeDecode m n
    g.b0 = m.testBit (n - 2) ∧ 1 ≤ g.r ∧ g.r ≤ n - 1 ∧
    (∀ j, j < g.r → m.testBit (n - 2 - j) = g.b0) ∧
    (g.r < n - 1 → m.testBit (n - 2 - g.r) = !g.b0) ∧
    (g.t = true ↔ g.r < n - 1) ∧
    (g.b0 = true → g.k = (g.r : Int) - 1) ∧
    (g.b0 = false → g.k = -(g.r : Int) ∧ g.r ≤ n - 2 ∧ g.t = true) ∧
    -((n : Int) - 2) ≤ g.k ∧ g.k ≤ (n : Int) - 2 ∧
    (g.t = false ↔ m = 2 ^ (n - 1) - 1)

/-- R64, R66: the bits below the terminator are split into the exponent, high-order bits first with the
missing low bits 0, and the fraction. -/
def Obligations.SplitReadsTheRemainingBits : Prop :=
  ∀ (c : Cfg) (m : Nat), ValidCfg c → 0 < m → m < 2 ^ (c.n - 1) →
    let F := magFields c false m
    let nrem := if F.t then c.n - 2 - F.r else 0
    F.eb = min c.es nrem ∧ F.fb = nrem - F.eb ∧ F.fb ≤ c.n - 3 ∧
    F.e < 2 ^ c.es ∧ F.f < 2 ^ F.fb ∧
    (∀ j, j < F.eb → F.e.testBit (c.es - 1 - j) = m.testBit (nrem - 1 - j)) ∧
    (∀ j, j < c.es - F.eb → F.e.testBit j = false) ∧
    (∀ j, j < F.fb → F.f.testBit j = m.testBit j)

/-- R76: the widths computed from k alone are those of every pattern with that k. -/
def Obligations.BudgetGivesTheFieldWidths : Prop :=
  ∀ (c : Cfg) (m : Nat), ValidCfg c → 0 < m → m < 2 ^ (c.n - 1) →
    let F := magFields c false m
    (budget c F.k).r = F.r ∧ (budget c F.k).eb = F.eb ∧ (budget c F.k).fb = F.fb ∧
    (budget c F.k).reglen = (if F.t then F.r + 1 else F.r)

/-- R69: encode gives the first n - 1 bits of the string run, terminator, exponent, fraction, zeros. -/
def Obligations.PackMagIsTheClippedBitString : Prop :=
  ∀ (c : Cfg) (k : Int) (e fw f : Nat), ValidCfg c → -((c.n : Int) - 2) ≤ k → k ≤ (c.n : Int) - 2 →
    e < 2 ^ c.es → f < 2 ^ fw →
    0 < packMag c k e fw f ∧ packMag c k e fw f < 2 ^ (c.n - 1) ∧
    ∀ j, j < c.n - 1 → (packMag c k e fw f).testBit (c.n - 2 - j) =
      packString (decide (0 ≤ k)) (if 0 ≤ k then k.toNat + 1 else (-k).toNat) c.es e fw f j

/-- R70, R71: a regime out of range packs to maxpos or minpos, and every packed pattern is of class FIN. -/
def Obligations.PackSaturatesAndStaysFinite : Prop :=
  ∀ (c : Cfg) (sign : Bool) (k : Int) (e fw f : Nat), ValidCfg c → e < 2 ^ c.es → f < 2 ^ fw →
    ((c.n : Int) - 2 < k → packMag c k e fw f = 2 ^ (c.n - 1) - 1) ∧
    (k < -((c.n : Int) - 2) → packMag c k e fw f = 1) ∧
    packBits c sign k e fw f =
      (if sign then 2 ^ c.n - packMag c k e fw f else packMag c k e fw f) ∧
    0 < packBits c sign k e fw f ∧ packBits c sign k e fw f < 2 ^ c.n ∧
    packBits c sign k e fw f ≠ 2 ^ (c.n - 1)

/-- R72: packing the fields of a finite value gives its pattern back. -/
def Obligations.PackOfFieldsIsThePattern : Prop :=
  ∀ v : PV, v.wellFormed = true → v.cls = .fin →
    packBits v.cfg v.fields.sign v.fields.k v.fields.e v.fields.fb v.fields.f = v.bits

/-- R74, R45: UNPACK reports the class and, for class FIN, every field at its place in the FIELDS word. -/
def Obligations.UnpackReportsTheFields : Prop :=
  ∀ (s : State) (A : PV), Loads s.req.a A →
    ∃ y : AuxWord, RepliesAux .unpack s y ∧
      (A.cls = .zero → y.toNat = 1 * 2 ^ 157) ∧
      (A.cls = .inf → y.toNat = 2 * 2 ^ 157) ∧
      (A.cls = .nan → y.toNat = 3 * 2 ^ 157) ∧
      (A.cls = .fin →
        slice y.toNat 63 0 = A.fields.f ∧ slice y.toNat 127 64 = A.fields.e ∧
        slice y.toNat 133 128 = A.fields.fb ∧ slice y.toNat 139 134 = A.fields.eb ∧
        signedOf 8 (slice y.toNat 147 140) = A.fields.k ∧ slice y.toNat 154 148 = A.fields.r ∧
        y.toNat.testBit 155 = A.fields.t ∧ y.toNat.testBit 156 = A.bits.testBit (A.n - 1) ∧
        slice y.toNat 158 157 = 0 ∧ y.toNat.testBit 159 = false)

/-- R75: PACK with a valid configuration, for each class of the FIELDS word. -/
def Obligations.PackAnswers : Prop :=
  ∀ (u : Bool) (cn ces : Nat) (s : State) (c : Cfg) (x : Nat), c = chosenCfg u cn ces s → ValidCfg c →
    x = s.req.x.toNat →
    (slice x 158 157 = 1 → RepliesPV (.pack u cn ces) s ⟨0, c.n, c.es, false⟩) ∧
    (slice x 158 157 = 2 → RepliesPV (.pack u cn ces) s ⟨2 ^ (c.n - 1), c.n, c.es, false⟩) ∧
    (slice x 158 157 = 3 → RepliesPV (.pack u cn ces) s ⟨0, c.n, c.es, true⟩) ∧
    (slice x 158 157 = 0 → slice x 127 64 < 2 ^ c.es → slice x 63 0 < 2 ^ slice x 133 128 →
      RepliesPV (.pack u cn ces) s
        ⟨packBits c (x.testBit 156) (signedOf 8 (slice x 147 140)) (slice x 127 64)
          (slice x 133 128) (slice x 63 0), c.n, c.es, false⟩)

/-- R75, R72: PACK of the FIELDS word that UNPACK returned gives back the operand, for every class but NaN. -/
def Obligations.UnpackThenPackIsTheOperand : Prop :=
  ∀ (s t : State) (A : PV) (y : AuxWord), Loads s.req.a A → A.nan = false → RepliesAux .unpack s y →
    t.req.x = y → RepliesPV (.pack false A.n A.es) t A

/-! ## posit_value_converter -/

/-- R84: the largest, the smallest and the unit pattern of every configuration. -/
def Obligations.ExtremeAndUnitPatterns : Prop :=
  ∀ c : Cfg, ValidCfg c →
    valmagRat c (2 ^ (c.n - 1) - 1) = (2 : ℚ) ^ (((c.n - 2) * 2 ^ c.es : Nat) : Int) ∧
    valmagRat c 1 = (2 : ℚ) ^ (-(((c.n - 2) * 2 ^ c.es : Nat) : Int)) ∧
    valmagRat c (2 ^ (c.n - 2)) = 1

/-- R83: for one configuration the values rise strictly with the magnitude patterns. -/
def Obligations.ValuesRiseWithThePatterns : Prop :=
  ∀ (c : Cfg) (p q : Nat), ValidCfg c → 0 < p → p < q → q < 2 ^ (c.n - 1) →
    valmagRat c p < valmagRat c q

/-- R88, R89, R90: the rounding of the machine is the nearest representable value, the even pattern on a tie,
saturating at both ends, for every exact number. -/
def Obligations.RoundIsTheNearestPattern : Prop :=
  ∀ (c : Cfg) (x : Exact), ValidCfg c → 0 < x.den → IsRound c x.toRat (roundBits c x)

/-- R91: the rounding of the machine equals the operational form. -/
def Obligations.RoundMagEqualsTheOperationalForm : Prop :=
  ∀ (c : Cfg) (x : Exact), ValidCfg c → 0 < x.den → 0 < x.toRat →
    roundMag c x = roundMagOperational c x.toRat

/-- R89: a number out of range saturates, and a number that is not 0 never rounds to zero or infinity. -/
def Obligations.RoundingSaturates : Prop :=
  ∀ (c : Cfg) (x : Exact), ValidCfg c → 0 < x.den →
    (maxposRat c ≤ x.toRat → roundBits c x = 2 ^ (c.n - 1) - 1) ∧
    (x.toRat ≤ -maxposRat c → roundBits c x = 2 ^ (c.n - 1) + 1) ∧
    (0 < x.toRat → x.toRat ≤ minposRat c → roundBits c x = 1) ∧
    (x.toRat < 0 → -minposRat c ≤ x.toRat → roundBits c x = 2 ^ c.n - 1) ∧
    (x.toRat ≠ 0 → roundBits c x ≠ 0 ∧ roundBits c x ≠ 2 ^ (c.n - 1) ∧ roundBits c x < 2 ^ c.n)

/-- R88: a representable value rounds to itself. -/
def Obligations.RepresentableValueRoundsToItself : Prop :=
  ∀ (v : PV) (x : Exact) (q : ℚ), v.wellFormed = true → v.val = some q → 0 < x.den → x.toRat = q →
    roundBits v.cfg x = v.bits

/-- R92: where the fraction bits of a pattern are all ones and its exponent field is whole, the next pattern
has the value `2^(E+1)`. -/
def Obligations.CarryReachesTheNextPowerOfTwo : Prop :=
  ∀ (c : Cfg) (k : Int) (e : Nat), ValidCfg c → -((c.n : Int) - 2) ≤ k → k < (c.n : Int) - 2 →
    e < 2 ^ c.es → (budget c k).eb = c.es →
    valmagRat c (packMag c k e (budget c k).fb (2 ^ (budget c k).fb - 1) + 1) =
      (2 : ℚ) ^ (k * (2 : Int) ^ c.es + (e : Int) + 1)

/-- R97, R93, R46: TOEXACT reports the class and, for class FIN, sign, E and significand. -/
def Obligations.ToexactReportsTheExactForm : Prop :=
  ∀ (s : State) (A : PV), Loads s.req.a A →
    ∃ y : AuxWord, RepliesAux .toexact s y ∧
      (A.cls = .zero → y.toNat = 1 * 2 ^ 137) ∧
      (A.cls = .inf → y.toNat = 2 * 2 ^ 137) ∧
      (A.cls = .nan → y.toNat = 3 * 2 ^ 137) ∧
      (∀ q, A.cls = .fin → A.val = some q →
        signRat (y.toNat.testBit 136) * (2 : ℚ) ^ signedOf 72 (slice y.toNat 135 64) *
            ((slice y.toNat 63 0 : ℚ) / 2 ^ 63) = q ∧
        signedOf 72 (slice y.toNat 135 64) = A.fields.k * 2 ^ A.es + (A.fields.e : Int) ∧
        y.toNat.testBit 63 = true ∧ y.toNat.testBit 136 = A.bits.testBit (A.n - 1) ∧
        slice y.toNat 159 137 = 0)

/-- R98: ROUND with a valid configuration, for each class of the EXACT word. -/
def Obligations.RoundAnswers : Prop :=
  ∀ (u : Bool) (cn ces : Nat) (s : State) (c : Cfg) (x : Nat), c = chosenCfg u cn ces s → ValidCfg c →
    x = s.req.x.toNat →
    (slice x 138 137 = 1 → RepliesPV (.round u cn ces) s ⟨0, c.n, c.es, false⟩) ∧
    (slice x 138 137 = 2 → RepliesPV (.round u cn ces) s ⟨2 ^ (c.n - 1), c.n, c.es, false⟩) ∧
    (slice x 138 137 = 3 → RepliesPV (.round u cn ces) s ⟨0, c.n, c.es, true⟩) ∧
    (slice x 138 137 = 0 → x.testBit 63 = true →
      ∃ p, RepliesPV (.round u cn ces) s ⟨p, c.n, c.es, false⟩ ∧
        IsRound c (signRat (x.testBit 136) * (2 : ℚ) ^ signedOf 72 (slice x 135 64) *
          ((slice x 63 0 : ℚ) / 2 ^ 63)) p)

/-- R98: ROUND, in the operand's configuration, of what TOEXACT returned gives back the operand, for every
value that is not NaN. -/
def Obligations.ToexactThenRoundIsTheOperand : Prop :=
  ∀ (s t : State) (A : PV) (y : AuxWord), Loads s.req.a A → A.nan = false → RepliesAux .toexact s y →
    t.req.x = y → RepliesPV (.round false A.n A.es) t A

/-- R99, R96: TO_F64 for each class; a finite value is rounded to binary64. -/
def Obligations.ToF64Answers : Prop :=
  ∀ (s : State) (A : PV), Loads s.req.a A →
    (A.cls = .nan → RepliesAux .toF64 s 0x7FF8000000000000) ∧
    (A.cls = .inf → RepliesAux .toF64 s 0x7FF0000000000000) ∧
    (A.cls = .zero → RepliesAux .toF64 s 0) ∧
    (∀ q, A.cls = .fin → A.val = some q →
      ∃ y : AuxWord, RepliesAux .toF64 s y ∧ y.toNat = roundF64Rat q ∧ y.toNat < 2 ^ 64)

/-- R100, R94, R95: FROM_F64 with a valid configuration, for each class of the binary64 word. -/
def Obligations.FromF64Answers : Prop :=
  ∀ (u : Bool) (cn ces : Nat) (s : State) (c : Cfg) (d : Nat), c = chosenCfg u cn ces s → ValidCfg c →
    d = slice s.req.x.toNat 63 0 →
    (slice d 62 0 = 0 → RepliesPV (.fromF64 u cn ces) s ⟨0, c.n, c.es, false⟩) ∧
    (slice d 62 0 = 2047 * 2 ^ 52 →
      RepliesPV (.fromF64 u cn ces) s ⟨2 ^ (c.n - 1), c.n, c.es, false⟩) ∧
    (2047 * 2 ^ 52 < slice d 62 0 → RepliesPV (.fromF64 u cn ces) s ⟨0, c.n, c.es, true⟩) ∧
    (0 < slice d 62 0 → slice d 62 0 < 2047 * 2 ^ 52 →
      ∃ p, RepliesPV (.fromF64 u cn ces) s ⟨p, c.n, c.es, false⟩ ∧ IsRound c (f64ValRat d) p)

/-! ## Arithmetic -/

/-- R114: NEG returns a NaN unchanged and the two's complement of every other pattern. -/
def Obligations.NegAnswers : Prop :=
  ∀ (s : State) (A : PV), Loads s.req.a A →
    (A.nan = true → RepliesPV .neg s A) ∧
    (A.nan = false → A.bits = 0 ∨ A.bits = 2 ^ (A.n - 1) → RepliesPV .neg s A) ∧
    (A.nan = false → A.bits ≠ 0 → RepliesPV .neg s ⟨2 ^ A.n - A.bits, A.n, A.es, false⟩)

/-- R115: for every finite value the two's complement has the value `-val(x)` and is the pattern that
decoding, flipping the sign and encoding gives. -/
def Obligations.NegationIdentity : Prop :=
  ∀ (v : PV) (q : ℚ), v.wellFormed = true → v.cls = .fin → v.val = some q →
    (PV.mk (negN v.n v.bits) v.n v.es false).val = some (-q) ∧
    (∀ x : Exact, 0 < x.den → x.toRat = -q → roundBits v.cfg x = negN v.n v.bits)

/-- R114, R117, 42_arithmetic.md section 7: negation taken twice is the identity, and a finite value plus its
negation is zero. -/
def Obligations.NegationLaws : Prop :=
  ∀ v : PV, v.wellFormed = true →
    negV (negV v) = v ∧
    (v.cls = .fin → addV v (negV v) false = ⟨0, v.n, v.es, false⟩)

/-- R116: REC for each class; a finite value gives the rounded exact reciprocal. -/
def Obligations.RecAnswers : Prop :=
  ∀ (s : State) (A : PV), Loads s.req.a A →
    (A.cls = .nan → RepliesPV .recip s ⟨0, A.n, A.es, true⟩) ∧
    (A.cls = .zero → RepliesPV .recip s ⟨2 ^ (A.n - 1), A.n, A.es, false⟩) ∧
    (A.cls = .inf → RepliesPV .recip s ⟨0, A.n, A.es, false⟩) ∧
    (∀ x, A.cls = .fin → A.val = some x →
      ∃ p, RepliesPV .recip s ⟨p, A.n, A.es, false⟩ ∧ IsRound A.cfg (1 / x) p)

/-- R117: ADD on operands of one configuration, for every pair of classes. -/
def Obligations.AddAnswers : Prop :=
  ∀ (s : State) (A B : PV), Loads s.req.a A → Loads s.req.b B → A.cfg = B.cfg →
    (A.nan = true ∨ B.nan = true → RepliesPV .add s ⟨0, A.n, A.es, true⟩) ∧
    (A.nan = false → B.nan = false → IsInfinity A ∨ IsInfinity B →
      RepliesPV .add s ⟨2 ^ (A.n - 1), A.n, A.es, false⟩) ∧
    (∀ x y, A.val = some x → B.val = some y →
      ∃ p, RepliesPV .add s ⟨p, A.n, A.es, false⟩ ∧ IsRound A.cfg (x + y) p)

/-- R118: SUB on operands of one configuration, for every pair of classes. -/
def Obligations.SubAnswers : Prop :=
  ∀ (s : State) (A B : PV), Loads s.req.a A → Loads s.req.b B → A.cfg = B.cfg →
    (A.nan = true ∨ B.nan = true → RepliesPV .sub s ⟨0, A.n, A.es, true⟩) ∧
    (IsInfinity A → IsInfinity B → RepliesPV .sub s ⟨0, A.n, A.es, true⟩) ∧
    (∀ y, IsInfinity A → B.val = some y → RepliesPV .sub s ⟨2 ^ (A.n - 1), A.n, A.es, false⟩) ∧
    (∀ x, A.val = some x → IsInfinity B → RepliesPV .sub s ⟨2 ^ (A.n - 1), A.n, A.es, false⟩) ∧
    (∀ x y, A.val = some x → B.val = some y →
      ∃ p, RepliesPV .sub s ⟨p, A.n, A.es, false⟩ ∧ IsRound A.cfg (x - y) p)

/-- R119: MUL on operands of one configuration, for every pair of classes. -/
def Obligations.MulAnswers : Prop :=
  ∀ (s : State) (A B : PV), Loads s.req.a A → Loads s.req.b B → A.cfg = B.cfg →
    (A.nan = true ∨ B.nan = true → RepliesPV .mul s ⟨0, A.n, A.es, true⟩) ∧
    ((IsInfinity A ∧ B.val = some 0) ∨ (A.val = some 0 ∧ IsInfinity B) →
      RepliesPV .mul s ⟨0, A.n, A.es, true⟩) ∧
    (IsInfinity A → IsInfinity B → RepliesPV .mul s ⟨2 ^ (A.n - 1), A.n, A.es, false⟩) ∧
    (∀ y, IsInfinity A → B.val = some y → y ≠ 0 →
      RepliesPV .mul s ⟨2 ^ (A.n - 1), A.n, A.es, false⟩) ∧
    (∀ x, A.val = some x → x ≠ 0 → IsInfinity B →
      RepliesPV .mul s ⟨2 ^ (A.n - 1), A.n, A.es, false⟩) ∧
    (∀ x y, A.val = some x → B.val = some y →
      ∃ p, RepliesPV .mul s ⟨p, A.n, A.es, false⟩ ∧ IsRound A.cfg (x * y) p)

/-- R120: DIV on operands of one configuration, cell by cell of its table; finite by finite rounds twice, the
reciprocal first. -/
def Obligations.DivAnswers : Prop :=
  ∀ (s : State) (A B : PV), Loads s.req.a A → Loads s.req.b B → A.cfg = B.cfg →
    (A.nan = true ∨ B.nan = true → RepliesPV .div s ⟨0, A.n, A.es, true⟩) ∧
    (A.val = some 0 → B.val = some 0 → RepliesPV .div s ⟨0, A.n, A.es, true⟩) ∧
    (IsInfinity A → IsInfinity B → RepliesPV .div s ⟨0, A.n, A.es, true⟩) ∧
    (∀ x, A.val = some x → IsInfinity B → RepliesPV .div s ⟨0, A.n, A.es, false⟩) ∧
    (IsInfinity A → ∀ y, B.val = some y → RepliesPV .div s ⟨2 ^ (A.n - 1), A.n, A.es, false⟩) ∧
    (∀ x, A.val = some x → x ≠ 0 → B.val = some 0 →
      RepliesPV .div s ⟨2 ^ (A.n - 1), A.n, A.es, false⟩) ∧
    (∀ x y, A.val = some x → B.val = some y → y ≠ 0 →
      ∃ r z p, IsRound A.cfg (1 / y) r ∧ (PV.mk r A.n A.es false).val = some z ∧
        RepliesPV .div s ⟨p, A.n, A.es, false⟩ ∧ IsRound A.cfg (x * z) p)

/-- R118: SUB is ADD of the negation for every pair of operands except two infinities, where SUB gives NaN and
the composition gives infinity. -/
def Obligations.SubtractIsAddOfNegateButForTwoInfinities : Prop :=
  ∀ A B : PV, A.wellFormed = true → B.wellFormed = true → A.cfg = B.cfg →
    (¬(IsInfinity A ∧ IsInfinity B) → addV A B true = addV A (negV B) false) ∧
    (IsInfinity A → IsInfinity B → addV A B true = ⟨0, A.n, A.es, true⟩ ∧
      addV A (negV B) false = ⟨2 ^ (A.n - 1), A.n, A.es, false⟩)

/-- R117, R119: ADD and MUL answer the same with their operands exchanged, errors included. -/
def Obligations.AddAndMulCommute : Prop :=
  ∀ (s : State) (rsp : Response),
    (Replies .add s rsp → Replies .add { s with req := s.req.swap } rsp) ∧
    (Replies .mul s rsp → Replies .mul { s with req := s.req.swap } rsp)

/-! ## Comparison and predicates -/

/-- R130, R132 to R137: on operands that are not NaN, of one configuration or of two, the comparisons answer
the order of their keys. -/
def Obligations.ComparisonsFollowTheKeys : Prop :=
  ∀ (s : State) (A B : PV) (k l : WithBot ℚ), Loads s.req.a A → Loads s.req.b B →
    A.keyRat = some k → B.keyRat = some l →
    (∃ f, RepliesFlag .eq s f ∧ (f = true ↔ k = l)) ∧
    (∃ f, RepliesFlag .gt s f ∧ (f = true ↔ l < k)) ∧
    (∃ f, RepliesFlag .ge s f ∧ (f = true ↔ l ≤ k)) ∧
    (∃ f, RepliesFlag .lt s f ∧ (f = true ↔ k < l)) ∧
    (∃ f, RepliesFlag .le s f ∧ (f = true ↔ k ≤ l))

/-- R131: every comparison with a NaN operand answers 0, itself included, and is no error. -/
def Obligations.ComparisonsWithNanAreFalse : Prop :=
  ∀ (s : State) (A B : PV), Loads s.req.a A → Loads s.req.b B → A.nan = true ∨ B.nan = true →
    RepliesFlag .eq s false ∧ RepliesFlag .gt s false ∧ RepliesFlag .ge s false ∧
    RepliesFlag .lt s false ∧ RepliesFlag .le s false

/-- 43_compare_predicates.md section 3: exactly one of LT, EQ, GT is 1 for operands that are not NaN; GE is GT
or EQ and LE is LT or EQ; and GT and GE are LT and LE with the operands exchanged, on every operand. -/
def Obligations.ComparisonLaws : Prop :=
  ∀ s : State,
    (∀ A B, Loads s.req.a A → Loads s.req.b B →
      ∃ e g l ge le, RepliesFlag .eq s e ∧ RepliesFlag .gt s g ∧ RepliesFlag .lt s l ∧
        RepliesFlag .ge s ge ∧ RepliesFlag .le s le ∧ ge = (g || e) ∧ le = (l || e) ∧
        (A.nan = false → B.nan = false →
          (e, g, l) ∈ [(true, false, false), (false, true, false), (false, false, true)])) ∧
    (∀ rsp, Replies .gt s rsp → Replies .lt { s with req := s.req.swap } rsp) ∧
    (∀ rsp, Replies .ge s rsp → Replies .le { s with req := s.req.swap } rsp)

/-- R138: within one configuration the order of values is the order of the patterns read as signed integers,
infinity included. -/
def Obligations.SignedIntegerShortcut : Prop :=
  ∀ (A B : PV) (k l : WithBot ℚ), A.wellFormed = true → B.wellFormed = true → A.cfg = B.cfg →
    A.keyRat = some k → B.keyRat = some l →
    (k < l ↔ signedOf A.n A.bits < signedOf B.n B.bits) ∧ (k = l ↔ A.bits = B.bits)

/-- R140 to R144: the five predicates, on every operand that loads. -/
def Obligations.PredicatesAnswer : Prop :=
  ∀ (s : State) (A : PV), Loads s.req.a A →
    (∃ f, RepliesFlag .isZero s f ∧ (f = true ↔ A.bits = 0 ∧ A.nan = false)) ∧
    (∃ f, RepliesFlag .isOne s f ∧ (f = true ↔ A.bits = 2 ^ (A.n - 2) ∧ A.nan = false)) ∧
    (∃ f, RepliesFlag .isInf s f ∧ (f = true ↔ A.bits = 2 ^ (A.n - 1) ∧ A.nan = false)) ∧
    RepliesFlag .isNeg s (A.bits.testBit (A.n - 1)) ∧
    RepliesFlag .isNan s A.nan

/-! ## Configuration store and construction -/

/-- R151: CONSTRUCT with a valid configuration answers zero in it. -/
def Obligations.ConstructAnswersZero : Prop :=
  ∀ (u : Bool) (cn ces : Nat) (s : State), ValidCfg (chosenCfg u cn ces s) →
    ∃ r : PVWord, Replies (.construct u cn ces) s ⟨.ok, r, false, 0⟩ ∧
      PV.ofWord r = ⟨0, (chosenCfg u cn ces s).n, (chosenCfg u cn ces s).es, false⟩

/-- R152: SETDEF writes a valid pair whole and answers err = 0 and zeros; an invalid pair changes nothing but
the response. -/
def Obligations.SetdefWritesValidPairsOnly : Prop :=
  ∀ (cn ces : Nat) (s : State),
    (ValidCfg ⟨cn, ces⟩ → ∃ t, exec (.setdef cn ces) s = .next t ∧
      t.defcfgN.toNat = cn ∧ t.defcfgEs.toNat = ces ∧
      t.response = some ⟨.ok, 0, false, 0⟩ ∧ t.req = s.req ∧ t.pending = s.pending) ∧
    (¬ValidCfg ⟨cn, ces⟩ → RepliesError (.setdef cn ces) s .invalidConfiguration)

/-- R153, R49: GETDEF answers DEFCFG at its places in the CFG word. -/
def Obligations.GetdefAnswersTheDefault : Prop :=
  ∀ s : State, ∃ y : AuxWord, RepliesAux .getdef s y ∧
    slice y.toNat 6 0 = s.defcfgN.toNat ∧ slice y.toNat 12 7 = s.defcfgEs.toNat ∧
    slice y.toNat 159 13 = 0

/-- R36, R183: a successful SETDEF is seen by the very next request. -/
def Obligations.SetdefIsSeenByTheNextRequest : Prop :=
  ∀ (s : State) (q q' : Request) (rest : List Request) (cn ces : Nat),
    s.pending = q :: q' :: rest → decode q.cmd = some (.setdef cn ces) → ValidCfg ⟨cn, ces⟩ →
    ∃ t, step s = .next t ∧
      (decode q'.cmd = some .getdef → ∃ v y, step t = .next v ∧
        v.response = some ⟨.ok, 0, false, y⟩ ∧ y.toNat = cn + ces * 2 ^ 7) ∧
      (∀ m m', decode q'.cmd = some (.construct true m m') → ∃ v r, step t = .next v ∧
        v.response = some ⟨.ok, r, false, 0⟩ ∧ PV.ofWord r = ⟨0, cn, ces, false⟩)

/-- R51, R42: with usedef = 1 an operation answers as with DEFCFG written out, whatever cn and ces hold. -/
def Obligations.UsedefReadsTheDefault : Prop :=
  ∀ (s : State) (cn ces : Nat) (rsp : Response),
    (Replies (.pack true cn ces) s rsp ↔
      Replies (.pack false s.defcfgN.toNat s.defcfgEs.toNat) s rsp) ∧
    (Replies (.round true cn ces) s rsp ↔
      Replies (.round false s.defcfgN.toNat s.defcfgEs.toNat) s rsp) ∧
    (Replies (.fromF64 true cn ces) s rsp ↔
      Replies (.fromF64 false s.defcfgN.toNat s.defcfgEs.toNat) s rsp) ∧
    (Replies (.construct true cn ces) s rsp ↔
      Replies (.construct false s.defcfgN.toNat s.defcfgEs.toNat) s rsp)

/-- R73: every value the PAU writes to r is well-formed. -/
def Obligations.EveryWrittenValueIsWellFormed : Prop :=
  ∀ (i : Instr) (s t : State) (rsp : Response), i.writesR = true → exec i s = .next t →
    t.response = some rsp → rsp.err = .ok → (PV.ofWord rsp.r).wellFormed = true
end

