-- ==== Sys2Proof/Laws/Bits.lean ====
section
/-!
SUPPORT. The bit-vector notation of 00_scope.md R11 and the word layouts of 30_encoding.md R43 to R49:
bounds of slices, the two's complement, and words read back as they were written.
-/

namespace Sys2Proof.Machine

theorem slice_lt (v hi lo : Nat) : slice v hi lo < 2 ^ (hi + 1 - lo) :=
  Nat.mod_lt _ (Nat.two_pow_pos _)

theorem negN_lt (n v : Nat) : negN n v < 2 ^ n := Nat.mod_lt _ (Nat.two_pow_pos n)

@[simp] theorem negN_zero (n : Nat) : negN n 0 = 0 := by simp [negN]

/-- R15: away from 0 the two's complement is `2^n - v`. -/
theorem negN_of_pos {n v : Nat} (h : 0 < v) (hv : v < 2 ^ n) : negN n v = 2 ^ n - v :=
  Nat.mod_eq_of_lt (by omega)

/-- R15: the two's complement taken twice. -/
theorem negN_negN {n v : Nat} (hv : v < 2 ^ n) : negN n (negN n v) = v := by
  rcases Nat.eq_zero_or_pos v with rfl | h
  · simp
  · rw [negN_of_pos h hv, negN_of_pos (by omega) (by omega)]
    omega

theorem bitNat_lt (b : Bool) : bitNat b < 2 := by cases b <;> decide

@[simp] theorem bitNat_beq_one (b : Bool) : (bitNat b == 1) = b := by cases b <;> rfl

theorem PV.ofWord_bits_lt (w : PVWord) : (PV.ofWord w).bits < 2 ^ 64 := slice_lt _ 63 0

theorem PV.ofWord_n_lt (w : PVWord) : (PV.ofWord w).n < 2 ^ 7 := slice_lt _ 70 64

theorem PV.ofWord_es_lt (w : PVWord) : (PV.ofWord w).es < 2 ^ 6 := slice_lt _ 76 71

/-- R43: a PV word read back gives the value that was written, where its fields fit. -/
theorem PV.ofWord_toWord (v : PV) (hb : v.bits < 2 ^ 64) (hn : v.n < 2 ^ 7) (he : v.es < 2 ^ 6) :
    PV.ofWord v.toWord = v := by
  obtain ⟨bits, n, es, nan⟩ := v
  have hnan := bitNat_lt nan
  simp only at hb hn he
  have hw : (bits + n * 2 ^ 64 + es * 2 ^ 71 + bitNat nan * 2 ^ 77) % 2 ^ 78 =
      bits + n * 2 ^ 64 + es * 2 ^ 71 + bitNat nan * 2 ^ 77 := Nat.mod_eq_of_lt (by omega)
  have h1 : slice (bits + n * 2 ^ 64 + es * 2 ^ 71 + bitNat nan * 2 ^ 77) 63 0 = bits := by
    simp only [slice]; omega
  have h2 : slice (bits + n * 2 ^ 64 + es * 2 ^ 71 + bitNat nan * 2 ^ 77) 70 64 = n := by
    simp only [slice]; omega
  have h3 : slice (bits + n * 2 ^ 64 + es * 2 ^ 71 + bitNat nan * 2 ^ 77) 76 71 = es := by
    simp only [slice]; omega
  have h4 : slice (bits + n * 2 ^ 64 + es * 2 ^ 71 + bitNat nan * 2 ^ 77) 77 77 = bitNat nan := by
    simp only [slice]; omega
  simp only [PV.ofWord, PV.toWord, BitVec.toNat_ofNat, hw, h1, h2, h3, h4, bitNat_beq_one]

/-- R52 step 3, R43: a value that is well-formed loads as itself. -/
theorem PV.normalise_of_lt {v : PV} (h : v.bits < 2 ^ v.n) : v.normalise = v := by
  simp [PV.normalise, Nat.mod_eq_of_lt h]

@[simp] theorem PV.normalise_cfg (v : PV) : v.normalise.cfg = v.cfg := rfl

@[simp] theorem PV.normalise_nan (v : PV) : v.normalise.nan = v.nan := rfl

theorem PV.normalise_bits_lt (v : PV) : v.normalise.bits < 2 ^ v.normalise.n :=
  Nat.mod_lt _ (Nat.two_pow_pos _)

end Sys2Proof.Machine
end

