-- ==== Sys2Proof/Laws/Exact.lean ====
section
/-!
SUPPORT. The exact arithmetic of Sys2Proof/Machine/Exact.lean decides signs and comparisons of the rationals
it stands for, whatever the exponents.
-/

namespace Sys2Proof.Machine

@[simp] theorem sumRat_nil : sumRat [] = 0 := rfl

@[simp] theorem sumRat_cons (t : Term) (ts : List Term) : sumRat (t :: ts) = t.toRat + sumRat ts := by
  simp [sumRat]

@[simp] theorem sumRat_append (ts us : List Term) : sumRat (ts ++ us) = sumRat ts + sumRat us := by
  simp [sumRat]

@[simp] theorem Term.toRat_neg (t : Term) : t.neg.toRat = -t.toRat := by
  simp [Term.toRat, Term.neg]

@[simp] theorem Term.toRat_scale (c : Int) (t : Term) : (t.scale c).toRat = c * t.toRat := by
  simp [Term.toRat, Term.scale, mul_assoc]

@[simp] theorem Term.toRat_mul (t u : Term) : (t.mul u).toRat = t.toRat * u.toRat := by
  simp only [Term.toRat, Term.mul, Int.cast_mul, zpow_add₀ (two_ne_zero' ℚ)]
  ring

@[simp] theorem sumRat_map_neg (ts : List Term) : sumRat (ts.map Term.neg) = -sumRat ts := by
  induction ts with
  | nil => simp
  | cons t ts ih => simp [ih]; ring

@[simp] theorem sumRat_map_scale (c : Int) (ts : List Term) :
    sumRat (ts.map (Term.scale c)) = c * sumRat ts := by
  induction ts with
  | nil => simp
  | cons t ts ih => simp [ih]; ring

@[simp] theorem Exact.toRat_ofTerm (t : Term) : (Exact.ofTerm t).toRat = t.toRat := by
  simp [Exact.toRat, Exact.ofTerm]

@[simp] theorem Exact.toRat_ofSum (ts : List Term) : (Exact.ofSum ts).toRat = sumRat ts := by
  simp [Exact.toRat, Exact.ofSum]

@[simp] theorem Exact.toRat_neg (x : Exact) : x.neg.toRat = -x.toRat := by
  simp [Exact.toRat, Exact.neg, neg_div]

@[simp] theorem Exact.toRat_double (x : Exact) : x.double.toRat = 2 * x.toRat := by
  simp [Exact.toRat, Exact.double, mul_div_assoc]

@[simp] theorem Exact.den_neg (x : Exact) : x.neg.den = x.den := rfl

@[simp] theorem Exact.den_double (x : Exact) : x.double.den = x.den := rfl

/-- R116: the reciprocal of a term that is not 0. -/
theorem Exact.toRat_recip (t : Term) (h : t.coef ≠ 0) : (Exact.recip t).toRat = 1 / t.toRat := by
  have hc : (t.coef : ℚ) ≠ 0 := Int.cast_ne_zero.mpr h
  have habs : ((t.coef.natAbs : Nat) : ℚ) = |(t.coef : ℚ)| := by
    rw [← Int.cast_abs, Int.abs_eq_natAbs]; simp
  simp only [Exact.toRat, Exact.recip, sumRat_cons, sumRat_nil, add_zero, Term.toRat, zpow_neg, habs]
  rcases lt_or_gt_of_ne h with hn | hp
  · have hq : (t.coef : ℚ) < 0 := by exact_mod_cast hn
    rw [Int.sign_eq_neg_one_of_neg hn, abs_of_neg hq]
    field_simp
    norm_num
  · have hq : (0 : ℚ) < (t.coef : ℚ) := by exact_mod_cast hp
    rw [Int.sign_eq_one_of_pos hp, abs_of_pos hq]
    field_simp
    norm_num

theorem sumRat_insertTerm (t : Term) (ts : List Term) :
    sumRat (insertTerm t ts) = t.toRat + sumRat ts := by
  induction ts with
  | nil => simp [insertTerm]
  | cons u us ih =>
    simp only [insertTerm]
    split
    · simp
    · simp [ih]; ring

@[simp] theorem sumRat_sortTerms (ts : List Term) : sumRat (sortTerms ts) = sumRat ts := by
  induction ts with
  | nil => rfl
  | cons t ts ih =>
    show sumRat (insertTerm t (sortTerms ts)) = _
    rw [sumRat_insertTerm, ih, sumRat_cons]

/-- Exponents that fall from e down. -/
def FallsFrom (e : Int) : List Term → Prop
  | [] => True
  | t :: ts => t.exp ≤ e ∧ FallsFrom t.exp ts

theorem FallsFrom.mono {e e' : Int} {ts : List Term} (h : FallsFrom e ts) (he : e ≤ e') :
    FallsFrom e' ts := by
  cases ts with
  | nil => trivial
  | cons t ts => exact ⟨h.1.trans he, h.2⟩

theorem FallsFrom.insertTerm {e : Int} {t : Term} {ts : List Term} (h : FallsFrom e ts)
    (ht : t.exp ≤ e) : FallsFrom e (insertTerm t ts) := by
  induction ts generalizing e with
  | nil => exact ⟨ht, trivial⟩
  | cons u us ih =>
    simp only [Machine.insertTerm]
    split
    · exact ⟨ht, ‹_›, h.2⟩
    · exact ⟨h.1, ih h.2 (by omega)⟩

/-- A sorted list falls from some exponent. -/
theorem exists_fallsFrom_sortTerms (ts : List Term) : ∃ e, FallsFrom e (sortTerms ts) := by
  induction ts with
  | nil => exact ⟨0, trivial⟩
  | cons t ts ih =>
    obtain ⟨e, he⟩ := ih
    exact ⟨max e t.exp, (he.mono (le_max_left _ _)).insertTerm (le_max_right _ _)⟩

/-- The terms below exponent e together are at most their coefficients' magnitudes times `2^e`. -/
theorem abs_sumRat_le {e : Int} {ts : List Term} (h : FallsFrom e ts) :
    |sumRat ts| ≤ (coefTotal ts : ℚ) * (2 : ℚ) ^ e := by
  induction ts generalizing e with
  | nil => simp [coefTotal]
  | cons t ts ih =>
    have hpow : (2 : ℚ) ^ t.exp ≤ (2 : ℚ) ^ e := zpow_le_zpow_right₀ (by norm_num) h.1
    have hts := ih (h.2.mono h.1)
    have habs : |(t.coef : ℚ)| = ((t.coef.natAbs : Nat) : ℚ) := by
      rw [← Int.cast_abs, Int.abs_eq_natAbs]; simp
    have ht : |t.toRat| ≤ ((t.coef.natAbs : Nat) : ℚ) * (2 : ℚ) ^ e := by
      rw [Term.toRat, abs_mul, habs, abs_of_pos (zpow_pos (by norm_num : (0 : ℚ) < 2) _)]
      exact mul_le_mul_of_nonneg_left hpow (by positivity)
    calc |sumRat (t :: ts)| ≤ |t.toRat| + |sumRat ts| := by rw [sumRat_cons]; exact abs_add_le _ _
      _ ≤ _ := add_le_add ht hts
      _ = (coefTotal (t :: ts) : ℚ) * (2 : ℚ) ^ e := by
        simp [coefTotal]; ring

/-- A sign in {-1, 0, 1} of a rational. -/
def IsSign (x : ℚ) (s : Int) : Prop := (x < 0 → s = -1) ∧ (x = 0 → s = 0) ∧ (0 < x → s = 1)

theorem IsSign.scaled (c : Int) {p : ℚ} (hp : 0 < p) : IsSign ((c : ℚ) * p) c.sign := by
  refine ⟨fun h => ?_, fun h => ?_, fun h => ?_⟩
  · exact Int.sign_eq_neg_one_of_neg (by exact_mod_cast (neg_iff_pos_of_mul_neg h).mpr hp)
  · have : (c : ℚ) = 0 := by rcases mul_eq_zero.mp h with h | h; exacts [h, absurd h hp.ne']
    simp [Int.cast_eq_zero.mp this]
  · exact Int.sign_eq_one_of_pos (by exact_mod_cast (pos_iff_pos_of_mul_pos h).mpr hp)

/-- `signFrom` gives the sign of what it stands for. -/
theorem isSign_signFrom {acc e : Int} {ts : List Term} (h : FallsFrom e ts) :
    IsSign ((acc : ℚ) * (2 : ℚ) ^ e + sumRat ts) (signFrom acc e ts) := by
  induction ts generalizing acc e with
  | nil => simpa [signFrom] using IsSign.scaled acc (zpow_pos (by norm_num : (0 : ℚ) < 2) e)
  | cons t ts ih =>
    simp only [signFrom]
    split
    · next hacc =>
      subst hacc
      simpa [Term.toRat] using ih (acc := t.coef) h.2
    · next hacc =>
      split
      · next hgap =>
        -- the rest is smaller than one unit of acc
        have hlt : coefTotal (t :: ts) < 2 ^ (e - t.exp).toNat :=
          lt_of_lt_of_le Nat.lt_log2_self (Nat.pow_le_pow_right (by norm_num) hgap)
        have hrest : |sumRat (t :: ts)| < (2 : ℚ) ^ e := by
          have hfall : FallsFrom t.exp (t :: ts) := ⟨le_rfl, h.2⟩
          refine (abs_sumRat_le hfall).trans_lt ?_
          have he : (2 : ℚ) ^ e = (2 : ℚ) ^ (e - t.exp).toNat * (2 : ℚ) ^ t.exp := by
            rw [← zpow_natCast, ← zpow_add₀ (by norm_num), Int.toNat_of_nonneg (by omega)]
            congr 1; omega
          rw [he]
          exact mul_lt_mul_of_pos_right (by exact_mod_cast hlt) (zpow_pos (by norm_num) _)
        have hpos : (0 : ℚ) < (2 : ℚ) ^ e := zpow_pos (by norm_num) _
        obtain ⟨hlo, hhi⟩ := abs_lt.mp hrest
        rcases lt_or_gt_of_ne hacc with hn | hp
        · have : (acc : ℚ) ≤ -1 := by exact_mod_cast (by omega : acc ≤ -1)
          have hsum : (acc : ℚ) * (2 : ℚ) ^ e + sumRat (t :: ts) < 0 := by nlinarith
          rw [Int.sign_eq_neg_one_of_neg hn]
          exact ⟨fun _ => rfl, fun h0 => absurd h0 hsum.ne, fun h0 => absurd h0 hsum.le.not_gt⟩
        · have : (1 : ℚ) ≤ (acc : ℚ) := by exact_mod_cast (by omega : 1 ≤ acc)
          have hsum : 0 < (acc : ℚ) * (2 : ℚ) ^ e + sumRat (t :: ts) := by nlinarith
          rw [Int.sign_eq_one_of_pos hp]
          exact ⟨fun h0 => absurd h0 hsum.le.not_gt, fun h0 => absurd h0 hsum.ne', fun _ => rfl⟩
      · have he : (2 : ℚ) ^ e = (2 : ℚ) ^ (e - t.exp).toNat * (2 : ℚ) ^ t.exp := by
          have := h.1
          rw [← zpow_natCast, ← zpow_add₀ (by norm_num), Int.toNat_of_nonneg (by omega)]
          congr 1; omega
        have hsum : (acc : ℚ) * (2 : ℚ) ^ e + sumRat (t :: ts) =
            ((acc * ((2 ^ (e - t.exp).toNat : Nat) : Int) + t.coef : Int) : ℚ) * (2 : ℚ) ^ t.exp +
              sumRat ts := by
          rw [he, sumRat_cons, Term.toRat]; push_cast; ring
        rw [hsum]
        exact ih h.2

/-- `sumSign` gives the sign of a sum of terms. -/
theorem isSign_sumSign (ts : List Term) : IsSign (sumRat ts) (sumSign ts) := by
  obtain ⟨e, he⟩ := exists_fallsFrom_sortTerms ts
  cases hs : sortTerms ts with
  | nil =>
    have h0 : sumRat ts = 0 := by rw [← sumRat_sortTerms, hs]; rfl
    simp [sumSign, hs, signFrom, h0, IsSign]
  | cons t us =>
    have hsum : sumRat ts = (t.coef : ℚ) * (2 : ℚ) ^ t.exp + sumRat us := by
      rw [← sumRat_sortTerms, hs, sumRat_cons, Term.toRat]
    rw [hs] at he
    rw [hsum]
    have : sumSign ts = signFrom t.coef t.exp us := by simp [sumSign, hs, signFrom]
    rw [this]
    exact isSign_signFrom he.2

theorem IsSign.neg_iff {x : ℚ} {s : Int} (h : IsSign x s) : s < 0 ↔ x < 0 := by
  rcases lt_trichotomy x 0 with hx | hx | hx
  · simp [h.1 hx, hx]
  · simp [h.2.1 hx, hx]
  · simp [h.2.2 hx, hx.le]

theorem IsSign.pos_iff {x : ℚ} {s : Int} (h : IsSign x s) : 0 < s ↔ 0 < x := by
  rcases lt_trichotomy x 0 with hx | hx | hx
  · simp [h.1 hx, hx.le]
  · simp [h.2.1 hx, hx]
  · simp [h.2.2 hx, hx]

theorem IsSign.zero_iff {x : ℚ} {s : Int} (h : IsSign x s) : s = 0 ↔ x = 0 := by
  rcases lt_trichotomy x 0 with hx | hx | hx
  · simp [h.1 hx, hx.ne]
  · simp [h.2.1 hx, hx]
  · simp [h.2.2 hx, hx.ne']

/-- The sign of an exact number is the sign of its rational. -/
theorem Exact.isSign_sign (x : Exact) (h : 0 < x.den) : IsSign x.toRat x.sign := by
  have hd : (0 : ℚ) < (x.den : ℚ) := by exact_mod_cast h
  have hs := isSign_sumSign x.num
  refine ⟨fun h0 => hs.1 ?_, fun h0 => hs.2.1 ?_, fun h0 => hs.2.2 ?_⟩
  · exact (div_neg_iff.mp h0).resolve_left (fun h => absurd h.2 hd.le.not_gt) |>.1
  · exact (div_eq_zero_iff.mp h0).resolve_right hd.ne'
  · exact (div_pos_iff_of_pos_right hd).mp h0

/-- A comparison of an exact number with a sum is the sign of their difference. -/
theorem Exact.isSign_cmp (x : Exact) (ts : List Term) (h : 0 < x.den) :
    IsSign (x.toRat - sumRat ts) (x.cmp ts) := by
  have hd : (0 : ℚ) < (x.den : ℚ) := by exact_mod_cast h
  have hs := isSign_sumSign (x.num ++ ts.map (Term.scale (-(x.den : Int))))
  have hval : sumRat (x.num ++ ts.map (Term.scale (-(x.den : Int)))) =
      (x.den : ℚ) * (x.toRat - sumRat ts) := by
    rw [sumRat_append, sumRat_map_scale, Exact.toRat]
    push_cast
    field_simp
    ring
  rw [hval] at hs
  refine ⟨fun h0 => hs.1 (mul_neg_of_pos_of_neg hd h0), fun h0 => hs.2.1 (by rw [h0, mul_zero]),
    fun h0 => hs.2.2 (mul_pos hd h0)⟩

theorem Exact.cmp_nonneg_iff (x : Exact) (ts : List Term) (h : 0 < x.den) :
    0 ≤ x.cmp ts ↔ sumRat ts ≤ x.toRat := by
  rw [← not_lt, (x.isSign_cmp ts h).neg_iff, not_lt, sub_nonneg]

theorem Exact.cmp_nonpos_iff (x : Exact) (ts : List Term) (h : 0 < x.den) :
    x.cmp ts ≤ 0 ↔ x.toRat ≤ sumRat ts := by
  rw [← not_lt, (x.isSign_cmp ts h).pos_iff, not_lt, sub_nonpos]

/-- R80, R81: the term of fields is their value. -/
theorem Fields.toRat_term (es : Nat) (F : Fields) : (F.term es).toRat = F.val es := by
  have hs : (signed F.sign (2 ^ F.fb + F.f) : ℚ) = signRat F.sign * ((2 : ℚ) ^ F.fb + (F.f : ℚ)) := by
    cases F.sign <;> simp [signed, signRat]
  have hp : (2 : ℚ) ^ (F.exponent es - (F.fb : Int)) =
      (2 : ℚ) ^ (F.k * (2 : Int) ^ es + (F.e : Int)) / (2 : ℚ) ^ F.fb := by
    rw [zpow_sub₀ (by norm_num), zpow_natCast]
    simp [Fields.exponent]
  rw [Term.toRat, Fields.term, hs, hp, Fields.val]
  field_simp

theorem valmag_toRat (c : Cfg) (m : Nat) : (valmag c m).toRat = valmagRat c m :=
  Fields.toRat_term _ _

theorem maxpos_toRat (c : Cfg) : (maxpos c).toRat = maxposRat c := by
  simp [Term.toRat, maxpos, maxposRat, emax]

theorem minpos_toRat (c : Cfg) : (minpos c).toRat = minposRat c := by
  simp [Term.toRat, minpos, minposRat, emax]

end Sys2Proof.Machine
end

