-- ==== Sys2Proof/Laws/State.lean ====
section
/-!
SUPPORT. One lemma per field per update of the state, and what each shared state operation can do.
-/

namespace Sys2Proof.Machine

section Respond
variable (rsp : Response) (s : State)

@[simp] theorem State.respond_defcfgN : (s.respond rsp).defcfgN = s.defcfgN := rfl
@[simp] theorem State.respond_defcfgEs : (s.respond rsp).defcfgEs = s.defcfgEs := rfl
@[simp] theorem State.respond_defcfg : (s.respond rsp).defcfg = s.defcfg := rfl
@[simp] theorem State.respond_req : (s.respond rsp).req = s.req := rfl
@[simp] theorem State.respond_pending : (s.respond rsp).pending = s.pending := rfl
@[simp] theorem State.respond_response : (s.respond rsp).response = some rsp := rfl

end Respond

section Raise
variable (e : ErrCode) (s : State)

@[simp] theorem State.raise_defcfgN : (s.raise e).defcfgN = s.defcfgN := rfl
@[simp] theorem State.raise_defcfgEs : (s.raise e).defcfgEs = s.defcfgEs := rfl
@[simp] theorem State.raise_defcfg : (s.raise e).defcfg = s.defcfg := rfl
@[simp] theorem State.raise_req : (s.raise e).req = s.req := rfl
@[simp] theorem State.raise_pending : (s.raise e).pending = s.pending := rfl
@[simp] theorem State.raise_response : (s.raise e).response = some (Response.ofError e) := rfl

end Raise

section Accept
variable (q : Request) (rest : List Request) (s : State)

@[simp] theorem State.accept_defcfgN : (s.accept q rest).defcfgN = s.defcfgN := rfl
@[simp] theorem State.accept_defcfgEs : (s.accept q rest).defcfgEs = s.defcfgEs := rfl
@[simp] theorem State.accept_defcfg : (s.accept q rest).defcfg = s.defcfg := rfl
@[simp] theorem State.accept_req : (s.accept q rest).req = q := rfl
@[simp] theorem State.accept_pending : (s.accept q rest).pending = rest := rfl
@[simp] theorem State.accept_response : (s.accept q rest).response = s.response := rfl

end Accept

section Present
variable (q : Request) (s : State)

@[simp] theorem State.present_defcfgN : (s.present q).defcfgN = s.defcfgN := rfl
@[simp] theorem State.present_defcfgEs : (s.present q).defcfgEs = s.defcfgEs := rfl
@[simp] theorem State.present_req : (s.present q).req = s.req := rfl
@[simp] theorem State.present_pending : (s.present q).pending = s.pending ++ [q] := rfl
@[simp] theorem State.present_response : (s.present q).response = s.response := rfl

end Present

section SetDefcfg
variable (c : Cfg) (s : State)

@[simp] theorem State.setDefcfg_defcfgN : (s.setDefcfg c).defcfgN = BitVec.ofNat 7 c.n := rfl
@[simp] theorem State.setDefcfg_defcfgEs : (s.setDefcfg c).defcfgEs = BitVec.ofNat 6 c.es := rfl
@[simp] theorem State.setDefcfg_req : (s.setDefcfg c).req = s.req := rfl
@[simp] theorem State.setDefcfg_pending : (s.setDefcfg c).pending = s.pending := rfl
@[simp] theorem State.setDefcfg_response : (s.setDefcfg c).response = s.response := rfl

/-- R9, as propositions. -/
theorem Cfg.valid_iff : c.valid = true ↔ 2 ≤ c.n ∧ c.n ≤ 64 ∧ c.es ≤ c.n - 2 := by
  simp only [Cfg.valid, Bool.and_eq_true, decide_eq_true_eq, and_assoc]
  rfl

/-- R22: DEFCFG holds every valid configuration unchanged. -/
theorem State.defcfg_setDefcfg (h : c.valid = true) : (s.setDefcfg c).defcfg = c := by
  obtain ⟨h2, h64, hes⟩ := c.valid_iff.mp h
  have hn : c.n % 128 = c.n := Nat.mod_eq_of_lt (by omega)
  have he : c.es % 64 = c.es := Nat.mod_eq_of_lt (by omega)
  simp [State.defcfg, State.setDefcfg, hn, he]

end SetDefcfg

@[simp] theorem State.reset_pending : State.reset.pending = [] := rfl
@[simp] theorem State.reset_response : State.reset.response = none := rfl

/-- R8, R24: RESET_CFG lies in the ranges of ValidCfg. -/
theorem Config.reset_range :
    2 ≤ Config.resetN ∧ Config.resetN ≤ 64 ∧ Config.resetEs ≤ Config.resetN - 2 := by
  have h : Config.resetN - 1 ≠ 0 := by unfold Config.resetN; omega
  have hlt : Config.resetEs < Config.resetN - 1 := Nat.mod_lt _ (Nat.pos_of_ne_zero h)
  have hN : Config.resetN < 65 := by
    have := Nat.mod_lt Config.rawN (show 0 < 63 by decide)
    unfold Config.resetN; omega
  unfold Config.resetN at *
  omega

end Sys2Proof.Machine
end

