-- ==== Sys2Proof/Laws/Operands.lean ====
section
/-!
SUPPORT. What the operand forms of Sys2Proof/Machine/Operands.lean can do (30_encoding.md R51, R52): each
either hands on well-formed operands or answers with the error R165 names first.
-/

namespace Sys2Proof.Machine

/-- R9: every configuration is valid or is not. -/
theorem loads_or_badConfig (w : PVWord) : (∃ v, Loads w v) ∨ BadConfig w := by
  by_cases h : 2 ≤ (PV.ofWord w).n ∧ (PV.ofWord w).n ≤ 64 ∧ (PV.ofWord w).es ≤ (PV.ofWord w).n - 2
  · exact .inl ⟨_, h.1, h.2.1, h.2.2, rfl⟩
  · refine .inr ?_
    unfold BadConfig
    omega

/-- R52: an operand that loads is handed on with its bits reduced. -/
theorem loadOperand_of_loads {w : PVWord} {v : PV} (h : Loads w v) : loadOperand w = .ok v := by
  obtain ⟨h2, h64, hes, rfl⟩ := h
  have hv : (PV.ofWord w).cfg.valid = true := (Cfg.valid_iff _).mpr ⟨h2, h64, hes⟩
  simp [loadOperand, hv, PV.normalise]

/-- R162: an operand of invalid configuration is refused. -/
theorem loadOperand_of_badConfig {w : PVWord} (h : BadConfig w) :
    loadOperand w = .error .invalidConfiguration := by
  have hv : ¬(PV.ofWord w).cfg.valid = true := by
    rw [Cfg.valid_iff]
    simp only [PV.cfg]
    unfold BadConfig at h
    omega
  simp [loadOperand, hv]

/-- R52 step 3: what loads is well-formed. -/
theorem Loads.wellFormed {w : PVWord} {v : PV} (h : Loads w v) : v.wellFormed = true := by
  obtain ⟨h2, h64, hes, rfl⟩ := h
  have hlt : (PV.ofWord w).bits % 2 ^ (PV.ofWord w).n < 2 ^ (PV.ofWord w).n :=
    Nat.mod_lt _ (Nat.two_pow_pos _)
  simp [PV.wellFormed, Cfg.valid_iff, PV.cfg, h2, h64, hes, hlt]

/-- R52: format U with an operand that loads. -/
theorem withA_of_loads {s : State} {A : PV} (f : PV → Response) (h : Loads s.req.a A) :
    withA s f = f A := by simp [withA, loadOperand_of_loads h]

/-- R162: format U with an invalid configuration. -/
theorem withA_of_badConfig {s : State} (f : PV → Response) (h : BadConfig s.req.a) :
    withA s f = Response.ofError .invalidConfiguration := by simp [withA, loadOperand_of_badConfig h]

/-- R52: format B with operands that load. -/
theorem withAB_of_loads {s : State} {A B : PV} (f : PV → PV → Response) (hA : Loads s.req.a A)
    (hB : Loads s.req.b B) : withAB s f = f A B := by
  simp [withAB, withA_of_loads _ hA, loadOperand_of_loads hB]

/-- R162, R165: format B with an invalid configuration in either operand. -/
theorem withAB_of_badConfig {s : State} (f : PV → PV → Response)
    (h : BadConfig s.req.a ∨ BadConfig s.req.b) :
    withAB s f = Response.ofError .invalidConfiguration := by
  rcases loads_or_badConfig s.req.a with ⟨A, hA⟩ | hA
  · rcases h with h | h
    · exact withA_of_badConfig _ h
    · simp [withAB, withA_of_loads _ hA, loadOperand_of_badConfig h]
  · exact withA_of_badConfig _ hA

/-- R52: formats CX and C with a valid configuration. -/
theorem withCfg_of_valid {s : State} {u : Bool} {cn ces : Nat} (f : Cfg → Response)
    (h : (resolveCfg u cn ces s).valid = true) : withCfg u cn ces s f = f (resolveCfg u cn ces s) := by
  simp [withCfg, h]

/-- R162: formats CX and C with an invalid configuration. -/
theorem withCfg_of_invalid {s : State} {u : Bool} {cn ces : Nat} (f : Cfg → Response)
    (h : (resolveCfg u cn ces s).valid = false) :
    withCfg u cn ces s f = Response.ofError .invalidConfiguration := by
  simp [withCfg, h]

@[simp] theorem resolveCfg_default (cn ces : Nat) (s : State) : resolveCfg true cn ces s = s.defcfg := rfl

@[simp] theorem resolveCfg_explicit (cn ces : Nat) (s : State) :
    resolveCfg false cn ces s = ⟨cn, ces⟩ := rfl

/-- R110: equal configurations. -/
theorem sameCfg_of_eq {A B : PV} (v : PV) (h : A.cfg = B.cfg) : sameCfg A B v = Response.ofPV v := by
  simp [sameCfg, h]

/-- R163: different configurations. -/
theorem sameCfg_of_ne {A B : PV} (v : PV) (h : A.cfg ≠ B.cfg) :
    sameCfg A B v = Response.ofError .configMismatch := by
  simp [sameCfg, h]

end Sys2Proof.Machine
end

