-- ==== Sys2Proof/Laws/PerInstr.lean ====
section
/-!
SUPPORT. Laws said once per operation of the opcode map (30_encoding.md R50).
-/

namespace Sys2Proof

open Sys2Proof.Machine (slice bitNat bitNat_lt)

/-- R42, R50: the command word of a well-formed instruction carries its opcode in bits [4:0], its
immediates above it, and zeros in bits [31:19]. -/
def Laws.CommandWord.Statement (i : Instr) : Prop :=
  i.wf = true →
    slice (encode i).toNat 4 0 = i.opcode ∧ (encode i).toNat / 2 ^ 5 * 2 ^ 5 = i.immediates ∧
      slice (encode i).toNat 31 19 = 0

/-- The same for every operation whose command word is its opcode alone (formats U, B and N). -/
theorem Laws.CommandWord.plain {i : Instr} (h : i.immediates = 0) (ho : i.opcode < 32) :
    Laws.CommandWord.Statement i := by
  intro _
  have hw : (encode i).toNat = i.opcode := by
    simp only [encode, h, BitVec.toNat_ofNat]
    omega
  rw [hw, h]
  simp only [slice]
  omega

/-- The same for every operation that carries a configuration (formats CX and C). -/
theorem Laws.CommandWord.configured {i : Instr} {u : Bool} {cn ces : Nat}
    (h : i.immediates = bitNat u * 2 ^ 5 + cn * 2 ^ 6 + ces * 2 ^ 13) (ho : i.opcode < 32)
    (hf : i.wf = immediatesFit cn ces) : Laws.CommandWord.Statement i := by
  intro hwf
  rw [hf] at hwf
  simp only [immediatesFit, Bool.and_eq_true, decide_eq_true_eq] at hwf
  have hu := bitNat_lt u
  have hw : (encode i).toNat = i.opcode + (bitNat u * 2 ^ 5 + cn * 2 ^ 6 + ces * 2 ^ 13) := by
    simp only [encode, h, BitVec.toNat_ofNat]
    omega
  rw [hw, h]
  simp only [slice]
  omega

namespace Laws.CommandWord

theorem unpack : Statement .unpack := plain rfl (by decide)
theorem pack (u : Bool) (cn ces : Nat) : Statement (.pack u cn ces) := configured rfl (by simp [Instr.opcode]) rfl
theorem toexact : Statement .toexact := plain rfl (by decide)
theorem round (u : Bool) (cn ces : Nat) : Statement (.round u cn ces) := configured rfl (by simp [Instr.opcode]) rfl
theorem toF64 : Statement .toF64 := plain rfl (by decide)
theorem fromF64 (u : Bool) (cn ces : Nat) : Statement (.fromF64 u cn ces) := configured rfl (by simp [Instr.opcode]) rfl
theorem construct (u : Bool) (cn ces : Nat) : Statement (.construct u cn ces) :=
  configured rfl (by simp [Instr.opcode]) rfl
theorem neg : Statement .neg := plain rfl (by decide)
theorem recip : Statement .recip := plain rfl (by decide)
theorem add : Statement .add := plain rfl (by decide)
theorem sub : Statement .sub := plain rfl (by decide)
theorem mul : Statement .mul := plain rfl (by decide)
theorem div : Statement .div := plain rfl (by decide)
theorem eq : Statement .eq := plain rfl (by decide)
theorem gt : Statement .gt := plain rfl (by decide)
theorem ge : Statement .ge := plain rfl (by decide)
theorem lt : Statement .lt := plain rfl (by decide)
theorem le : Statement .le := plain rfl (by decide)
theorem isZero : Statement .isZero := plain rfl (by decide)
theorem isOne : Statement .isOne := plain rfl (by decide)
theorem isInf : Statement .isInf := plain rfl (by decide)
theorem isNeg : Statement .isNeg := plain rfl (by decide)
theorem isNan : Statement .isNan := plain rfl (by decide)
theorem setdef (cn ces : Nat) : Statement (.setdef cn ces) :=
  configured (u := false) (by simp [Instr.immediates, bitNat]) (by decide : (0x1E : Nat) < 32) rfl
theorem getdef : Statement .getdef := plain rfl (by decide)

end Laws.CommandWord

end Sys2Proof
end

