-- ==== Sys2Proof/Laws/Rounding.lean ====
section
/-!
SUPPORT. What the search and the rounding of Sys2Proof/Machine/Rounding.lean can answer: bounds, and the
bracket that the search for the pattern below x leaves.
-/

namespace Sys2Proof.Machine

/-- Everything `floorPattern` says of its answer p' without any property of the values: it keeps p's bits
above bit i; p' is p or has a value at most x; and p' is the last pattern of its range or its
successor has a value above x. -/
theorem floorPattern_spec (c : Cfg) (x : Exact) (i p : Nat) :
    p ≤ floorPattern c x i p ∧ floorPattern c x i p < p + 2 ^ i ∧
      (floorPattern c x i p = p ∨ 0 ≤ x.cmp [valmag c (floorPattern c x i p)]) ∧
        (floorPattern c x i p + 1 = p + 2 ^ i ∨ x.cmp [valmag c (floorPattern c x i p + 1)] < 0) := by
  induction i generalizing p with
  | zero => simp [floorPattern]
  | succ i ih =>
    have hpow : 2 ^ (i + 1) = 2 ^ i + 2 ^ i := by ring
    simp only [floorPattern]
    split
    · next htest =>
      obtain ⟨h1, h2, h3, h4⟩ := ih (p + 2 ^ i)
      refine ⟨by omega, by omega, .inr ?_, ?_⟩
      · rcases h3 with h3 | h3
        · rw [h3]; exact htest
        · exact h3
      · rcases h4 with h4 | h4
        · exact .inl (by omega)
        · exact .inr h4
    · next htest =>
      obtain ⟨h1, h2, h3, h4⟩ := ih p
      refine ⟨h1, by omega, h3, .inr ?_⟩
      rcases h4 with h4 | h4
      · rw [h4]; omega
      · exact h4

/-- R88: a rounded magnitude has at most n bits. -/
theorem roundMag_lt (c : Cfg) (x : Exact) (hn : 2 ≤ c.n) : roundMag c x < 2 ^ c.n := by
  have hpow : 2 ^ c.n = 2 ^ (c.n - 1) + 2 ^ (c.n - 1) := by
    conv_lhs => rw [show c.n = c.n - 1 + 1 by omega]
    ring
  have hpos : 0 < 2 ^ (c.n - 1) := Nat.two_pow_pos _
  have hone : 2 ≤ 2 ^ (c.n - 1) := by
    calc 2 = 2 ^ 1 := rfl
      _ ≤ 2 ^ (c.n - 1) := Nat.pow_le_pow_right (by norm_num) (by omega)
  obtain ⟨-, hlt, -, -⟩ := floorPattern_spec c x (c.n - 1) 0
  simp only [roundMag]
  repeat' split
  all_goals omega

/-- R73, R88: a rounded pattern lies below 2^n. -/
theorem roundBits_lt (c : Cfg) (x : Exact) (hn : 2 ≤ c.n) : roundBits c x < 2 ^ c.n := by
  simp only [roundBits]
  split
  · exact Nat.two_pow_pos _
  · split
    · exact negN_lt _ _
    · exact roundMag_lt c x hn

@[simp] theorem PV.rounded_cfg (c : Cfg) (x : Exact) : (PV.rounded c x).cfg = c := rfl

@[simp] theorem PV.rounded_nan (c : Cfg) (x : Exact) : (PV.rounded c x).nan = false := rfl

@[simp] theorem PV.rounded_bits (c : Cfg) (x : Exact) : (PV.rounded c x).bits = roundBits c x := rfl

@[simp] theorem PV.infOf_cfg (c : Cfg) : (PV.infOf c).cfg = c := rfl

@[simp] theorem PV.nanOf_cfg (c : Cfg) : (PV.nanOf c).cfg = c := rfl

@[simp] theorem PV.real_cfg (c : Cfg) (b : Nat) : (PV.real c b).cfg = c := rfl

/-- R112: an exact 0 rounds to the zero pattern. -/
theorem roundBits_of_zero (c : Cfg) (x : Exact) (hd : 0 < x.den) (h : x.toRat = 0) : roundBits c x = 0 := by
  simp [roundBits, (x.isSign_sign hd).zero_iff.mpr h]

/-- R88: a positive number rounds as a magnitude. -/
theorem roundBits_of_pos (c : Cfg) (x : Exact) (hd : 0 < x.den) (h : 0 < x.toRat) :
    roundBits c x = roundMag c x := by
  have hs := (x.isSign_sign hd).2.2 h
  simp [roundBits, hs]

/-- R88: a negative number rounds through its magnitude. -/
theorem roundBits_of_neg (c : Cfg) (x : Exact) (hd : 0 < x.den) (h : x.toRat < 0) :
    roundBits c x = negN c.n (roundMag c x.neg) := by
  have hs := (x.isSign_sign hd).1 h
  simp [roundBits, hs]

end Sys2Proof.Machine
end

