-- ==== Sys2Proof/Tests/Slice0.lean ====
section
/-!
SUPPORT. Small tests of single steps, expected results taken from spec/95_test_vectors.md and the examples of
the rules; the smoke test of WellFormed; words written out from the encoding tables.
-/

namespace Sys2Proof.Tests

open Sys2Proof Sys2Proof.Machine

/-- A state with DEFCFG = (16,1) and one request, both presented and on the port. -/
def portState (cmd : CmdWord) (a b : PVWord) (x : AuxWord) : State where
  defcfgN := 16
  defcfgEs := 1
  req := ⟨cmd, a, b, x⟩
  pending := [⟨cmd, a, b, x⟩]
  response := none

/-- The response of one step, if the step answers a next state. -/
def answer (s : State) : Option Response :=
  match step s with
  | .next t => t.response
  | .fault _ => none
  | .refused _ => none

/-- The response to one request. -/
def ask (cmd : CmdWord) (a b : PVWord) (x : AuxWord) : Option Response := answer (portState cmd a b x)

/-- The pattern in r of a successful response, in configuration (16,1). -/
def r16 (bits : Nat) : Option Response := some ⟨.ok, (PV.mk bits 16 1 false).toWord, false, 0⟩

/-- A value of configuration (16,1) as a PV word (R43: `bits | 16<<64 | 1<<71`). -/
def p16 (bits : Nat) : PVWord := 0x00900000000000000000 + BitVec.ofNat 78 bits

/-- A value of configuration (8,0) as a PV word. -/
def p8 (bits : Nat) : PVWord := 0x00080000000000000000 + BitVec.ofNat 78 bits

/-! ## WellFormed: one ill-formed term for each check -/

theorem test_wf_cn_too_wide : (Instr.construct false 128 0).wf = false := by decide
theorem test_wf_ces_too_wide : (Instr.construct false 64 64).wf = false := by decide
theorem test_wf_setdef_too_wide : (Instr.setdef 128 0).wf = false := by decide
theorem test_wf_widest : (Instr.pack true 127 63).wf = true := by decide

/-! ## Decode: words written out from R42 and R50 (usedef bit 5, cn bits 12:6, ces bits 18:13) -/

theorem test_decode_unpack : decode 0b00000000000000000000000000000001 = some .unpack := by decide
theorem test_decode_pack :
    decode 0b0000000000000_000010_0000110_0_00010 = some (.pack false 6 2) := by decide
theorem test_decode_toexact : decode 0b00000000000000000000000000000011 = some .toexact := by decide
theorem test_decode_round :
    decode 0b0000000000000_000001_0010000_0_00100 = some (.round false 16 1) := by decide
theorem test_decode_toF64 : decode 0b00000000000000000000000000000101 = some .toF64 := by decide
theorem test_decode_fromF64 :
    decode 0b0000000000000_111111_0000001_1_00110 = some (.fromF64 true 1 63) := by decide
theorem test_decode_construct :
    decode 0b0000000000000_111110_1000000_0_00111 = some (.construct false 64 62) := by decide
theorem test_decode_arithmetic :
    [0x08, 0x09, 0x0A, 0x0B, 0x0C, 0x0D].map decode =
      [some .neg, some .recip, some .add, some .sub, some .mul, some .div] := by decide
theorem test_decode_comparisons :
    [0x10, 0x11, 0x12, 0x13, 0x14].map decode =
      [some .eq, some .gt, some .ge, some .lt, some .le] := by decide
theorem test_decode_predicates :
    [0x18, 0x19, 0x1A, 0x1B, 0x1C].map decode =
      [some .isZero, some .isOne, some .isInf, some .isNeg, some .isNan] := by decide
theorem test_decode_setdef :
    decode 0b0000000000000_000001_0010000_0_11110 = some (.setdef 16 1) := by decide
theorem test_decode_getdef : decode 0b00000000000000000000000000011111 = some .getdef := by decide
theorem test_decode_unassigned :
    [0x00, 0x0E, 0x0F, 0x15, 0x16, 0x17, 0x1D].map decode = List.replicate 7 none := by decide
theorem test_reject_reserved_bits :
    decodeCmd 0x0000002A = .error .reservedBits ∧ decodeCmd 0x80000008 = .error .reservedBits ∧
      decodeCmd 0x00082406 = .error .reservedBits := ⟨rfl, rfl, rfl⟩
theorem test_reject_setdef_usedef : decodeCmd 0x0000003E = .error .setdefWithUsedef := rfl
theorem test_encode_widest : encode (.pack true 127 63) = 0x0007FFE2 := by decide
theorem test_table_word_runs_after_reset :
    decodeTableWord 32 0x00002407 = some (.construct false 16 1) ∧
      answer (State.reset.withFetchWord 32 0x00002407) = r16 0 := by decide

/-! ## One step of each operation -/

-- 95_test_vectors.md 2.2
theorem test_unpack_negative :
    ask 0x01 (p16 0xDCCD) 0 0 = some ⟨.ok, 0, false, 0x181FF04C00000000000000000000000000000333⟩ := by decide
theorem test_unpack_cut_exponent :
    ask 0x01 0x0106000000000000001D 0 0 =
      some ⟨.ok, 0, false, 0x0830204000000000000000020000000000000000⟩ := by decide
-- 2.3
theorem test_pack_clips :
    ask 0x00004182 0 0 0x0000200000000000000000030000000000000000 =
      some ⟨.ok, (PV.mk 0x1D 6 2 false).toWord, false, 0⟩ := by decide
theorem test_pack_fraction_too_large :
    ask 0x00002402 0 0 0x0000000200000000000000000000000000000004 =
      some ⟨.invalidRequest, 0, false, 0⟩ := by decide
-- 2.4
theorem test_toexact_negative :
    ask 0x03 (p16 0xDCCD) 0 0 = some ⟨.ok, 0, false, 0x000001FFFFFFFFFFFFFFFFFE9998000000000000⟩ := by decide
theorem test_toexact_huge_exponent :
    ask 0x03 (PV.mk 0x6000000000000000 64 62 false).toWord 0 0 =
      some ⟨.ok, 0, false, 0x0000000040000000000000008000000000000000⟩ := by decide
-- 2.5
theorem test_round_tie_on_exponent_bit :
    ask 0x00004184 0 0 0x000000000000000000000009A000000000000000 =
      some ⟨.ok, (PV.mk 0x1C 6 2 false).toWord, false, 0⟩ := by decide
theorem test_round_negative_past_midpoint :
    ask 0x00004184 0 0 0x00000100000000000000000BB330000000000000 =
      some ⟨.ok, (PV.mk 0x22 6 2 false).toWord, false, 0⟩ := by decide
-- 2.7
theorem test_toF64_tie :
    ask 0x05 (PV.mk 0x4000000000000300 64 0 false).toWord 0 0 =
      some ⟨.ok, 0, false, 0x3FF0000000000002⟩ := by decide
theorem test_toF64_subnormal :
    ask 0x05 (PV.mk 0x2000 16 10 false).toWord 0 0 = some ⟨.ok, 0, false, 0x0004000000000000⟩ := by decide
-- 2.6
theorem test_fromF64_tenth : ask 0x00002406 0 0 0x3FB999999999999A = r16 0x14CD := by decide
theorem test_fromF64_subnormal : ask 0x00002406 0 0 0x0000000000000001 = r16 0x0001 := by decide
-- 2.12
theorem test_construct_default : ask 0x0007E067 0 0 0 = r16 0 := by decide
theorem test_construct_invalid :
    ask 0x0000E207 0 0 0 = some ⟨.invalidConfiguration, 0, false, 0⟩ := by decide
-- 2.8
theorem test_neg_of_nan_keeps_bits :
    ask 0x08 0x20900000000000008000 0 0 = some ⟨.ok, 0x20900000000000008000, false, 0⟩ := by decide
theorem test_neg_minpos : ask 0x08 (p16 0x0001) 0 0 = r16 0xFFFF := by decide
theorem test_recip_third : ask 0x09 (p16 0x5800) 0 0 = r16 0x2555 := by decide
theorem test_recip_zero : ask 0x09 (p16 0) 0 0 = r16 0x8000 := by decide
theorem test_add_tie_to_even : ask 0x0A (p16 0x4001) (p16 0x00C0) 0 = r16 0x4002 := by decide
theorem test_add_infinities : ask 0x0A (p16 0x8000) (p16 0x8000) 0 = r16 0x8000 := by decide
theorem test_sub_crosses_midpoint : ask 0x0B (p16 0x0001) (p16 0x0002) 0 = r16 0xFFFE := by decide
theorem test_sub_infinities :
    ask 0x0B (p16 0x8000) (p16 0x8000) 0 = some ⟨.ok, 0x20900000000000000000, false, 0⟩ := by decide
theorem test_mul_saturates_low : ask 0x0C (p16 0x0001) (p16 0x3000) 0 = r16 0x0001 := by decide
theorem test_mul_signs :
    ask 0x0C (p8 0x98) (p8 0x72) 0 = some ⟨.ok, p8 0x84, false, 0⟩ := by decide
theorem test_div_rounds_twice :
    ask 0x0D (p8 0x72) (p8 0x68) 0 = some ⟨.ok, p8 0x54, false, 0⟩ := by decide
theorem test_div_by_zero : ask 0x0D (p16 0x4000) (p16 0) 0 = r16 0x8000 := by decide
-- 2.10
theorem test_eq_across_configurations :
    ask 0x10 (p8 0x6C) (p16 0x5C00) 0 = some ⟨.ok, 0, true, 0⟩ := by decide
theorem test_eq_nan_self :
    ask 0x10 0x20900000000000000000 0x20900000000000000000 0 = some ⟨.ok, 0, false, 0⟩ := by decide
theorem test_gt_infinity_is_least :
    ask 0x11 (p16 0x8001) (p16 0x8000) 0 = some ⟨.ok, 0, true, 0⟩ := by decide
theorem test_ge_equal : ask 0x12 (p16 0x4000) (p16 0x4000) 0 = some ⟨.ok, 0, true, 0⟩ := by decide
theorem test_lt_negatives : ask 0x13 (p16 0xB000) (p16 0xC000) 0 = some ⟨.ok, 0, true, 0⟩ := by decide
theorem test_le_zero_minpos : ask 0x14 (p16 0x0001) (p16 0x0000) 0 = some ⟨.ok, 0, false, 0⟩ := by decide
-- 2.11
theorem test_isZero_of_nan : ask 0x18 0x20900000000000000000 0 0 = some ⟨.ok, 0, false, 0⟩ := by decide
theorem test_isOne_drops_high_bits :
    ask 0x19 0x00080000000000000140 0 0 = some ⟨.ok, 0, true, 0⟩ := by decide
theorem test_isInf_smallest : ask 0x1A 0x00020000000000000002 0 0 = some ⟨.ok, 0, true, 0⟩ := by decide
theorem test_isNeg_of_nan : ask 0x1B 0x20900000000000008000 0 0 = some ⟨.ok, 0, true, 0⟩ := by decide
theorem test_isNan_of_infinity : ask 0x1C (p16 0x8000) 0 0 = some ⟨.ok, 0, false, 0⟩ := by decide
-- 2.12
theorem test_setdef :
    (match step (portState 0x0000481E 0 0 0) with
      | .next t => (t.defcfg, t.response)
      | _ => (⟨0, 0⟩, none)) = (⟨32, 2⟩, some ⟨.ok, 0, false, 0⟩) := by decide
theorem test_setdef_invalid :
    (match step (portState 0x0000005E 0 0 0) with
      | .next t => (t.defcfg, t.response)
      | _ => (⟨0, 0⟩, none)) = (⟨16, 1⟩, some ⟨.invalidConfiguration, 0, false, 0⟩) := by decide
theorem test_getdef : ask 0x1F 0 0 0 = some ⟨.ok, 0, false, 0x0090⟩ := by decide
-- 2.13
theorem test_illegal_word : ask 0x0000000E 0 0 0 = some ⟨.invalidRequest, 0, false, 0⟩ := by decide
theorem test_mismatch_before_nan :
    ask 0x0A 0x20080000000000000000 0x20900000000000000000 0 =
      some ⟨.configMismatch, 0, false, 0⟩ := by decide
theorem test_configuration_before_mismatch :
    ask 0x0A (p16 0) 0x00010000000000000000 0 = some ⟨.invalidConfiguration, 0, false, 0⟩ := by decide
theorem test_configuration_before_malformed_x :
    ask 0x00000042 0 0 0x0000000000000000000000050000000000000000 =
      some ⟨.invalidConfiguration, 0, false, 0⟩ := by decide

/-! ## Witnesses: concrete states and operands that meet the hypotheses of each statement that has some -/

/-- The value 1 of (16,1) loads. -/
theorem loads_one : Loads (p16 0x4000) ⟨0x4000, 16, 1, false⟩ := ⟨by decide, by decide, by decide, by decide⟩

/-- The value 3 of (16,1) loads. -/
theorem loads_three : Loads (p16 0x5800) ⟨0x5800, 16, 1, false⟩ :=
  ⟨by decide, by decide, by decide, by decide⟩

theorem loads_zero : Loads (p16 0) ⟨0, 16, 1, false⟩ := ⟨by decide, by decide, by decide, by decide⟩

theorem loads_infinity : Loads (p16 0x8000) ⟨0x8000, 16, 1, false⟩ :=
  ⟨by decide, by decide, by decide, by decide⟩

theorem loads_nan : Loads 0x20900000000000000000 ⟨0, 16, 1, true⟩ :=
  ⟨by decide, by decide, by decide, by decide⟩

/-- The smallest and the largest configuration load, and bits above n are dropped. -/
theorem loads_boundary :
    Loads 0x00020000000000000001 ⟨1, 2, 0, false⟩ ∧
      Loads (PV.mk 0x4000000000000000 64 62 false).toWord ⟨0x4000000000000000, 64, 62, false⟩ ∧
        Loads 0x00080000000000000140 ⟨0x40, 8, 0, false⟩ :=
  ⟨⟨by decide, by decide, by decide, by decide⟩, ⟨by decide, by decide, by decide, by decide⟩,
    ⟨by decide, by decide, by decide, by decide⟩⟩

theorem validCfg_boundary : ValidCfg ⟨2, 0⟩ ∧ ValidCfg ⟨64, 62⟩ ∧ ValidCfg ⟨64, 0⟩ ∧ ValidCfg ⟨16, 1⟩ :=
  ⟨⟨by decide, by decide, by decide⟩, ⟨by decide, by decide, by decide⟩,
    ⟨by decide, by decide, by decide⟩, ⟨by decide, by decide, by decide⟩⟩

theorem val_one : (PV.mk 0x4000 16 1 false).val = some 1 := by
  have h : (PV.mk 0x4000 16 1 false).decoded = .fin ⟨false, true, 1, true, 0, 1, 0, 12, 0⟩ := by decide
  simp [PV.val, h, Fields.val, signRat]

theorem val_three : (PV.mk 0x5800 16 1 false).val = some 3 := by
  have h : (PV.mk 0x5800 16 1 false).decoded = .fin ⟨false, true, 1, true, 0, 1, 1, 12, 2048⟩ := by decide
  simp only [PV.val, h, Fields.val, signRat]
  norm_num

theorem val_zero : (PV.mk 0 16 1 false).val = some 0 := rfl

theorem isInfinity_16 : IsInfinity ⟨0x8000, 16, 1, false⟩ := ⟨rfl, rfl⟩

/-- The invariant holds of a state with DEFCFG = (16,1) before its first response. -/
theorem inv_portState (cmd : CmdWord) (a b : PVWord) (x : AuxWord) : (portState cmd a b x).Inv :=
  ⟨rfl, fun _ h => absurd h (by simp [portState])⟩

theorem witness_StepKeepsTheInvariant :
    ∃ s t : State, s.Inv ∧ s.pending ≠ [] ∧ step s = .next t :=
  ⟨portState 0x0A (p16 0x4000) (p16 0x4000) 0, _, inv_portState _ _ _ _, by decide, rfl⟩

theorem witness_StepPerformsTheDecodedRequest :
    (∃ s q rest i, s.pending = q :: rest ∧ decode q.cmd = some i ∧ i = Instr.getdef ∧
      step s = exec i { s with req := q, pending := rest }) ∧
    (State.reset.pending = []) :=
  ⟨⟨portState 0x1F 0 0 0, ⟨0x1F, 0, 0, 0⟩, [], .getdef, rfl, by decide, rfl, rfl⟩, rfl⟩

theorem witness_EveryRequestProducesOneResponse :
    ∃ (s : State) (q : Request) (rest : List Request), s.pending = q :: rest ∧ decode q.cmd = none :=
  ⟨portState 0 0 0 0, ⟨0, 0, 0, 0⟩, [], rfl, by decide⟩

theorem witness_EveryOperationButSetdefOnlyReplies : Instr.add.isSetdef = false := rfl

theorem witness_UnnamedRequestFieldsAreIgnored :
    ∃ (s s' : State) (rsp : Response), Instr.neg.isSetdef = false ∧ s'.defcfg = s.defcfg ∧ s ≠ s' ∧
      Request.agreesFor .neg s.req s'.req ∧ Replies .neg s rsp :=
  ⟨portState 0x08 (p16 1) 0 0, portState 0x08 (p16 1) 7 9, _, rfl, rfl, by decide,
    ⟨rfl, fun h => absurd h (by decide)⟩, rfl⟩

theorem witness_IllegalCommandWords :
    ([0x00000000, 0x0000001D, 0x00080002, 0x80000002, 0x0000002A, 0x0004000A, 0x0000003E] :
      List CmdWord).map decode = List.replicate 7 none ∧
    IllegalWord 0x00000000 ∧ IllegalWord 0x0000001D ∧ IllegalWord 0x00080002 ∧ IllegalWord 0x80000002 ∧
    IllegalWord 0x0000002A ∧ IllegalWord 0x0004000A ∧ IllegalWord 0x0000003E := by
  refine ⟨by decide, ?_, ?_, ?_, ?_, ?_, ?_, ?_⟩ <;> unfold IllegalWord <;> decide

theorem witness_DecodeOfEncodeIsTheInstruction :
    (Instr.pack true 127 63).wf = true ∧ (Instr.setdef 0 0).wf = true ∧ Instr.div.wf = true := by decide

theorem witness_EncodeOfDecodeIsTheWord : decode 0x0007FFE2 = some (.pack true 127 63) := by decide

theorem witness_InvalidConfigurationIsReported :
    UsesBadConfig .neg (portState 0x08 0x00010000000000000000 0 0) ∧
    UsesBadConfig .neg (portState 0x08 0x00410000000000000000 0 0) ∧
    UsesBadConfig .neg (portState 0x08 0x03880000000000000000 0 0) ∧
    UsesBadConfig .eq (portState 0x10 (p16 0) 0x00010000000000000000 0) ∧
    UsesBadConfig (.construct false 65 0) (portState 0x00001047 0 0 0) ∧
    UsesBadConfig (.setdef 8 7) (portState 0x0000E21E 0 0 0) := by
  refine ⟨?_, ?_, ?_, ?_, ?_, ?_⟩ <;> simp only [UsesBadConfig, BadConfig, ValidCfg, chosenCfg] <;> decide

theorem witness_MismatchedArithmeticIsRefused :
    ∃ (s : State) (A B : PV), Instr.add.isArithmeticB = true ∧ Loads s.req.a A ∧ Loads s.req.b B ∧
      A.n = B.n ∧ A.es ≠ B.es :=
  ⟨portState 0x0A (p16 0x4000) 0x01100000000000004000 0, ⟨0x4000, 16, 1, false⟩, ⟨0x4000, 16, 2, false⟩,
    rfl, loads_one, ⟨by decide, by decide, by decide, by decide⟩, rfl, by decide⟩

/-- PACK at e = 2^es and at f = 2^fb, ROUND at sig = 2^62: the first values outside each domain. -/
theorem witness_MalformedAuxiliaryOperandIsRefused :
    MalformedAux (.pack false 16 1) ⟨16, 1⟩ 0x0000000000000000000000020000000000000000 ∧
    MalformedAux (.pack false 16 1) ⟨16, 1⟩ 0x0000000200000000000000000000000000000004 ∧
    MalformedAux (.round false 16 1) ⟨16, 1⟩ 0x0000000000000000000000004000000000000000 := by
  refine ⟨?_, ?_, ?_⟩ <;> simp only [MalformedAux] <;> decide

theorem witness_ErrorPriority :
    decode 0x0000000E = none ∧
    (decode 0x00000042 = some (.pack false 1 0) ∧ UsesBadConfig (.pack false 1 0) (portState 0x42 0 0 0)) ∧
    (decode 0x00002404 = some (.round false 16 1) ∧
      ¬UsesBadConfig (.round false 16 1) (portState 0x2404 0 0 0) ∧
      MalformedAux (.round false 16 1) (auxCfg (.round false 16 1) (portState 0x2404 0 0 0)) 0) ∧
    (decode 0x0000000A = some .add ∧ ¬UsesBadConfig .add (portState 0x0A (p8 0) (p16 0) 0) ∧
      (PV.ofWord (p8 0)).cfg ≠ (PV.ofWord (p16 0)).cfg) := by
  simp only [UsesBadConfig, BadConfig, ValidCfg, chosenCfg, MalformedAux]
  decide

/-- Well-formed values of each class, at both ends of the range of configurations. -/
theorem witness_wellFormed :
    (PV.mk 1 2 0 false).wellFormed = true ∧ (PV.mk 1 2 0 false).cls = .fin ∧
    (PV.mk 0xFFFFFFFFFFFFFFFF 64 62 false).wellFormed = true ∧
    (PV.mk 0xFFFFFFFFFFFFFFFF 64 62 false).cls = .fin ∧
    (PV.mk 0 16 1 false).cls = .zero ∧ (PV.mk 0x8000 16 1 false).cls = .inf ∧
    (PV.mk 0x8000 16 1 true).wellFormed = true ∧ (PV.mk 0x8000 16 1 true).cls = .nan := by decide

/-- Magnitude patterns: the smallest, the largest, and both for n = 2. -/
theorem witness_magnitude :
    2 ≤ 2 ∧ 0 < 1 ∧ 1 < 2 ^ (2 - 1) ∧ 0 < 0x7FFF ∧ 0x7FFF < 2 ^ (16 - 1) ∧
    (regimeDecode 0x7FFF 16).t = false ∧ (regimeDecode 0x0001 16).b0 = false ∧
    (regimeDecode 0x5922 16).b0 = true ∧ (regimeDecode 0x5922 16).r < 16 - 1 := by decide

/-- PackMag at both ends of its range of k and one beyond each. -/
theorem witness_PackMag :
    packMag ⟨16, 1⟩ 14 1 3 5 = 0x7FFF ∧ packMag ⟨16, 1⟩ (-14) 1 3 5 = 0x0001 ∧
    packMag ⟨16, 1⟩ 15 1 3 5 = 0x7FFF ∧ packMag ⟨16, 1⟩ (-15) 1 3 5 = 0x0001 ∧
    (1 : Nat) < 2 ^ 1 ∧ (5 : Nat) < 2 ^ 3 ∧ ((16 : Nat) : Int) - 2 < 15 ∧
    (-15 : Int) < -(((16 : Nat) : Int) - 2) := by decide

theorem witness_CarryReachesTheNextPowerOfTwo :
    -(((8 : Nat) : Int) - 2) ≤ 0 ∧ 0 < ((8 : Nat) : Int) - 2 ∧ 3 < 2 ^ 2 ∧
    (budget ⟨8, 2⟩ 0).eb = 2 ∧ packMag ⟨8, 2⟩ 0 3 3 (2 ^ 3 - 1) = 0x5F := by decide

/-- R45, R46: auxiliary words of each class, and of class FIN inside its domain. -/
theorem witness_auxiliary_classes :
    slice 0x0000000C00000000000000010000000000000922 158 157 = 0 ∧
    slice 0x0000000C00000000000000010000000000000922 127 64 < 2 ^ 1 ∧
    slice 0x0000000C00000000000000010000000000000922 63 0 <
      2 ^ slice 0x0000000C00000000000000010000000000000922 133 128 ∧
    [0x2000000000000000000000000000000000000000, 0x4000000000000000000000000000000000000000,
      0x6000000000000000000000000000000000000000].map (slice · 158 157) = [1, 2, 3] ∧
    [0x0000020000000000000000000000000000000000, 0x0000040000000000000000000000000000000000,
      0x0000060000000000000000000000000000000000].map (slice · 138 137) = [1, 2, 3] ∧
    slice 0x00000000000000000000001C8000000000000000 138 137 = 0 ∧
    Nat.testBit 0x00000000000000000000001C8000000000000000 63 = true := by decide

/-- R94: binary64 words at the edges of each class. -/
theorem witness_f64_classes :
    slice 0x8000000000000000 62 0 = 0 ∧ slice 0xFFF0000000000000 62 0 = 2047 * 2 ^ 52 ∧
    2047 * 2 ^ 52 < slice 0x7FF0000000000001 62 0 ∧
    (0 < slice 0x0000000000000001 62 0 ∧ slice 0x0000000000000001 62 0 < 2047 * 2 ^ 52) ∧
    (0 < slice 0x7FEFFFFFFFFFFFFF 62 0 ∧ slice 0x7FEFFFFFFFFFFFFF 62 0 < 2047 * 2 ^ 52) := by decide

theorem witness_UnpackThenPackIsTheOperand :
    ∃ (s t : State) (A : PV) (y : AuxWord), Loads s.req.a A ∧ A.nan = false ∧ RepliesAux .unpack s y ∧
      t.req.x = y :=
  ⟨portState 0x01 (p16 0x4000) 0 0, portState 0x00002402 0 0 (fieldsWord (PV.decoded ⟨0x4000, 16, 1, false⟩)),
    ⟨0x4000, 16, 1, false⟩, _, loads_one, rfl, rfl, rfl⟩

theorem witness_ToexactThenRoundIsTheOperand :
    ∃ (s t : State) (A : PV) (y : AuxWord), Loads s.req.a A ∧ A.nan = false ∧ RepliesAux .toexact s y ∧
      t.req.x = y :=
  ⟨portState 0x03 (p16 0x4000) 0 0,
    portState 0x00002404 0 0 (toexactWord 1 (PV.decoded ⟨0x4000, 16, 1, false⟩)),
    ⟨0x4000, 16, 1, false⟩, _, loads_one, rfl, rfl, rfl⟩

theorem witness_ValuesRiseWithThePatterns :
    ValidCfg ⟨6, 2⟩ ∧ 0 < 1 ∧ 1 < 31 ∧ 31 < 2 ^ (6 - 1) := by
  refine ⟨⟨by decide, by decide, by decide⟩, ?_⟩
  decide

/-- Exact numbers for the rounding statements: positive, negative and zero, in range, at maxpos and minpos, and
beyond them, in (8,0) where maxpos = 64. -/
theorem witness_rounding :
    0 < (Exact.mk [⟨1, 6⟩] 1).den ∧ (Exact.mk [⟨1, 6⟩] 1).toRat = maxposRat ⟨8, 0⟩ ∧
    (Exact.mk [⟨-1, 6⟩] 1).toRat = -maxposRat ⟨8, 0⟩ ∧
    (Exact.mk [⟨1, -6⟩] 1).toRat = minposRat ⟨8, 0⟩ ∧
    (Exact.mk [⟨-1, -6⟩] 1).toRat = -minposRat ⟨8, 0⟩ ∧
    (Exact.mk [⟨65, -6⟩] 1).toRat = 65 / 64 ∧ (Exact.mk [] 1).toRat = 0 := by
  simp [Exact.toRat, sumRat, Term.toRat, maxposRat, minposRat]
  norm_num

theorem witness_RepresentableValueRoundsToItself :
    ∃ (v : PV) (x : Exact) (q : ℚ), v.wellFormed = true ∧ v.val = some q ∧ 0 < x.den ∧ x.toRat = q :=
  ⟨⟨0x4000, 16, 1, false⟩, ⟨[⟨1, 0⟩], 1⟩, 1, by decide, val_one, by decide, by simp [Exact.toRat, sumRat, Term.toRat]⟩

/-- Operands of one configuration for ADD, SUB, MUL and DIV, one pair for each clause of their statements. -/
theorem witness_binary_operands :
    (PV.mk 0x4000 16 1 false).cfg = (PV.mk 0x5800 16 1 false).cfg ∧
    (PV.mk 0x4000 16 1 false).val = some 1 ∧ (PV.mk 0x5800 16 1 false).val = some 3 ∧
    (PV.mk 0 16 1 false).val = some 0 ∧ IsInfinity ⟨0x8000, 16, 1, false⟩ ∧ (1 : ℚ) ≠ 0 ∧
    Loads (p16 0x4000) ⟨0x4000, 16, 1, false⟩ ∧ Loads (p16 0x5800) ⟨0x5800, 16, 1, false⟩ ∧
    Loads (p16 0) ⟨0, 16, 1, false⟩ ∧ Loads (p16 0x8000) ⟨0x8000, 16, 1, false⟩ ∧
    Loads 0x20900000000000000000 ⟨0, 16, 1, true⟩ :=
  ⟨rfl, val_one, val_three, val_zero, isInfinity_16, one_ne_zero, loads_one, loads_three, loads_zero,
    loads_infinity, loads_nan⟩

theorem witness_NegationIdentity :
    (PV.mk 0x4000 16 1 false).wellFormed = true ∧ (PV.mk 0x4000 16 1 false).cls = .fin ∧
    (PV.mk 0x4000 16 1 false).val = some 1 ∧ 0 < (Exact.mk [⟨-1, 0⟩] 1).den ∧
    (Exact.mk [⟨-1, 0⟩] 1).toRat = -1 :=
  ⟨by decide, by decide, val_one, by decide, by simp [Exact.toRat, sumRat, Term.toRat]⟩

theorem witness_AddAndMulCommute :
    ∃ (s : State) (rsp rsp' : Response), Replies .add s rsp ∧ Replies .mul s rsp' :=
  ⟨portState 0x0A (p16 0x4000) (p8 0x40) 0, _, _, rfl, rfl⟩

/-- Keys for the comparison statements: a number in each configuration, zero and infinity. -/
theorem witness_keys :
    (PV.mk 0 16 1 false).keyRat = some ((0 : ℚ) : WithBot ℚ) ∧ (PV.mk 0x8000 16 1 false).keyRat = some ⊥ ∧
    (∃ k, (PV.mk 0x4000 16 1 false).keyRat = some k) ∧ (∃ k, (PV.mk 0x6C 8 0 false).keyRat = some k) :=
  ⟨rfl, rfl, ⟨_, rfl⟩, ⟨_, rfl⟩⟩

theorem witness_ComparisonLaws :
    ∃ (s : State) (rsp rsp' : Response), Replies .gt s rsp ∧ Replies .ge s rsp' :=
  ⟨portState 0x11 (p16 0x8000) (p8 0x40) 0, _, _, rfl, rfl⟩

theorem witness_ConstructAnswersZero :
    ValidCfg (chosenCfg false 64 62 (portState 0x0007D007 0 0 0)) ∧
    ValidCfg (chosenCfg true 1 63 (portState 0x0007E067 0 0 0)) :=
  ⟨⟨by decide, by decide, by decide⟩, ⟨by decide, by decide, by decide⟩⟩

theorem witness_SetdefWritesValidPairsOnly : ValidCfg ⟨2, 0⟩ ∧ ¬ValidCfg ⟨1, 0⟩ ∧ ¬ValidCfg ⟨65, 0⟩ ∧ ¬ValidCfg ⟨8, 7⟩ := by
  simp only [ValidCfg]
  decide

theorem witness_SetdefIsSeenByTheNextRequest :
    ∃ (s : State) (q q' : Request), s.pending = q :: q' :: [] ∧ decode q.cmd = some (.setdef 32 2) ∧
      ValidCfg ⟨32, 2⟩ ∧ decode q'.cmd = some .getdef ∧ decode 0x00000027 = some (.construct true 0 0) :=
  ⟨{ portState 0 0 0 0 with pending := [⟨0x0000481E, 0, 0, 0⟩, ⟨0x1F, 0, 0, 0⟩] }, ⟨0x0000481E, 0, 0, 0⟩,
    ⟨0x1F, 0, 0, 0⟩, rfl, by decide, ⟨by decide, by decide, by decide⟩, by decide, by decide⟩

theorem witness_EveryWrittenValueIsWellFormed :
    ∃ (s t : State) (rsp : Response), Instr.neg.writesR = true ∧ exec .neg s = .next t ∧
      t.response = some rsp ∧ rsp.err = .ok :=
  ⟨portState 0x08 (p16 1) 0 0, _, _, rfl, rfl, rfl, by decide⟩

/-- All hypotheses together of the statements on magnitude patterns and on PackMag, at both ends of their
ranges: Split, Budget, PackMag, PackSaturates, and Carry. -/
theorem witness_codec_together :
    (∃ (c : Cfg) (m : Nat), ValidCfg c ∧ 0 < m ∧ m < 2 ^ (c.n - 1) ∧ c = ⟨2, 0⟩) ∧
    (∃ (c : Cfg) (m : Nat), ValidCfg c ∧ 0 < m ∧ m < 2 ^ (c.n - 1) ∧ m + 1 = 2 ^ (c.n - 1) ∧ c = ⟨64, 62⟩) ∧
    (∃ (c : Cfg) (k : Int) (e fw f : Nat), ValidCfg c ∧ -((c.n : Int) - 2) ≤ k ∧ k ≤ (c.n : Int) - 2 ∧
      e < 2 ^ c.es ∧ f < 2 ^ fw ∧ k = 14) ∧
    (∃ (c : Cfg) (k : Int) (e : Nat), ValidCfg c ∧ -((c.n : Int) - 2) ≤ k ∧ k < (c.n : Int) - 2 ∧
      e < 2 ^ c.es ∧ (budget c k).eb = c.es ∧ e = 3) :=
  ⟨⟨⟨2, 0⟩, 1, ⟨by decide, by decide, by decide⟩, by decide, by decide, rfl⟩,
    ⟨⟨64, 62⟩, 2 ^ 63 - 1, ⟨by decide, by decide, by decide⟩, by decide, by decide, by decide, rfl⟩,
    ⟨⟨16, 1⟩, 14, 1, 3, 5, ⟨by decide, by decide, by decide⟩, by decide, by decide, by decide, by decide, rfl⟩,
    ⟨⟨8, 2⟩, 0, 3, ⟨by decide, by decide, by decide⟩, by decide, by decide, by decide, by decide, rfl⟩⟩

/-- All hypotheses together of the rounding statements. -/
theorem witness_rounding_together :
    ∃ (c : Cfg) (x : Exact), ValidCfg c ∧ 0 < x.den ∧ 0 < x.toRat ∧ x.toRat ≤ minposRat c :=
  ⟨⟨8, 0⟩, ⟨[⟨1, -6⟩], 1⟩, ⟨by decide, by decide, by decide⟩, by decide, by
    simp [Exact.toRat, sumRat, Term.toRat], by simp [Exact.toRat, sumRat, Term.toRat, minposRat]⟩

/-- All hypotheses together of the statements on two values of one configuration: SUB against ADD of the
negation (two infinities), and the signed-integer shortcut. -/
theorem witness_two_values :
    ∃ (A B : PV) (k l : WithBot ℚ), A.wellFormed = true ∧ B.wellFormed = true ∧ A.cfg = B.cfg ∧
      A.keyRat = some k ∧ B.keyRat = some l ∧ IsInfinity A ∧ IsInfinity B :=
  ⟨⟨0x8000, 16, 1, false⟩, ⟨0x8000, 16, 1, false⟩, ⊥, ⊥, by decide, by decide, rfl, rfl, rfl,
    isInfinity_16, isInfinity_16⟩

end Sys2Proof.Tests
end

/-! # Proofs of 10_state.md

DEFCFG, the response port and the frame of the operations: what each operand form can answer, that every
value written to r is well-formed (R73), that every response is sound (R41), and from these the invariant. -/

namespace Sys2Proof.Machine

/-! ## Operand forms: what holds of an answer once it holds on each branch -/

section OperandForms
variable {P : Response → Prop} {s : State}

/-- R52: a property of format U's answer follows from the branch that refuses A and the one that loads it. -/
theorem withA_elim {f : PV → Response}
    (bad : BadConfig s.req.a → P (Response.ofError .invalidConfiguration))
    (loaded : ∀ A, Loads s.req.a A → P (f A)) : P (withA s f) := by
  rcases loads_or_badConfig s.req.a with ⟨A, hA⟩ | hA
  · rw [withA_of_loads f hA]
    exact loaded A hA
  · rw [withA_of_badConfig f hA]
    exact bad hA

/-- R52, R165: the same for format B. -/
theorem withAB_elim {f : PV → PV → Response}
    (bad : BadConfig s.req.a ∨ BadConfig s.req.b → P (Response.ofError .invalidConfiguration))
    (loaded : ∀ A B, Loads s.req.a A → Loads s.req.b B → P (f A B)) : P (withAB s f) := by
  rcases loads_or_badConfig s.req.a with ⟨A, hA⟩ | hA
  · rcases loads_or_badConfig s.req.b with ⟨B, hB⟩ | hB
    · rw [withAB_of_loads f hA hB]
      exact loaded A B hA hB
    · rw [withAB_of_badConfig f (.inr hB)]
      exact bad (.inr hB)
  · rw [withAB_of_badConfig f (.inl hA)]
    exact bad (.inl hA)

/-- R51, R52: the same for formats CX and C. -/
theorem withCfg_elim {u : Bool} {cn ces : Nat} {f : Cfg → Response}
    (bad : (resolveCfg u cn ces s).valid = false → P (Response.ofError .invalidConfiguration))
    (valid : (resolveCfg u cn ces s).valid = true → P (f (resolveCfg u cn ces s))) :
    P (withCfg u cn ces s f) := by
  cases h : (resolveCfg u cn ces s).valid with
  | false =>
    rw [withCfg_of_invalid f h]
    exact bad h
  | true =>
    rw [withCfg_of_valid f h]
    exact valid h

/-- R110, R163: the same for the comparison of two configurations. -/
theorem sameCfg_elim {A B v : PV} (mismatch : A.cfg ≠ B.cfg → P (Response.ofError .configMismatch))
    (same : A.cfg = B.cfg → P (Response.ofPV v)) : P (sameCfg A B v) := by
  by_cases h : A.cfg = B.cfg
  · rw [sameCfg_of_eq v h]
    exact same h
  · rw [sameCfg_of_ne v h]
    exact mismatch h

end OperandForms

/-! ## Values the operations write are well-formed (R73) -/

theorem validCfg_iff (c : Cfg) : ValidCfg c ↔ c.valid = true := c.valid_iff.symm

theorem PV.wellFormed_iff (v : PV) : v.wellFormed = true ↔ v.cfg.valid = true ∧ v.bits < 2 ^ v.n := by
  simp [PV.wellFormed]

theorem PV.cfg_valid_of_wellFormed {v : PV} (h : v.wellFormed = true) : v.cfg.valid = true :=
  (v.wellFormed_iff.mp h).1

/-- R43: a well-formed value is what its PV word reads as. -/
theorem PV.ofWord_toWord_of_wellFormed {v : PV} (h : v.wellFormed = true) : PV.ofWord v.toWord = v := by
  obtain ⟨hc, hb⟩ := v.wellFormed_iff.mp h
  obtain ⟨h2, h64, hes⟩ : 2 ≤ v.n ∧ v.n ≤ 64 ∧ v.es ≤ v.n - 2 := (Cfg.valid_iff _).mp hc
  exact PV.ofWord_toWord v (hb.trans_le (Nat.pow_le_pow_right (by decide) h64)) (by omega) (by omega)

theorem PV.real_wellFormed {c : Cfg} {b : Nat} (hc : c.valid = true) (hb : b < 2 ^ c.n) :
    (PV.real c b).wellFormed = true := (PV.wellFormed_iff _).mpr ⟨hc, hb⟩

/-- R69: a regime run of r bits, a terminator bit, es bits of e and fw bits of f are r + 1 + es + fw bits. -/
theorem bitString_lt {run r terminator e es f fw : Nat} (hrun : run < 2 ^ r) (ht : terminator ≤ 1)
    (he : e < 2 ^ es) (hf : f < 2 ^ fw) :
    run * 2 ^ (1 + es + fw) + terminator * 2 ^ (es + fw) + e * 2 ^ fw + f < 2 ^ (r + 1 + es + fw) := by
  have hef : e * 2 ^ fw + f < 2 ^ (es + fw) :=
    calc e * 2 ^ fw + f < (e + 1) * 2 ^ fw := by linarith
      _ ≤ 2 ^ es * 2 ^ fw := Nat.mul_le_mul_right _ he
      _ = 2 ^ (es + fw) := (Nat.pow_add ..).symm
  have htop : terminator * 2 ^ (es + fw) ≤ 2 ^ (es + fw) := (Nat.mul_le_mul_right _ ht).trans_eq (one_mul _)
  have htwo : 2 ^ (1 + es + fw) = 2 * 2 ^ (es + fw) := by ring
  calc run * 2 ^ (1 + es + fw) + terminator * 2 ^ (es + fw) + e * 2 ^ fw + f
      < (run + 1) * 2 ^ (1 + es + fw) := by linarith
    _ ≤ 2 ^ r * 2 ^ (1 + es + fw) := Nat.mul_le_mul_right _ hrun
    _ = 2 ^ (r + 1 + es + fw) := by ring

section ValidConfiguration
variable {c : Cfg}

@[simp] theorem PV.real_zero_wellFormed (hc : c.valid = true) : (PV.real c 0).wellFormed = true :=
  PV.real_wellFormed hc (Nat.two_pow_pos _)

@[simp] theorem PV.nanOf_wellFormed (hc : c.valid = true) : (PV.nanOf c).wellFormed = true :=
  (PV.wellFormed_iff _).mpr ⟨hc, Nat.two_pow_pos _⟩

@[simp] theorem PV.infOf_wellFormed (hc : c.valid = true) : (PV.infOf c).wellFormed = true := by
  obtain ⟨h2, -, -⟩ := c.valid_iff.mp hc
  exact PV.real_wellFormed hc (Nat.pow_lt_pow_right (by decide) (by omega))

@[simp] theorem PV.rounded_wellFormed (x : Exact) (hc : c.valid = true) :
    (PV.rounded c x).wellFormed = true :=
  PV.real_wellFormed hc (roundBits_lt c x (c.valid_iff.mp hc).1)

/-- R100: FROM_F64 writes well-formed values only. -/
theorem fromF64PV_wellFormed (d : Nat) (hc : c.valid = true) : (fromF64PV c d).wellFormed = true := by
  unfold fromF64PV
  split <;> simp [hc]

/-- R69, R70: a packed magnitude has its sign bit clear, when e and f fit their fields: of the
`r + 1 + es + fw` bits of S the first `n - 1` are kept. -/
theorem packMag_lt {k : Int} {e fw f : Nat} (hn : 2 ≤ c.n) (he : e < 2 ^ c.es) (hf : f < 2 ^ fw) :
    packMag c k e fw f < 2 ^ (c.n - 1) := by
  have hone : 1 < 2 ^ (c.n - 1) := Nat.one_lt_two_pow (by omega)
  unfold packMag
  split
  · omega
  · split
    · exact hone
    · rw [Nat.div_lt_iff_lt_mul (Nat.two_pow_pos _), mul_comm (2 ^ (c.n - 1))]
      refine Nat.mul_lt_mul_of_pos_right (bitString_lt ?_ ?_ he hf) (Nat.two_pow_pos _)
      · split
        · exact Nat.sub_lt (Nat.two_pow_pos _) Nat.one_pos
        · exact Nat.two_pow_pos _
      · split <;> decide

/-- R71: `Pack` gives an n-bit pattern. -/
theorem packBits_lt (sign : Bool) {k : Int} {e fw f : Nat} (hn : 2 ≤ c.n) (he : e < 2 ^ c.es)
    (hf : f < 2 ^ fw) : packBits c sign k e fw f < 2 ^ c.n := by
  unfold packBits
  split
  · exact negN_lt _ _
  · exact (packMag_lt hn he hf).trans (Nat.pow_lt_pow_right (by decide) (by omega))

end ValidConfiguration

section WellFormedOperand
variable {A : PV}

/-- R114: NEG keeps its operand well-formed. -/
theorem negV_wellFormed (hA : A.wellFormed = true) : (negV A).wellFormed = true := by
  have hc := PV.cfg_valid_of_wellFormed hA
  unfold negV
  split
  · exact hA
  · exact (PV.wellFormed_iff _).mpr ⟨hc, negN_lt _ _⟩

theorem recV_wellFormed (hA : A.wellFormed = true) : (recV A).wellFormed = true := by
  have hc := PV.cfg_valid_of_wellFormed hA
  unfold recV
  split <;> simp [hc]

/-- R117, R118: the result is of A's configuration, whatever B is. -/
theorem addV_wellFormed (B : PV) (sub : Bool) (hA : A.wellFormed = true) :
    (addV A B sub).wellFormed = true := by
  have hc := PV.cfg_valid_of_wellFormed hA
  unfold addV
  split
  case h_3 => split <;> simp [hc]
  all_goals simp [hc]

/-- R119: the result is of A's configuration, whatever B is. -/
theorem mulV_wellFormed (B : PV) (hA : A.wellFormed = true) : (mulV A B).wellFormed = true := by
  have hc := PV.cfg_valid_of_wellFormed hA
  unfold mulV
  split <;> simp [hc]

end WellFormedOperand

/-! ## Every response is sound (R41, R166) -/

theorem Response.ofError_sound (e : ErrCode) : (Response.ofError e).sound :=
  ⟨fun _ => ⟨rfl, rfl, rfl⟩, .inl rfl⟩

theorem Response.ofFlag_sound (f : Bool) : (Response.ofFlag f).sound := ⟨fun h => absurd rfl h, .inl rfl⟩

theorem Response.ofAux_sound (y : AuxWord) : (Response.ofAux y).sound := ⟨fun h => absurd rfl h, .inl rfl⟩

theorem Response.done_sound : Response.done.sound := ⟨fun h => absurd rfl h, .inl rfl⟩

theorem Response.ofPV_sound {v : PV} (h : v.wellFormed = true) : (Response.ofPV v).sound :=
  ⟨fun h => absurd rfl h, .inr ((PV.ofWord_toWord_of_wellFormed h).symm ▸ h)⟩

theorem withA_sound {s : State} {f : PV → Response} (h : ∀ A, A.wellFormed = true → (f A).sound) :
    (withA s f).sound :=
  withA_elim (fun _ => Response.ofError_sound _) fun A hA => h A hA.wellFormed

theorem withAB_sound {s : State} {f : PV → PV → Response}
    (h : ∀ A B, A.wellFormed = true → (f A B).sound) : (withAB s f).sound :=
  withAB_elim (fun _ => Response.ofError_sound _) fun A B hA _ => h A B hA.wellFormed

theorem withCfg_sound {u : Bool} {cn ces : Nat} {s : State} {f : Cfg → Response}
    (h : ∀ c, c.valid = true → (f c).sound) : (withCfg u cn ces s f).sound :=
  withCfg_elim (fun _ => Response.ofError_sound _) (h _)

theorem sameCfg_sound {A B v : PV} (h : v.wellFormed = true) : (sameCfg A B v).sound :=
  sameCfg_elim (fun _ => Response.ofError_sound _) fun _ => Response.ofPV_sound h

/-- R75: PACK refuses what does not fit its fields and packs the rest into a well-formed value. -/
theorem packFields_sound {c : Cfg} (X : FieldsIn) (hc : c.valid = true) : (packFields c X).sound := by
  unfold packFields
  split
  · exact Response.ofPV_sound (PV.real_zero_wellFormed hc)
  · exact Response.ofPV_sound (PV.infOf_wellFormed hc)
  · exact Response.ofPV_sound (PV.nanOf_wellFormed hc)
  · split
    · exact Response.ofError_sound _
    · next hfit =>
      obtain ⟨he, hf⟩ := not_or.mp hfit
      exact Response.ofPV_sound (PV.real_wellFormed hc
        (packBits_lt _ (c.valid_iff.mp hc).1 (not_le.mp he) (not_le.mp hf)))

theorem roundExact_sound {c : Cfg} (X : ExactIn) (hc : c.valid = true) : (roundExact c X).sound := by
  unfold roundExact
  split
  · exact Response.ofPV_sound (PV.real_zero_wellFormed hc)
  · exact Response.ofPV_sound (PV.infOf_wellFormed hc)
  · exact Response.ofPV_sound (PV.nanOf_wellFormed hc)
  · split
    · exact Response.ofPV_sound (PV.rounded_wellFormed _ hc)
    · exact Response.ofError_sound _

/-! ## What an operation and a step can do -/

/-- R28, R33, R41: on every state every operation but SETDEF answers a sound response and does nothing else.
No invariant is needed: an operation with usedef = 1 checks DEFCFG like any other configuration. -/
theorem exists_sound_reply (i : Instr) (s : State) (hi : i.isSetdef = false) :
    ∃ rsp : Response, rsp.sound ∧ Replies i s rsp := by
  cases i with
  | setdef cn ces => nomatch hi
  | getdef => exact ⟨_, Response.ofAux_sound _, rfl⟩
  | unpack | toexact | toF64 => exact ⟨_, withA_sound fun _ _ => Response.ofAux_sound _, rfl⟩
  | isZero | isOne | isInf | isNeg | isNan =>
    exact ⟨_, withA_sound fun _ _ => Response.ofFlag_sound _, rfl⟩
  | eq | gt | ge | lt | le => exact ⟨_, withAB_sound fun _ _ _ => Response.ofFlag_sound _, rfl⟩
  | pack => exact ⟨_, withCfg_sound fun _ hc => packFields_sound _ hc, rfl⟩
  | round => exact ⟨_, withCfg_sound fun _ hc => roundExact_sound _ hc, rfl⟩
  | fromF64 =>
    exact ⟨_, withCfg_sound fun _ hc => Response.ofPV_sound (fromF64PV_wellFormed _ hc), rfl⟩
  | construct =>
    exact ⟨_, withCfg_sound fun _ hc => Response.ofPV_sound (PV.real_zero_wellFormed hc), rfl⟩
  | neg => exact ⟨_, withA_sound fun _ hA => Response.ofPV_sound (negV_wellFormed hA), rfl⟩
  | recip => exact ⟨_, withA_sound fun _ hA => Response.ofPV_sound (recV_wellFormed hA), rfl⟩
  | add | sub => exact ⟨_, withAB_sound fun _ B hA => sameCfg_sound (addV_wellFormed B _ hA), rfl⟩
  | mul => exact ⟨_, withAB_sound fun _ B hA => sameCfg_sound (mulV_wellFormed B hA), rfl⟩
  | div => exact ⟨_, withAB_sound fun _ B hA => sameCfg_sound (mulV_wellFormed _ hA), rfl⟩

theorem isSetdef_iff (i : Instr) : i.isSetdef = true ↔ ∃ cn ces, i = .setdef cn ces := by
  cases i <;> simp [Instr.isSetdef]

/-- R152: SETDEF stores the pair. -/
theorem exec_setdef (cn ces : Nat) (s : State) :
    exec (.setdef cn ces) s = .next (storeDefcfg ⟨cn, ces⟩ s) := rfl

theorem storeDefcfg_of_valid {c : Cfg} (s : State) (h : c.valid = true) :
    storeDefcfg c s = (s.setDefcfg c).respond Response.done := by simp [storeDefcfg, h]

theorem storeDefcfg_of_invalid {c : Cfg} (s : State) (h : c.valid = false) :
    storeDefcfg c s = s.raise .invalidConfiguration := by simp [storeDefcfg, h]

/-- Log entry 2: with no request presented a step changes nothing. -/
theorem step_of_pending_nil {s : State} (h : s.pending = []) : step s = .next s := by simp [step, h]

/-- R26, R36: a step accepts the oldest request and performs it. -/
theorem step_of_pending_cons {s : State} {q : Request} {rest : List Request} (h : s.pending = q :: rest) :
    step s = performRequest (s.accept q rest) := by simp [step, h]

/-- R52 step 1: the accepted request runs as the operation its command word decodes to. -/
theorem performRequest_of_decode {s : State} {i : Instr} (h : decode s.req.cmd = some i) :
    performRequest s = exec i s := by simp [performRequest, h]

/-- R53, R164 a: an illegal command word raises InvalidRequest. -/
theorem performRequest_of_illegal {s : State} (h : decode s.req.cmd = none) :
    performRequest s = .next (s.raise .invalidRequest) := by simp [performRequest, h]

/-! ## The invariant (R23, R73) -/

section Invariant
variable {s t : State}

theorem State.Inv.respond {rsp : Response} (h : s.Inv) (hr : rsp.sound) : (s.respond rsp).Inv :=
  ⟨h.1, fun _ he => Option.some.inj he ▸ hr⟩

theorem State.Inv.raise (h : s.Inv) (e : ErrCode) : (s.raise e).Inv := h.respond (Response.ofError_sound e)

theorem State.Inv.accept (h : s.Inv) (q : Request) (rest : List Request) : (s.accept q rest).Inv := h

theorem State.Inv.setDefcfg {c : Cfg} (h : s.Inv) (hc : c.valid = true) : (s.setDefcfg c).Inv :=
  ⟨(State.defcfg_setDefcfg c s hc).symm ▸ hc, h.2⟩

/-- R152: SETDEF writes a valid pair or refuses. -/
theorem storeDefcfg_keeps_inv (h : s.Inv) (c : Cfg) : (storeDefcfg c s).Inv := by
  cases hc : c.valid with
  | false =>
    rw [storeDefcfg_of_invalid s hc]
    exact h.raise _
  | true =>
    rw [storeDefcfg_of_valid s hc]
    exact (h.setDefcfg hc).respond Response.done_sound

/-- Every operation keeps the invariant: SETDEF writes valid pairs only, the others reply only. -/
theorem exec_keeps_inv {i : Instr} (h : s.Inv) (he : exec i s = .next t) : t.Inv := by
  cases hi : i.isSetdef with
  | false =>
    obtain ⟨rsp, hr, hrep⟩ := exists_sound_reply i s hi
    cases hrep.symm.trans he
    exact h.respond hr
  | true =>
    obtain ⟨cn, ces, rfl⟩ := (isSetdef_iff i).mp hi
    cases (exec_setdef cn ces s).symm.trans he
    exact storeDefcfg_keeps_inv h _

theorem performRequest_keeps_inv (h : s.Inv) (hp : performRequest s = .next t) : t.Inv := by
  cases hd : decode s.req.cmd with
  | none =>
    cases (performRequest_of_illegal hd).symm.trans hp
    exact h.raise _
  | some i => exact exec_keeps_inv h ((performRequest_of_decode hd).symm.trans hp)

theorem step_keeps_inv (h : s.Inv) (hs : step s = .next t) : t.Inv := by
  cases hq : s.pending with
  | nil =>
    cases (step_of_pending_nil hq).symm.trans hs
    exact h
  | cons q rest => exact performRequest_keeps_inv (h.accept q rest) ((step_of_pending_cons hq).symm.trans hs)

end Invariant

/-! ## Reset (R24, R181) -/

/-- R22, R24: RESET_CFG fits DEFCFG's two fields. -/
@[simp] theorem State.reset_defcfg : State.reset.defcfg = ⟨Config.resetN, Config.resetEs⟩ := by
  obtain ⟨h2, h64, hes⟩ := Config.reset_range
  have hn : Config.resetN % 2 ^ 7 = Config.resetN := Nat.mod_eq_of_lt (by omega)
  have he : Config.resetEs % 2 ^ 6 = Config.resetEs := Nat.mod_eq_of_lt (by omega)
  simp only [State.defcfg, State.reset, BitVec.toNat_ofNat, hn, he]

theorem State.reset_defcfg_validCfg : ValidCfg State.reset.defcfg :=
  State.reset_defcfg.symm ▸ Config.reset_range

/-! ## The statements -/

/-- Settles O3: by the branches of the step, each of which replies soundly or stores a valid pair. -/
theorem stepKeepsTheInvariant : Obligations.StepKeepsTheInvariant :=
  fun _ _ hinv hstep => step_keeps_inv hinv hstep

/-- Settles O6: the sound reply of each operation is a reply. -/
theorem everyOperationButSetdefOnlyReplies : Obligations.EveryOperationButSetdefOnlyReplies := by
  intro i s hi
  obtain ⟨rsp, -, hrep⟩ := exists_sound_reply i s hi
  exact ⟨rsp, hrep⟩

/-- Settles O1: the open pair fits DEFCFG's fields, so reading it back gives the pair. -/
theorem resetHoldsAValidDefault : Obligations.ResetHoldsAValidDefault :=
  ⟨State.reset_defcfg, State.reset_defcfg_validCfg⟩

/-- Settles O2: RESET_CFG is valid and the response port is empty. -/
theorem resetMeetsTheInvariant : Obligations.ResetMeetsTheInvariant := by
  refine ⟨(validCfg_iff _).mp State.reset_defcfg_validCfg, fun rsp h => ?_⟩
  simp at h

/-- Settles O4: accept the oldest request, then run what its word decodes to; with none, stand still. -/
theorem stepPerformsTheDecodedRequest : Obligations.StepPerformsTheDecodedRequest := by
  intro s
  refine ⟨fun q rest i hq hd => ?_, step_of_pending_nil⟩
  calc step s = performRequest (s.accept q rest) := step_of_pending_cons hq
    _ = exec i (s.accept q rest) := performRequest_of_decode hd

end Sys2Proof.Machine

/-! # Proofs of 20_memory.md

DEFCFG is the one state that a request leaves for the next (R28, R36): what a step that performs SETDEF leaves,
and what GETDEF and CONSTRUCT answer from it. -/

namespace Sys2Proof.Machine

/-! ## Answers read from a configuration -/

/-- R49: a valid configuration fits the CFG word. -/
theorem cfgWord_toNat {c : Cfg} (hc : c.valid = true) : (cfgWord c).toNat = c.n + c.es * 2 ^ 7 := by
  obtain ⟨h2, h64, hes⟩ := c.valid_iff.mp hc
  exact (BitVec.toNat_ofNat _ _).trans (Nat.mod_eq_of_lt (by omega))

/-- R153: GETDEF answers DEFCFG as a CFG word. -/
theorem replies_getdef (s : State) : Replies .getdef s (Response.ofAux (cfgWord s.defcfg)) := rfl

/-- R51, R151: CONSTRUCT answers zero in the configuration the request resolves to. -/
theorem replies_construct {u : Bool} {cn ces : Nat} {s : State}
    (h : (resolveCfg u cn ces s).valid = true) :
    Replies (.construct u cn ces) s (Response.ofPV (PV.real (resolveCfg u cn ces s) 0)) := by
  have hr := withCfg_of_valid (fun c => Response.ofPV (PV.real c 0)) h
  exact congrArg (fun rsp => Host.Outcome.next (s.respond rsp)) hr

/-- R43: zero of a valid configuration is what its PV word reads as. -/
theorem PV.ofWord_toWord_real_zero {c : Cfg} (hc : c.valid = true) :
    PV.ofWord (PV.real c 0).toWord = PV.real c 0 :=
  PV.ofWord_toWord_of_wellFormed (PV.real_zero_wellFormed hc)

/-! ## One step, by the operation it performs -/

section Step
variable {s : State} {q : Request} {rest : List Request} (hq : s.pending = q :: rest)
include hq

/-- R26, R36: a step runs the operation that the oldest request decodes to. -/
theorem step_of_decode {i : Instr} (hd : decode q.cmd = some i) : step s = exec i (s.accept q rest) :=
  (stepPerformsTheDecodedRequest s).1 q rest i hq hd

/-- R33: an operation that replies leaves its answer in the response port. -/
theorem step_response {i : Instr} {rsp : Response} (hd : decode q.cmd = some i)
    (h : Replies i (s.accept q rest) rsp) : ∃ t, step s = .next t ∧ t.response = some rsp :=
  ⟨_, (step_of_decode hq hd).trans h, rfl⟩

/-- R33, R152: a step that performs SETDEF of a valid pair leaves that pair in DEFCFG, and the requests after
it pending. -/
theorem step_setdef {cn ces : Nat} (hd : decode q.cmd = some (.setdef cn ces))
    (hc : Cfg.valid ⟨cn, ces⟩ = true) :
    ∃ t, step s = .next t ∧ t.defcfg = ⟨cn, ces⟩ ∧ t.pending = rest := by
  have hstep := (step_of_decode hq hd).trans (exec_setdef cn ces _)
  rw [storeDefcfg_of_valid _ hc] at hstep
  exact ⟨_, hstep, by simp [State.defcfg_setDefcfg, hc], by simp⟩

end Step

/-! ## The statement -/

/-- Settles O57: after the SETDEF step DEFCFG is the pair, and both operations answer from DEFCFG. -/
theorem setdefIsSeenByTheNextRequest : Obligations.SetdefIsSeenByTheNextRequest := by
  intro s q q' rest cn ces hq hd hvalid
  have hc : Cfg.valid ⟨cn, ces⟩ = true := (validCfg_iff _).mp hvalid
  obtain ⟨t, hstep, hdef, hpend⟩ := step_setdef hq hd hc
  have hdef' : (t.accept q' rest).defcfg = ⟨cn, ces⟩ := hdef
  refine ⟨t, hstep, fun hd' => ?_, fun m m' hd' => ?_⟩
  · obtain ⟨v, hv, hrsp⟩ := step_response hpend hd' (replies_getdef _)
    rw [hdef'] at hrsp
    exact ⟨v, _, hv, hrsp, cfgWord_toNat hc⟩
  · have hres : resolveCfg true m m' (t.accept q' rest) = ⟨cn, ces⟩ := hdef'
    obtain ⟨v, hv, hrsp⟩ := step_response hpend hd' (replies_construct (hres ▸ hc))
    rw [hres] at hrsp
    exact ⟨v, _, hv, hrsp, PV.ofWord_toWord_real_zero hc⟩

end Sys2Proof.Machine

/-! # Proofs of 30_encoding.md

The encoder, the decoder and the opcode table each say which word stands for an instruction. All three are
compared with one description, the fields of R42 read from the word (`Instr.HasWord`), so that a decoded word is
the encoded one and the table's row. After it: the illegal words (R53), the request fields an operation reads
(R48), and the configurations it reads (R49, R51). -/

namespace Sys2Proof

open Sys2Proof.Machine (slice bitNat bitNat_lt slice_lt IllegalWord step performRequest step_of_pending_cons
  performRequest_of_illegal)

/-! ## The word of an instruction, by R42's fields -/

/-- R42: the word's fields usedef, cn and ces, and zeros above them. -/
def CarriesCfg (w : CmdWord) (u : Bool) (cn ces : Nat) : Prop :=
  slice w.toNat 31 19 = 0 ∧ slice w.toNat 5 5 = bitNat u ∧ slice w.toNat 12 6 = cn ∧ slice w.toNat 18 13 = ces

/-- R42: what stands above the opcode in a word of the instruction: the configuration it carries, or zeros. -/
def Instr.CarriedBy (w : CmdWord) : Instr → Prop
  | .pack u cn ces | .round u cn ces | .fromF64 u cn ces | .construct u cn ces => CarriesCfg w u cn ces
  | .setdef cn ces => CarriesCfg w false cn ces
  | _ => slice w.toNat 31 5 = 0

/-- R42, R50: the word is that of the instruction, field by field. -/
def Instr.HasWord (i : Instr) (w : CmdWord) : Prop := slice w.toNat 4 0 = i.opcode ∧ i.CarriedBy w

theorem Instr.opcode_lt (i : Instr) : i.opcode < 32 := by
  cases i <;> simp [Instr.opcode]

/-- R42: usedef as a bit of the word and as the operand. -/
theorem slice_five_eq_iff (v : Nat) (u : Bool) : slice v 5 5 = bitNat u ↔ (slice v 5 5 == 1) = u := by
  have h : slice v 5 5 < 2 := slice_lt v 5 5
  generalize slice v 5 5 = d at h
  interval_cases d <;> cases u <;> decide

theorem getElem_five (w : CmdWord) : w[5] = (slice w.toNat 5 5 == 1) := by
  rw [BitVec.getElem_eq_testBit_toNat, Nat.testBit_eq_decide_div_mod_eq]
  rfl

/-! ## The encoder -/

/-- R42: the word of an operation without immediates is its opcode. -/
theorem encode_plain_iff {i : Instr} {w : CmdWord} (himm : i.immediates = 0) :
    encode i = w ↔ slice w.toNat 4 0 = i.opcode ∧ slice w.toNat 31 5 = 0 := by
  have hop := i.opcode_lt
  have hw := w.isLt
  simp only [encode, himm, slice, ← BitVec.toNat_inj, BitVec.toNat_ofNat]
  omega

/-- R42: the word of an operation that carries a configuration. -/
theorem encode_configured_iff {i : Instr} {w : CmdWord} {u : Bool} {cn ces : Nat}
    (himm : i.immediates = bitNat u * 2 ^ 5 + cn * 2 ^ 6 + ces * 2 ^ 13) :
    encode i = w ∧ immediatesFit cn ces = true ↔ slice w.toNat 4 0 = i.opcode ∧ CarriesCfg w u cn ces := by
  have hop := i.opcode_lt
  have hu := bitNat_lt u
  have hw := w.isLt
  simp only [encode, himm, CarriesCfg, immediatesFit, Bool.and_eq_true, decide_eq_true_eq, slice,
    ← BitVec.toNat_inj, BitVec.toNat_ofNat]
  omega

/-- R42, R50: the encoder writes the fields of a well-formed instruction. -/
theorem encode_eq_iff (i : Instr) (w : CmdWord) : encode i = w ∧ i.wf = true ↔ i.HasWord w := by
  cases i with
  | pack | round | fromF64 | construct => exact encode_configured_iff rfl
  | setdef => exact encode_configured_iff (by simp [Instr.immediates, bitNat])
  | _ => exact (and_iff_left rfl).trans (encode_plain_iff rfl)

/-! ## The decoder -/

theorem decode_eq_some_iff_decodeCmd (w : CmdWord) (i : Instr) : decode w = some i ↔ decodeCmd w = .ok i := by
  unfold decode
  split <;> simp_all

/-- R42: formats U, B and N. -/
theorem decodePlain_eq_ok_iff (v : Nat) (i j : Instr) :
    decodePlain v j = .ok i ↔ slice v 31 5 = 0 ∧ j = i := by
  unfold decodePlain
  split <;> simp_all

/-- R42: formats CX and C. -/
theorem decodeConfigured_eq_ok_iff (v : Nat) (mk : Bool → Nat → Nat → Instr) (i : Instr) :
    decodeConfigured v mk = .ok i ↔
      slice v 31 19 = 0 ∧ mk (slice v 5 5 == 1) (slice v 12 6) (slice v 18 13) = i := by
  unfold decodeConfigured
  split <;> simp_all

/-- R42, R53: SETDEF. -/
theorem decodeSetdef_eq_ok_iff (v : Nat) (i : Instr) :
    decodeSetdef v = .ok i ↔
      slice v 31 19 = 0 ∧ slice v 5 5 = 0 ∧ .setdef (slice v 12 6) (slice v 18 13) = i := by
  unfold decodeSetdef
  split
  · split <;> simp_all
  · simp_all

/-- The configuration that formats CX and C read is the one the word carries. -/
theorem carriesCfg_read {w : CmdWord} (h : slice w.toNat 31 19 = 0) :
    CarriesCfg w (slice w.toNat 5 5 == 1) (slice w.toNat 12 6) (slice w.toNat 18 13) :=
  ⟨h, (slice_five_eq_iff _ _).mpr rfl, rfl, rfl⟩

/-- R42, R50: the decoder reads the fields of the instruction. -/
theorem decodeCmd_eq_ok_iff (w : CmdWord) (i : Instr) : decodeCmd w = .ok i ↔ i.HasWord w := by
  constructor
  · intro h
    unfold decodeCmd at h
    split at h
    case h_2 hop | h_4 hop | h_6 hop | h_7 hop =>
      obtain ⟨h0, rfl⟩ := (decodeConfigured_eq_ok_iff ..).mp h
      exact ⟨hop, carriesCfg_read h0⟩
    case h_24 hop =>
      obtain ⟨h0, hu, rfl⟩ := (decodeSetdef_eq_ok_iff ..).mp h
      exact ⟨hop, h0, hu, rfl, rfl⟩
    case h_26 => nomatch h
    all_goals
      rename_i hop
      obtain ⟨h0, rfl⟩ := (decodePlain_eq_ok_iff ..).mp h
      exact ⟨hop, h0⟩
  · rintro ⟨hop, hc⟩
    unfold decodeCmd
    rw [hop]
    cases i with
    | pack u | round u | fromF64 u | construct u =>
      obtain ⟨h0, hu, rfl, rfl⟩ := hc
      rw [← (slice_five_eq_iff _ u).mp hu]
      exact (decodeConfigured_eq_ok_iff ..).mpr ⟨h0, rfl⟩
    | setdef =>
      obtain ⟨h0, hu, rfl, rfl⟩ := hc
      exact (decodeSetdef_eq_ok_iff ..).mpr ⟨h0, hu, rfl⟩
    | _ => exact (decodePlain_eq_ok_iff ..).mpr ⟨hc, rfl⟩

theorem decode_eq_some_iff (w : CmdWord) (i : Instr) : decode w = some i ↔ i.HasWord w :=
  (decode_eq_some_iff_decodeCmd w i).trans (decodeCmd_eq_ok_iff w i)

/-! ## The opcode table -/

/-- R50: the row of the table that is the instruction's. -/
def Instr.row : Instr → OpcodeRow
  | .pack _ _ _ => ⟨0xFFF8001F, 0x02, .pack⟩
  | .round _ _ _ => ⟨0xFFF8001F, 0x04, .round⟩
  | .fromF64 _ _ _ => ⟨0xFFF8001F, 0x06, .fromF64⟩
  | .construct _ _ _ => ⟨0xFFF8001F, 0x07, .construct⟩
  | .setdef _ _ => ⟨0xFFF8003F, 0x1E, fun _ cn ces => .setdef cn ces⟩
  | i => ⟨0xFFFFFFFF, BitVec.ofNat 32 i.opcode, fun _ _ _ => i⟩

/-- The instruction a row builds from the word's immediates. -/
def OpcodeRow.read (row : OpcodeRow) (w : CmdWord) : Instr :=
  row.build (w.getLsbD 5) (slice w.toNat 12 6) (slice w.toNat 18 13)

theorem Instr.row_mem (i : Instr) : i.row ∈ opcodeTable := by
  cases i <;> simp [Instr.row, opcodeTable, Instr.opcode]

/-- Each row of the table is the row of what it builds. -/
theorem row_of_read : ∀ row ∈ opcodeTable, ∀ w, (row.read w).row = row := by
  simp [opcodeTable, OpcodeRow.read, Instr.row, Instr.opcode]

/-- R50: a mask of the table keeps bits [31:19] and the lowest k bits. -/
theorem land_mask (x : Nat) {k : Nat} (hk : k ≤ 19) :
    x &&& (2 ^ 19 * (2 ^ 13 - 1) + (2 ^ k - 1)) = 2 ^ 19 * slice x 31 19 + x % 2 ^ k := by
  have hpow : 2 ^ k ≤ 2 ^ 19 := Nat.pow_le_pow_right (by decide) hk
  have hpos := Nat.two_pow_pos k
  have hmod : x % 2 ^ k < 2 ^ 19 := (Nat.mod_lt _ hpos).trans_le hpow
  refine Nat.eq_of_testBit_eq fun j => ?_
  rw [Nat.testBit_land, Nat.testBit_two_pow_mul_add _ (by omega), Nat.testBit_two_pow_mul_add _ hmod]
  split
  · simp [Bool.and_comm]
  · next hj =>
    have hj' : j - 19 + 19 = j := by omega
    simp only [slice, Nat.testBit_two_pow_sub_one, Nat.testBit_mod_two_pow, Nat.testBit_div_two_pow, hj',
      Bool.and_comm]

section Selects
variable {w v : CmdWord} {mk : Bool → Nat → Nat → Instr}

/-- R50: what a row selects, by the bits its mask keeps. -/
theorem selects_iff {k : Nat} {m : CmdWord} (hk : k ≤ 19)
    (hm : m.toNat = 2 ^ 19 * (2 ^ 13 - 1) + (2 ^ k - 1)) :
    OpcodeRow.selects ⟨m, v, mk⟩ w = true ↔ 2 ^ 19 * slice w.toNat 31 19 + w.toNat % 2 ^ k = v.toNat := by
  rw [OpcodeRow.selects, beq_iff_eq, ← BitVec.toNat_inj, BitVec.toNat_and, hm, land_mask _ hk]

/-- R42, R50: a row of format U, B or N. -/
theorem selects_plain_iff (hv : v.toNat < 32) :
    OpcodeRow.selects ⟨0xFFFFFFFF, v, mk⟩ w = true ↔
      slice w.toNat 4 0 = v.toNat ∧ slice w.toNat 31 5 = 0 := by
  have hw := w.isLt
  rw [selects_iff (k := 19) le_rfl rfl]
  simp only [slice]
  omega

/-- R42, R50: a row of format CX or C other than SETDEF's. -/
theorem selects_configured_iff (hv : v.toNat < 32) :
    OpcodeRow.selects ⟨0xFFF8001F, v, mk⟩ w = true ↔
      slice w.toNat 4 0 = v.toNat ∧ slice w.toNat 31 19 = 0 := by
  rw [selects_iff (k := 5) (by decide) rfl]
  simp only [slice]
  omega

/-- R42, R50: SETDEF's row, which keeps usedef. -/
theorem selects_setdef_iff (hv : v.toNat < 32) :
    OpcodeRow.selects ⟨0xFFF8003F, v, mk⟩ w = true ↔
      slice w.toNat 4 0 = v.toNat ∧ slice w.toNat 31 19 = 0 ∧ slice w.toNat 5 5 = 0 := by
  rw [selects_iff (k := 6) (by decide) rfl]
  simp only [slice]
  omega

end Selects

/-- R50: mask and match of an instruction's row pick out its fields. -/
theorem row_selects_iff (i : Instr) (w : CmdWord) :
    i.row.selects w = true ∧ i.row.read w = i ↔ i.HasWord w := by
  cases i with
  | pack | round | fromF64 | construct =>
    rw [Instr.row, selects_configured_iff (by decide)]
    simp [OpcodeRow.read, getElem_five, Instr.HasWord, Instr.opcode, Instr.CarriedBy, CarriesCfg,
      slice_five_eq_iff, and_assoc]
  | setdef =>
    rw [Instr.row, selects_setdef_iff (by decide)]
    simp [OpcodeRow.read, Instr.HasWord, Instr.opcode, Instr.CarriedBy, CarriesCfg, bitNat, and_assoc]
  | _ => exact (and_iff_left rfl).trans (selects_plain_iff (by decide))

/-- R50: a word decodes to what the row that selects it builds. -/
theorem decode_of_selects {row : OpcodeRow} {w : CmdWord} (hmem : row ∈ opcodeTable)
    (hsel : row.selects w = true) : decode w = some (row.read w) := by
  have hrow := row_of_read row hmem w
  refine (decode_eq_some_iff _ _).mpr ((row_selects_iff _ w).mp ?_)
  rw [hrow]
  exact ⟨hsel, rfl⟩

/-- R50: a word decodes to the instruction whose row selects it. -/
theorem decode_eq_some_iff_selects (w : CmdWord) (i : Instr) :
    decode w = some i ↔ ∃ row ∈ opcodeTable, row.selects w = true ∧ i = row.read w := by
  constructor
  · intro h
    obtain ⟨hsel, hread⟩ := (row_selects_iff i w).mpr ((decode_eq_some_iff w i).mp h)
    exact ⟨i.row, i.row_mem, hsel, hread.symm⟩
  · rintro ⟨row, hrow, hsel, rfl⟩
    exact decode_of_selects hrow hsel

/-- R50: no two rows have one match value. -/
theorem opcodeTable_values_differ : opcodeTable.Pairwise fun r r' => r.value ≠ r'.value := by decide

/-! ## Illegal words (R53) -/

theorem decode_eq_none_iff_selects (w : CmdWord) :
    decode w = none ↔ ∀ row ∈ opcodeTable, row.selects w = false := by
  rw [Option.eq_none_iff_forall_ne_some]
  constructor
  · intro h row hrow
    by_contra hsel
    exact h _ (decode_of_selects hrow (Bool.eq_true_of_not_eq_false hsel))
  · intro h i hi
    obtain ⟨row, hrow, hsel, -⟩ := (decode_eq_some_iff_selects w i).mp hi
    exact Bool.false_ne_true ((h row hrow).symm.trans hsel)

section Legal
variable {w : CmdWord} {op : Nat} (hop : slice w.toNat 4 0 = op)
include hop

/-- R53: a word of format U, B or N is legal when its bits [31:5] are 0. -/
theorem legal_plain_iff (hassigned : op ∉ [0x00, 0x0E, 0x0F, 0x15, 0x16, 0x17, 0x1D])
    (hplain : op ∉ [0x02, 0x04, 0x06, 0x07, 0x1E]) : ¬IllegalWord w ↔ slice w.toNat 31 5 = 0 := by
  have hset : op ≠ 0x1E := fun h => hplain (by simp [h])
  have hsplit : slice w.toNat 31 5 = 0 ↔ slice w.toNat 31 19 = 0 ∧ slice w.toNat 18 5 = 0 := by
    simp only [slice]
    omega
  rw [hsplit, IllegalWord, hop]
  simp only [hassigned, hplain, hset]
  tauto

/-- R53: a word of format CX or C other than SETDEF's is legal when its bits [31:19] are 0. -/
theorem legal_configured_iff (h : op ∈ [0x02, 0x04, 0x06, 0x07]) :
    ¬IllegalWord w ↔ slice w.toNat 31 19 = 0 := by
  have hop' : ∀ op ∈ [0x02, 0x04, 0x06, 0x07], op ∉ [0x00, 0x0E, 0x0F, 0x15, 0x16, 0x17, 0x1D] ∧
      op ∈ [0x02, 0x04, 0x06, 0x07, 0x1E] ∧ op ≠ 0x1E := by decide
  obtain ⟨hassigned, hconfigured, hset⟩ := hop' op h
  simp [IllegalWord, hop, hassigned, hconfigured, hset]

/-- R53: SETDEF's word is legal when its bits [31:19] and usedef are 0. -/
theorem legal_setdef_iff (h : op = 0x1E) :
    ¬IllegalWord w ↔ slice w.toNat 31 19 = 0 ∧ slice w.toNat 5 5 = 0 := by
  have h5 : slice w.toNat 5 5 < 2 := slice_lt ..
  have hassigned : 0x1E ∉ [0x00, 0x0E, 0x0F, 0x15, 0x16, 0x17, 0x1D] := by decide
  have hconfigured : 0x1E ∈ [0x02, 0x04, 0x06, 0x07, 0x1E] := by decide
  rw [IllegalWord, hop, h]
  simp only [hassigned, hconfigured, not_true_eq_false, false_and, true_and, false_or]
  omega

end Legal

/-- R53: the words that decode to an instruction are those the rule does not name. -/
theorem exists_decodeCmd_iff_legal (w : CmdWord) : (∃ i, decodeCmd w = .ok i) ↔ ¬IllegalWord w := by
  unfold decodeCmd
  split
  case h_2 hop | h_4 hop | h_6 hop | h_7 hop =>
    simpa [decodeConfigured_eq_ok_iff] using (legal_configured_iff hop (by decide)).symm
  case h_24 hop => simpa [decodeSetdef_eq_ok_iff] using (legal_setdef_iff hop rfl).symm
  case h_26 =>
    have hunassigned : slice w.toNat 4 0 ∈ [0x00, 0x0E, 0x0F, 0x15, 0x16, 0x17, 0x1D] := by
      have h : slice w.toNat 4 0 < 32 := slice_lt ..
      simp only [imp_false] at *
      simp only [List.mem_cons, List.not_mem_nil, or_false]
      omega
    simp [IllegalWord, hunassigned]
  all_goals
    rename_i hop
    simpa [decodePlain_eq_ok_iff] using (legal_plain_iff hop (by decide) (by decide)).symm

/-- R53: the words that decode to nothing are those the rule names. -/
theorem decode_eq_none_iff_illegalWord (w : CmdWord) : decode w = none ↔ IllegalWord w := by
  rw [← not_iff_not, ← exists_decodeCmd_iff_legal, ← ne_eq, Option.ne_none_iff_exists']
  exact exists_congr (decode_eq_some_iff_decodeCmd w)

/-! ## The statements about command words -/

/-- Settles O12: encoder and decoder agree with the fields of the word. -/
theorem encodeOfDecodeIsTheWord : Obligations.EncodeOfDecodeIsTheWord :=
  fun w i h => (encode_eq_iff i w).mpr ((decode_eq_some_iff w i).mp h)

/-- Settles O11: the word an instruction encodes to carries its fields, and the decoder reads them. -/
theorem decodeOfEncodeIsTheInstruction : Obligations.DecodeOfEncodeIsTheInstruction :=
  fun i hwf => (decode_eq_some_iff _ i).mpr ((encode_eq_iff i _).mp ⟨rfl, hwf⟩)

/-- Settles O9: mask and match of each row pick out the fields the decoder reads; a word that two rows select would
decode to two instructions. -/
theorem decodeAgreesWithTheOpcodeTable : Obligations.DecodeAgreesWithTheOpcodeTable := by
  refine ⟨decode_eq_some_iff_selects, opcodeTable_values_differ.imp_of_mem ?_⟩
  rintro row row' hmem hmem' hne w ⟨hsel, hsel'⟩
  have hread : row.read w = row'.read w :=
    Option.some.inj ((decode_of_selects hmem hsel).symm.trans (decode_of_selects hmem' hsel'))
  refine hne (congrArg OpcodeRow.value ?_)
  calc row = (row.read w).row := (row_of_read row hmem w).symm
    _ = (row'.read w).row := congrArg Instr.row hread
    _ = row' := row_of_read row' hmem' w

/-- Settles O10: what no row selects decodes to nothing, which the rule's words do; the step raises InvalidRequest. -/
theorem illegalCommandWordsRaiseInvalidRequest : Obligations.IllegalCommandWordsRaiseInvalidRequest := by
  refine ⟨fun w => (decode_eq_none_iff_selects w).symm.trans (decode_eq_none_iff_illegalWord w),
    fun s q rest hq hw => ?_⟩
  calc step s = performRequest (s.accept q rest) := step_of_pending_cons hq
    _ = .next ((s.accept q rest).raise .invalidRequest) :=
      performRequest_of_illegal ((decode_eq_none_iff_illegalWord _).mpr hw)

/-- Settles O8: each word is that of its well-formed instruction; the one with usedef = 1 in SETDEF is illegal. -/
theorem commandWordsDecode : Obligations.CommandWordsDecode := by
  have decode_encode := decodeOfEncodeIsTheInstruction
  exact ⟨decode_encode .unpack rfl, decode_encode (.pack false 6 2) rfl, decode_encode (.fromF64 false 16 1) rfl,
    decode_encode (.fromF64 true 0 0) rfl, decode_encode (.construct false 64 62) rfl, decode_encode .add rfl,
    decode_encode .lt rfl, decode_encode .isNeg rfl, decode_encode (.setdef 16 1) rfl,
    (decode_eq_none_iff_illegalWord _).mpr (.inr (.inr (.inr ⟨rfl, rfl⟩))), decode_encode .getdef rfl⟩

end Sys2Proof

namespace Sys2Proof.Machine

/-! ## What an operation reads (R40, R48, R51) -/

/-- An operation that only replies answers one response. -/
theorem replies_iff {i : Instr} {answer : State → Response}
    (h : ∀ s, exec i s = .next (s.respond (answer s))) (s : State) (rsp : Response) :
    Replies i s rsp ↔ answer s = rsp := by
  simp [Replies, h, State.respond]

section ReadFields
variable {s s' : State}

/-- R48: format U reads operand A. -/
theorem withA_congr (f : PV → Response) (ha : s.req.a = s'.req.a) : withA s f = withA s' f := by
  simp only [withA, ha]

/-- R48: format B reads operands A and B. -/
theorem withAB_congr (f : PV → PV → Response) (ha : s.req.a = s'.req.a) (hb : s.req.b = s'.req.b) :
    withAB s f = withAB s' f := by
  simp only [withAB, withA, ha, hb]

/-- R51: formats CX and C read DEFCFG beside the command word. -/
theorem withCfg_congr {u : Bool} {cn ces : Nat} {f f' : Cfg → Response} (hdef : s'.defcfg = s.defcfg)
    (hf : f = f') : withCfg u cn ces s f = withCfg u cn ces s' f' := by
  simp only [withCfg, resolveCfg, hdef, hf]

/-- An operation whose answer is the same in both states replies the same in both. -/
theorem replies_of_answer_eq {i : Instr} {answer : State → Response} {rsp : Response}
    (h : ∀ s, exec i s = .next (s.respond (answer s))) (heq : answer s = answer s') (hr : Replies i s rsp) :
    Replies i s' rsp :=
  (replies_iff h s' rsp).mpr (heq.symm.trans ((replies_iff h s rsp).mp hr))

end ReadFields

/-- Two operations that do the same reply the same. -/
theorem replies_congr {i j : Instr} {s : State} {rsp : Response} (h : exec i s = exec j s) :
    Replies i s rsp ↔ Replies j s rsp := by
  rw [Replies, Replies, h]

/-- R51: usedef = 1 chooses the configuration that DEFCFG's fields, written out, choose. -/
theorem withCfg_usedef (cn ces : Nat) (s : State) (f : Cfg → Response) :
    withCfg true cn ces s f = withCfg false s.defcfgN.toNat s.defcfgEs.toNat s f := rfl

/-- R49: DEFCFG fits the CFG word, whatever pair it holds. -/
theorem cfgWord_defcfg_toNat (s : State) :
    (cfgWord s.defcfg).toNat = s.defcfgN.toNat + s.defcfgEs.toNat * 2 ^ 7 := by
  have hn := s.defcfgN.isLt
  have he := s.defcfgEs.isLt
  exact (BitVec.toNat_ofNat _ _).trans (Nat.mod_eq_of_lt (by simp only [State.defcfg]; omega))

/-! ## The statements about operands and configurations -/

/-- Settles O7: each format's prologue hands the operation equal operands in both states. -/
theorem unnamedRequestFieldsAreIgnored : Obligations.UnnamedRequestFieldsAreIgnored := by
  intro i s s' rsp hset hdef hreq hr
  cases i with
  | setdef => nomatch hset
  | getdef => exact replies_of_answer_eq (fun _ => rfl) (by rw [hdef]) hr
  | pack | round | fromF64 =>
    exact replies_of_answer_eq (fun _ => rfl) (withCfg_congr hdef (by rw [hreq])) hr
  | construct => exact replies_of_answer_eq (fun _ => rfl) (withCfg_congr hdef rfl) hr
  | add | sub | mul | div | eq | gt | ge | lt | le =>
    obtain ⟨ha, hb⟩ := hreq
    exact replies_of_answer_eq (fun _ => rfl) (withAB_congr _ ha (hb rfl)) hr
  | _ => exact replies_of_answer_eq (fun _ => rfl) (withA_congr _ hreq.1) hr

/-- Settles O56: the CFG word holds DEFCFG's two fields side by side. -/
theorem getdefAnswersTheDefault : Obligations.GetdefAnswersTheDefault := by
  intro s
  have hn := s.defcfgN.isLt
  have he := s.defcfgEs.isLt
  refine ⟨cfgWord s.defcfg, replies_getdef s, ?_⟩
  rw [cfgWord_defcfg_toNat]
  simp only [slice]
  omega

/-- Settles O58: the four operations answer through the configuration the request resolves to. -/
theorem usedefReadsTheDefault : Obligations.UsedefReadsTheDefault := by
  intro s cn ces rsp
  refine ⟨?_, ?_, ?_, ?_⟩ <;>
    exact replies_congr (congrArg (fun answer => Host.Outcome.next (s.respond answer)) (withCfg_usedef ..))

end Sys2Proof.Machine

/-! # Proofs of 40_codec.md

The codec bit by bit: the regime scan stops at the longest run (R63), the split below it reads the bits that are left
(R66), and encode emits the bit string S (R69). A pattern and the pattern packed from its fields have equal bits
(R72). After it: the FIELDS word read back (R45), and what UNPACK and PACK answer (R74, R75). -/

namespace Sys2Proof.Machine

/-! ## Patterns by their bits -/

/-- Patterns of w bits with equal bits, from bit w - 1 down, are equal. -/
theorem eq_of_testBit_downward {a b w : Nat} (ha : a < 2 ^ w) (hb : b < 2 ^ w)
    (h : ∀ j < w, a.testBit (w - 1 - j) = b.testBit (w - 1 - j)) : a = b := by
  refine Nat.eq_of_testBit_eq fun i => ?_
  by_cases hi : i < w
  · have hj : w - 1 - (w - 1 - i) = i := by omega
    simpa [hj] using h (w - 1 - i) (by omega)
  · have hpow : 2 ^ w ≤ 2 ^ i := Nat.pow_le_pow_right (by decide) (by omega)
    rw [Nat.testBit_lt_two_pow (ha.trans_le hpow), Nat.testBit_lt_two_pow (hb.trans_le hpow)]

/-- The slice of one bit is that bit. -/
theorem slice_self_beq_one (v i : Nat) : (slice v i i == 1) = v.testBit i := by
  have h : i + 1 - i = 1 := by omega
  rw [slice, h, Nat.testBit_eq_decide_div_mod_eq]
  rfl

/-! ## The regime (R63, R65) -/

theorem runLength_succ_of_eq {m i : Nat} {b : Bool} (h : m.testBit i = b) :
    runLength m b (i + 1) = runLength m b i + 1 := by simp [runLength, h]

theorem runLength_succ_of_ne {m i : Nat} {b : Bool} (h : m.testBit i ≠ b) : runLength m b (i + 1) = 0 := by
  simp [runLength, h]

section RunLength
variable (m : Nat) (b : Bool)

theorem runLength_le (i : Nat) : runLength m b i ≤ i := by
  induction i with
  | zero => exact le_rfl
  | succ i ih =>
    by_cases h : m.testBit i = b
    · rw [runLength_succ_of_eq h]
      omega
    · rw [runLength_succ_of_ne h]
      omega

/-- R63: the run is of bits b. -/
theorem testBit_of_lt_runLength {i j : Nat} (hj : j < runLength m b i) : m.testBit (i - 1 - j) = b := by
  induction i generalizing j with
  | zero => nomatch hj
  | succ i ih =>
    by_cases h : m.testBit i = b
    · rw [runLength_succ_of_eq h] at hj
      cases j with
      | zero => exact h
      | succ j =>
        have hij : i + 1 - 1 - (j + 1) = i - 1 - j := by omega
        exact hij ▸ ih (by omega)
    · rw [runLength_succ_of_ne h] at hj
      nomatch hj

/-- R63: the run is the longest, since the bit below it differs. -/
theorem testBit_runLength {i : Nat} (hlt : runLength m b i < i) : m.testBit (i - 1 - runLength m b i) = !b := by
  induction i with
  | zero => nomatch hlt
  | succ i ih =>
    by_cases h : m.testBit i = b
    · rw [runLength_succ_of_eq h] at hlt ⊢
      have hij : i + 1 - 1 - (runLength m b i + 1) = i - 1 - runLength m b i := by omega
      exact hij ▸ ih (by omega)
    · rw [runLength_succ_of_ne h]
      exact Bool.eq_not_of_ne h

end RunLength

section Regime
variable {m n : Nat}

theorem regimeDecode_b0 (m n : Nat) : (regimeDecode m n).b0 = m.testBit (n - 2) := rfl

theorem regimeDecode_r_le (m n : Nat) : (regimeDecode m n).r ≤ n - 1 := runLength_le _ _ _

/-- R63: the run holds at least the bit that starts it. -/
theorem regimeDecode_r_pos (hn : 2 ≤ n) : 1 ≤ (regimeDecode m n).r := by
  obtain ⟨i, rfl⟩ := Nat.exists_eq_add_of_le' hn
  have hr : (regimeDecode m (i + 2)).r = runLength m (m.testBit i) i + 1 := runLength_succ_of_eq rfl
  omega

theorem regimeDecode_t_iff (m n : Nat) : (regimeDecode m n).t = true ↔ (regimeDecode m n).r < n - 1 :=
  decide_eq_true_iff

theorem regimeDecode_k_of_ones (h : (regimeDecode m n).b0 = true) :
    (regimeDecode m n).k = ((regimeDecode m n).r : Int) - 1 := if_pos h

theorem regimeDecode_k_of_zeros (h : (regimeDecode m n).b0 = false) :
    (regimeDecode m n).k = -((regimeDecode m n).r : Int) := if_neg (Bool.eq_false_iff.mp h)

theorem testBit_of_lt_regime {j : Nat} (hj : j < (regimeDecode m n).r) :
    m.testBit (n - 2 - j) = (regimeDecode m n).b0 := testBit_of_lt_runLength m _ hj

theorem testBit_terminator (h : (regimeDecode m n).r < n - 1) :
    m.testBit (n - 2 - (regimeDecode m n).r) = !(regimeDecode m n).b0 := testBit_runLength m _ h

/-- R65: a run of zeros ends, since the pattern is not 0. -/
theorem regimeDecode_r_lt_of_zeros (h0 : 0 < m) (hm : m < 2 ^ (n - 1)) (hb : (regimeDecode m n).b0 = false) :
    (regimeDecode m n).r < n - 1 := by
  by_contra hr
  refine h0.ne' (eq_of_testBit_downward hm (Nat.two_pow_pos _) fun j hj => ?_)
  rw [Nat.zero_testBit, ← hb]
  exact testBit_of_lt_regime (by omega)

/-- R65: the run exhausts the body exactly for the all-ones body. -/
theorem regimeDecode_r_eq_iff (hn : 2 ≤ n) (h0 : 0 < m) (hm : m < 2 ^ (n - 1)) :
    (regimeDecode m n).r = n - 1 ↔ m = 2 ^ (n - 1) - 1 := by
  constructor
  · intro hr
    have hb : (regimeDecode m n).b0 = true := by
      by_contra hb
      have := regimeDecode_r_lt_of_zeros h0 hm (Bool.eq_false_iff.mpr hb)
      omega
    refine eq_of_testBit_downward hm (by omega) fun j hj => ?_
    have hbit : m.testBit (n - 1 - 1 - j) = true := (testBit_of_lt_regime (by omega)).trans hb
    simp [hbit, Nat.testBit_two_pow_sub_one]
    omega
  · intro hones
    have hbits : ∀ i < n - 1, m.testBit i = true := fun i hi => by
      simp [hones, Nat.testBit_two_pow_sub_one, hi]
    by_contra hr
    have hlt : (regimeDecode m n).r < n - 1 := lt_of_le_of_ne (regimeDecode_r_le m n) hr
    have hterm := testBit_terminator hlt
    rw [hbits _ (by omega), regimeDecode_b0, hbits _ (by omega)] at hterm
    nomatch hterm

/-- R63: the run and its bit are read back from k: k is not below 0 exactly for a run of ones. -/
theorem regimeDecode_k_cases (hn : 2 ≤ n) (h0 : 0 < m) (hm : m < 2 ^ (n - 1)) :
    (regimeDecode m n).b0 = true ∧ 0 ≤ (regimeDecode m n).k ∧
        (regimeDecode m n).k = ((regimeDecode m n).r : Int) - 1 ∨
      (regimeDecode m n).b0 = false ∧ (regimeDecode m n).k < 0 ∧
        (regimeDecode m n).k = -((regimeDecode m n).r : Int) ∧ (regimeDecode m n).r < n - 1 := by
  have hpos := regimeDecode_r_pos (m := m) hn
  cases hb : (regimeDecode m n).b0 with
  | true =>
    have hk := regimeDecode_k_of_ones hb
    exact .inl ⟨rfl, by omega, hk⟩
  | false =>
    have hk := regimeDecode_k_of_zeros hb
    exact .inr ⟨rfl, by omega, hk, regimeDecode_r_lt_of_zeros h0 hm hb⟩

/-- R63: the range of k. -/
theorem regimeDecode_k_range (hn : 2 ≤ n) (h0 : 0 < m) (hm : m < 2 ^ (n - 1)) :
    -((n : Int) - 2) ≤ (regimeDecode m n).k ∧ (regimeDecode m n).k ≤ (n : Int) - 2 := by
  have hle := regimeDecode_r_le m n
  rcases regimeDecode_k_cases hn h0 hm with ⟨-, hk0, hk⟩ | ⟨-, hk0, hk, hlt⟩ <;> omega

end Regime

/-- R69, R76: the length of the regime run that k stands for. -/
def regimeRun (k : Int) : Nat := if 0 ≤ k then k.toNat + 1 else (-k).toNat

theorem budget_eq (c : Cfg) (k : Int) :
    budget c k =
      let reglen := min (regimeRun k + 1) (c.n - 1)
      let eb := min c.es (c.n - 1 - reglen)
      ⟨regimeRun k, reglen, eb, c.n - 1 - reglen - eb⟩ := rfl

theorem regimeRun_regimeDecode {m n : Nat} (hn : 2 ≤ n) (h0 : 0 < m) (hm : m < 2 ^ (n - 1)) :
    regimeRun (regimeDecode m n).k = (regimeDecode m n).r := by
  have hpos := regimeDecode_r_pos (m := m) hn
  unfold regimeRun
  rcases regimeDecode_k_cases hn h0 hm with ⟨-, hk0, hk⟩ | ⟨-, hk0, hk, -⟩
  · rw [if_pos hk0]
    omega
  · rw [if_neg (by omega)]
    omega

theorem regimeDecode_k_nonneg {m n : Nat} (hn : 2 ≤ n) (h0 : 0 < m) (hm : m < 2 ^ (n - 1)) :
    decide (0 ≤ (regimeDecode m n).k) = (regimeDecode m n).b0 := by
  rcases regimeDecode_k_cases hn h0 hm with ⟨hb, hk, -⟩ | ⟨hb, hk, -⟩ <;> simp [hb, hk]

/-! ## The bits below the regime (R64, R66) -/

/-- R64: the number of bits below the terminator. -/
def restLength (n r : Nat) (t : Bool) : Nat := if t then n - 2 - r else 0

section Split
variable (m n es r : Nat) (t : Bool)

theorem splitRest_eb : (splitRest m n es r t).eb = min es (restLength n r t) := rfl

theorem splitRest_fb : (splitRest m n es r t).fb = restLength n r t - (splitRest m n es r t).eb := rfl

theorem splitRest_eb_add_fb : (splitRest m n es r t).eb + (splitRest m n es r t).fb = restLength n r t := by
  rw [splitRest_fb, splitRest_eb]
  omega

theorem splitRest_eb_le : (splitRest m n es r t).eb ≤ es := Nat.min_le_left _ _

theorem splitRest_e : (splitRest m n es r t).e =
    m / 2 ^ (splitRest m n es r t).fb % 2 ^ (splitRest m n es r t).eb * 2 ^ (es - (splitRest m n es r t).eb) := rfl

theorem splitRest_f_lt : (splitRest m n es r t).f < 2 ^ (splitRest m n es r t).fb := Nat.mod_lt _ (Nat.two_pow_pos _)

theorem splitRest_e_lt : (splitRest m n es r t).e < 2 ^ es := by
  have heb := splitRest_eb_le m n es r t
  rw [splitRest_e]
  calc _ < 2 ^ (splitRest m n es r t).eb * 2 ^ (es - (splitRest m n es r t).eb) :=
        Nat.mul_lt_mul_of_pos_right (Nat.mod_lt _ (Nat.two_pow_pos _)) (Nat.two_pow_pos _)
    _ = 2 ^ es := by rw [← Nat.pow_add, Nat.add_sub_cancel' heb]

/-- R66: the exponent bits that are present are the high-order bits of e. -/
theorem splitRest_e_testBit {j : Nat} (hj : j < (splitRest m n es r t).eb) :
    (splitRest m n es r t).e.testBit (es - 1 - j) = m.testBit (restLength n r t - 1 - j) := by
  have heb := splitRest_eb_le m n es r t
  have hsum := splitRest_eb_add_fb m n es r t
  have hpos : es - 1 - j - (es - (splitRest m n es r t).eb) + (splitRest m n es r t).fb =
      restLength n r t - 1 - j := by omega
  rw [splitRest_e, Nat.testBit_mul_two_pow, Nat.testBit_mod_two_pow, Nat.testBit_div_two_pow, hpos,
    decide_eq_true (by omega), decide_eq_true (by omega), Bool.true_and, Bool.true_and]

/-- R66: the exponent bits that did not fit are 0. -/
theorem splitRest_e_testBit_missing {j : Nat} (hj : j < es - (splitRest m n es r t).eb) :
    (splitRest m n es r t).e.testBit j = false := by
  rw [splitRest_e, Nat.testBit_mul_two_pow, decide_eq_false (by omega), Bool.false_and]

theorem splitRest_f_testBit {j : Nat} (hj : j < (splitRest m n es r t).fb) :
    (splitRest m n es r t).f.testBit j = m.testBit j := by
  have hf : (splitRest m n es r t).f = m % 2 ^ (splitRest m n es r t).fb := rfl
  simp [hf, hj]

end Split

/-- R64, R76: the length of the run with its terminator, and what it leaves of the body. -/
theorem reglen_eq {n r : Nat} {t : Bool} (hr : r ≤ n - 1) (ht : t = true ↔ r < n - 1) :
    min (r + 1) (n - 1) = (if t then r + 1 else r) ∧ n - 1 - min (r + 1) (n - 1) = restLength n r t := by
  cases t with
  | true =>
    have hlt := ht.mp rfl
    simp only [restLength, if_true]
    omega
  | false =>
    have hlt := mt ht.mpr Bool.false_ne_true
    simp only [restLength, Bool.false_eq_true, if_false]
    omega

/-- R76: the widths depend on the pattern through k alone. -/
theorem budget_regimeDecode {c : Cfg} {m : Nat} (hn : 2 ≤ c.n) (h0 : 0 < m) (hm : m < 2 ^ (c.n - 1)) :
    let g := regimeDecode m c.n
    let s := splitRest m c.n c.es g.r g.t
    budget c g.k = ⟨g.r, if g.t then g.r + 1 else g.r, s.eb, s.fb⟩ := by
  intro g s
  obtain ⟨hlen, hrest⟩ := reglen_eq (regimeDecode_r_le m c.n) (regimeDecode_t_iff m c.n)
  have hrun : regimeRun g.k = g.r := regimeRun_regimeDecode hn h0 hm
  simp only [budget_eq, hrun]
  rw [hrest, hlen]
  rfl

/-! ## Encode (R69 to R71) -/

section PackString
variable {b : Bool} {r es e fw f : Nat}

theorem packString_run {j : Nat} (hj : j < r) : packString b r es e fw f j = b := if_pos hj

theorem packString_terminator : packString b r es e fw f r = !b := by simp [packString]

theorem packString_exponent {i : Nat} (hi : i < es) :
    packString b r es e fw f (r + 1 + i) = e.testBit (es - 1 - i) := by
  rw [packString, if_neg (by omega), if_neg (by omega), if_pos (by omega), Nat.add_sub_cancel_left]

theorem packString_fraction {i : Nat} (hi : i < fw) :
    packString b r es e fw f (r + 1 + es + i) = f.testBit (fw - 1 - i) := by
  rw [packString, if_neg (by omega), if_neg (by omega), if_neg (by omega), if_pos (by omega),
    Nat.add_sub_cancel_left]

theorem packString_zeros {j : Nat} (hj : r + 1 + es + fw ≤ j) : packString b r es e fw f j = false := by
  rw [packString, if_neg (by omega), if_neg (by omega), if_neg (by omega), if_neg (by omega)]

/-- R69: a place of S lies in the run, on the terminator, in e, in f, or among the zeros. -/
theorem packString_place (r es fw j : Nat) :
    j < r ∨ j = r ∨ (∃ i < es, j = r + 1 + i) ∨ (∃ i < fw, j = r + 1 + es + i) ∨ r + 1 + es + fw ≤ j := by
  rcases Nat.lt_trichotomy j r with h | h | h
  · exact .inl h
  · exact .inr (.inl h)
  · by_cases hexp : j < r + 1 + es
    · exact .inr (.inr (.inl ⟨j - (r + 1), by omega, by omega⟩))
    · by_cases hfrac : j < r + 1 + es + fw
      · exact .inr (.inr (.inr (.inl ⟨j - (r + 1 + es), by omega, by omega⟩)))
      · exact .inr (.inr (.inr (.inr (by omega))))

/-- R69: the bit string S up to the last bit of f, as a number of `r + 1 + es + fw` bits. -/
def bitString (b : Bool) (r es e fw f : Nat) : Nat :=
  2 ^ fw * (2 ^ es * (2 ^ 1 * (if b then 2 ^ r - 1 else 0) + bitNat !b) + e) + f

/-- R69: the bits of that number, the highest first, are those of the string. -/
theorem bitString_testBit {j : Nat} (he : e < 2 ^ es) (hf : f < 2 ^ fw) (hj : j < r + 1 + es + fw) :
    (bitString b r es e fw f).testBit (r + 1 + es + fw - 1 - j) = packString b r es e fw f j := by
  have hb : bitNat (!b) < 2 ^ 1 := bitNat_lt _
  rw [bitString, Nat.testBit_two_pow_mul_add _ hf, Nat.testBit_two_pow_mul_add _ he,
    Nat.testBit_two_pow_mul_add _ hb]
  rcases packString_place r es fw j with hrun | rfl | ⟨i, hi, rfl⟩ | ⟨i, hi, rfl⟩ | hzeros
  · have hpos : r + 1 + es + fw - 1 - j - fw - es - 1 < r := by omega
    rw [if_neg (by omega), if_neg (by omega), if_neg (by omega), packString_run hrun]
    cases b <;> simp [Nat.testBit_two_pow_sub_one, hpos]
  · have hpos : j + 1 + es + fw - 1 - j - fw - es = 0 := by omega
    rw [if_neg (by omega), if_neg (by omega), if_pos (by omega), packString_terminator, hpos]
    cases b <;> rfl
  · rw [if_neg (by omega), if_pos (by omega), packString_exponent hi]
    congr 1
    omega
  · rw [if_pos (by omega), packString_fraction hi]
    congr 1
    omega
  · omega

end PackString

/-- R69: in range the packed magnitude is the string clipped to n - 1 bits. -/
theorem packMag_of_range {c : Cfg} {k : Int} (hlo : -((c.n : Int) - 2) ≤ k) (hhi : k ≤ (c.n : Int) - 2)
    (e fw f : Nat) :
    packMag c k e fw f =
      bitString (decide (0 ≤ k)) (regimeRun k) c.es e fw f * 2 ^ (c.n - 1) /
        2 ^ (regimeRun k + 1 + c.es + fw) := by
  have hstring : bitString (decide (0 ≤ k)) (regimeRun k) c.es e fw f =
      (if 0 ≤ k then 2 ^ regimeRun k - 1 else 0) * 2 ^ (1 + c.es + fw) +
        (if 0 ≤ k then 0 else 1) * 2 ^ (c.es + fw) + e * 2 ^ fw + f := by
    by_cases hk : 0 ≤ k
    · simp [bitString, hk, bitNat]
      ring
    · simp [bitString, hk, bitNat]
      ring
  rw [hstring, packMag, if_neg (by omega), if_neg (by omega)]
  rfl

section PackMag
variable {c : Cfg} {k : Int} {e fw f : Nat}

/-- R69: in range the packed magnitude holds the first n - 1 bits of S. -/
theorem packMag_testBit (hlo : -((c.n : Int) - 2) ≤ k) (hhi : k ≤ (c.n : Int) - 2) (he : e < 2 ^ c.es)
    (hf : f < 2 ^ fw) {j : Nat} (hj : j < c.n - 1) :
    (packMag c k e fw f).testBit (c.n - 2 - j) = packString (decide (0 ≤ k)) (regimeRun k) c.es e fw f j := by
  rw [packMag_of_range hlo hhi, Nat.testBit_div_two_pow, Nat.testBit_mul_two_pow]
  by_cases hin : j < regimeRun k + 1 + c.es + fw
  · have hpos : c.n - 2 - j + (regimeRun k + 1 + c.es + fw) - (c.n - 1) =
        regimeRun k + 1 + c.es + fw - 1 - j := by omega
    rw [decide_eq_true (by omega), Bool.true_and, hpos, bitString_testBit he hf hin]
  · rw [decide_eq_false (by omega), Bool.false_and, packString_zeros (by omega)]

/-- R69: S has a 1 among its first n - 1 bits, in its run or as its terminator. -/
theorem packMag_pos_of_range (hn : 2 ≤ c.n) (hlo : -((c.n : Int) - 2) ≤ k) (hhi : k ≤ (c.n : Int) - 2)
    (he : e < 2 ^ c.es) (hf : f < 2 ^ fw) : 0 < packMag c k e fw f := by
  have hbit : ∃ j < c.n - 1, packString (decide (0 ≤ k)) (regimeRun k) c.es e fw f j = true := by
    by_cases hk : 0 ≤ k
    · refine ⟨0, by omega, ?_⟩
      rw [packString_run (by simp [regimeRun, hk]), decide_eq_true hk]
    · refine ⟨regimeRun k, by simp only [regimeRun, hk, if_false]; omega, ?_⟩
      rw [packString_terminator, decide_eq_false hk, Bool.not_false]
  obtain ⟨j, hj, hset⟩ := hbit
  rw [← packMag_testBit hlo hhi he hf hj] at hset
  exact (Nat.two_pow_pos _).trans_le (Nat.ge_two_pow_of_testBit hset)

theorem packMag_of_gt (h : (c.n : Int) - 2 < k) (e fw f : Nat) : packMag c k e fw f = 2 ^ (c.n - 1) - 1 :=
  if_pos h

theorem packMag_of_lt (hn : 2 ≤ c.n) (h : k < -((c.n : Int) - 2)) (e fw f : Nat) : packMag c k e fw f = 1 := by
  rw [packMag, if_neg (by omega), if_pos h]

/-- R69, R70: a packed magnitude is not 0, whatever k is. -/
theorem packMag_pos (hn : 2 ≤ c.n) (he : e < 2 ^ c.es) (hf : f < 2 ^ fw) : 0 < packMag c k e fw f := by
  by_cases hhi : (c.n : Int) - 2 < k
  · have hone : 1 < 2 ^ (c.n - 1) := Nat.one_lt_two_pow (by omega)
    rw [packMag_of_gt hhi]
    omega
  · by_cases hlo : k < -((c.n : Int) - 2)
    · rw [packMag_of_lt hn hlo]
      exact Nat.one_pos
    · exact packMag_pos_of_range hn (by omega) (by omega) he hf

end PackMag

/-! ## The fields of a pattern (R62, R67, R72) -/

section MagFields
variable {c : Cfg} {m : Nat}

theorem magFields_e_lt (sign : Bool) : (magFields c sign m).e < 2 ^ c.es := splitRest_e_lt ..

theorem magFields_f_lt (sign : Bool) : (magFields c sign m).f < 2 ^ (magFields c sign m).fb :=
  splitRest_f_lt ..

theorem magFields_widths (sign : Bool) :
    (magFields c sign m).eb = min c.es (restLength c.n (magFields c sign m).r (magFields c sign m).t) ∧
    (magFields c sign m).fb =
      restLength c.n (magFields c sign m).r (magFields c sign m).t - (magFields c sign m).eb := ⟨rfl, rfl⟩

/-- R66: at least the run's first bit, its terminator and the sign bit are no fraction bits. -/
theorem magFields_fb_le (sign : Bool) (hn : 2 ≤ c.n) : (magFields c sign m).fb ≤ c.n - 3 := by
  have hr : 1 ≤ (magFields c sign m).r := regimeDecode_r_pos hn
  rw [(magFields_widths sign).2, restLength]
  split <;> omega

/-- R72: the string S of a pattern's fields is the pattern, bit by bit. -/
theorem packString_magFields (sign : Bool) {j : Nat} (hj : j < c.n - 1) :
    let F := magFields c sign m
    packString F.b0 F.r c.es F.e F.fb F.f j = m.testBit (c.n - 2 - j) := by
  intro F
  obtain ⟨heb, hfb⟩ : F.eb = min c.es (restLength c.n F.r F.t) ∧ F.fb = restLength c.n F.r F.t - F.eb :=
    magFields_widths sign
  have hrest : F.r < c.n - 1 → restLength c.n F.r F.t = c.n - 2 - F.r := fun h =>
    if_pos ((regimeDecode_t_iff m c.n).mpr h)
  rcases packString_place F.r c.es F.fb j with hrun | rfl | ⟨i, hi, rfl⟩ | ⟨i, hi, rfl⟩ | hzeros
  · rw [packString_run hrun]
    exact (testBit_of_lt_regime hrun).symm
  · rw [packString_terminator]
    exact (testBit_terminator hj).symm
  · have hpos : restLength c.n F.r F.t - 1 - i = c.n - 2 - (F.r + 1 + i) := by omega
    rw [packString_exponent hi, ← hpos]
    exact splitRest_e_testBit _ _ _ _ _ (show i < F.eb by omega)
  · have hpos : F.fb - 1 - i = c.n - 2 - (F.r + 1 + c.es + i) := by omega
    rw [packString_fraction hi, ← hpos]
    exact splitRest_f_testBit _ _ _ _ _ (show F.fb - 1 - i < F.fb by omega)
  · omega

/-- R72: packing the fields of a magnitude pattern gives it back. -/
theorem packMag_magFields (sign : Bool) (hn : 2 ≤ c.n) (h0 : 0 < m) (hm : m < 2 ^ (c.n - 1)) :
    let F := magFields c sign m
    packMag c F.k F.e F.fb F.f = m := by
  intro F
  obtain ⟨hlo, hhi⟩ : -((c.n : Int) - 2) ≤ F.k ∧ F.k ≤ (c.n : Int) - 2 := regimeDecode_k_range hn h0 hm
  have he : F.e < 2 ^ c.es := magFields_e_lt sign
  have hf : F.f < 2 ^ F.fb := magFields_f_lt sign
  have hb : decide (0 ≤ F.k) = F.b0 := regimeDecode_k_nonneg hn h0 hm
  have hr : regimeRun F.k = F.r := regimeRun_regimeDecode hn h0 hm
  refine eq_of_testBit_downward (packMag_lt hn he hf) hm fun j hj => ?_
  calc (packMag c F.k F.e F.fb F.f).testBit (c.n - 2 - j)
      = packString F.b0 F.r c.es F.e F.fb F.f j := by rw [packMag_testBit hlo hhi he hf hj, hb, hr]
    _ = m.testBit (c.n - 2 - j) := packString_magFields sign hj

end MagFields

/-! ## Classes (R61, R62) -/

section Decoded
variable {v : PV}

theorem PV.decoded_of_nan (h : v.nan = true) : v.decoded = .nan := if_pos h

theorem PV.decoded_of_zero (h : v.nan = false) (h0 : v.bits = 0) : v.decoded = .zero := by
  simp [PV.decoded, h, h0]

theorem PV.decoded_of_inf (h : v.nan = false) (hinf : v.bits = 2 ^ (v.n - 1)) : v.decoded = .inf := by
  simp [PV.decoded, h, hinf, infPat]

theorem PV.decoded_of_fin (h : v.nan = false) (h0 : v.bits ≠ 0) (hinf : v.bits ≠ 2 ^ (v.n - 1)) :
    v.decoded = .fin v.fields := by
  simp [PV.decoded, h, h0, hinf, infPat]

/-- R61: one of the four classes applies. -/
theorem PV.decoded_cases (v : PV) :
    v.nan = true ∧ v.decoded = .nan ∨
    v.nan = false ∧ v.bits = 0 ∧ v.decoded = .zero ∨
    v.nan = false ∧ v.bits = 2 ^ (v.n - 1) ∧ v.decoded = .inf ∨
    v.nan = false ∧ v.bits ≠ 0 ∧ v.bits ≠ 2 ^ (v.n - 1) ∧ v.decoded = .fin v.fields := by
  cases hnan : v.nan with
  | true => exact .inl ⟨rfl, PV.decoded_of_nan hnan⟩
  | false =>
    by_cases h0 : v.bits = 0
    · exact .inr (.inl ⟨rfl, h0, PV.decoded_of_zero hnan h0⟩)
    · by_cases hinf : v.bits = 2 ^ (v.n - 1)
      · exact .inr (.inr (.inl ⟨rfl, hinf, PV.decoded_of_inf hnan hinf⟩))
      · exact .inr (.inr (.inr ⟨rfl, h0, hinf, PV.decoded_of_fin hnan h0 hinf⟩))

theorem PV.cls_eq_fin_iff :
    v.cls = .fin ↔ v.nan = false ∧ v.bits ≠ 0 ∧ v.bits ≠ 2 ^ (v.n - 1) := by
  have hpow := Nat.two_pow_pos (v.n - 1)
  rcases v.decoded_cases with ⟨h, hd⟩ | ⟨h, h0, hd⟩ | ⟨h, hinf, hd⟩ | ⟨h, h0, hinf, hd⟩ <;>
    simp [PV.cls, *]

/-- R62: the magnitude of a finite value is a magnitude pattern. -/
theorem PV.mag_range (hwf : v.wellFormed = true) (hfin : v.cls = .fin) : 0 < v.mag ∧ v.mag < 2 ^ (v.n - 1) := by
  obtain ⟨hc, hlt⟩ := v.wellFormed_iff.mp hwf
  obtain ⟨hn, -, -⟩ : 2 ≤ v.n ∧ _ := v.cfg.valid_iff.mp hc
  obtain ⟨-, h0, hinf⟩ := PV.cls_eq_fin_iff.mp hfin
  have hdouble : 2 ^ (v.n - 1) * 2 = 2 ^ v.n := Nat.two_pow_pred_mul_two (by omega)
  have hsign : v.sign = decide (2 ^ (v.n - 1) ≤ v.bits) := by
    by_cases hge : 2 ^ (v.n - 1) ≤ v.bits
    · have hlt' : v.bits < 2 ^ (v.n - 1 + 1) := by rwa [Nat.sub_add_cancel (by omega)]
      simp [PV.sign, hge, Nat.testBit_of_two_pow_le_and_two_pow_add_one_gt hge hlt']
    · simp [PV.sign, hge, Nat.testBit_lt_two_pow (not_le.mp hge)]
  rw [PV.mag, hsign, negN_of_pos (by omega) hlt]
  by_cases hge : 2 ^ (v.n - 1) ≤ v.bits
  · rw [if_pos (decide_eq_true hge)]
    omega
  · rw [if_neg (by simpa using hge)]
    omega

end Decoded

/-! ## The statements about patterns and fields -/

/-- Settles O23: by equal bits of the magnitudes; the two's complement taken twice gives a negative pattern back. -/
theorem packOfFieldsIsThePattern : Obligations.PackOfFieldsIsThePattern := by
  intro v hwf hfin
  obtain ⟨hc, hlt⟩ := v.wellFormed_iff.mp hwf
  obtain ⟨h0, hm⟩ := PV.mag_range hwf hfin
  have hmag : packMag v.cfg v.fields.k v.fields.e v.fields.fb v.fields.f = v.mag :=
    packMag_magFields v.sign (v.cfg.valid_iff.mp hc).1 h0 hm
  have hsign : v.fields.sign = v.sign := rfl
  rw [packBits, hmag, hsign, PV.mag]
  split
  · exact negN_negN hlt
  · rfl

/-- Settles O18: by the run, which is maximal, and the case split on the bit that it repeats. -/
theorem regimeRunIsMaximal : Obligations.RegimeRunIsMaximal := by
  intro n m hn h0 hm g
  have hle : g.r ≤ n - 1 := regimeDecode_r_le m n
  have ht : g.t = true ↔ g.r < n - 1 := regimeDecode_t_iff m n
  obtain ⟨hlo, hhi⟩ : -((n : Int) - 2) ≤ g.k ∧ g.k ≤ (n : Int) - 2 := regimeDecode_k_range hn h0 hm
  have hones : g.t = false ↔ m = 2 ^ (n - 1) - 1 := by
    rw [← regimeDecode_r_eq_iff hn h0 hm, ← Bool.not_eq_true, ht]
    change ¬g.r < n - 1 ↔ g.r = n - 1
    omega
  refine ⟨rfl, regimeDecode_r_pos hn, hle, fun _ => testBit_of_lt_regime, testBit_terminator, ht,
    regimeDecode_k_of_ones, fun hb => ?_, hlo, hhi, hones⟩
  have hlt : g.r < n - 1 := regimeDecode_r_lt_of_zeros h0 hm hb
  exact ⟨regimeDecode_k_of_zeros hb, by omega, ht.mpr hlt⟩

/-- Settles O19: the exponent is cut from above the fraction and moved to the top of its field. -/
theorem splitReadsTheRemainingBits : Obligations.SplitReadsTheRemainingBits := by
  intro c m hc h0 hm F nrem
  have hfb : F.fb ≤ c.n - 3 := magFields_fb_le false hc.1
  exact ⟨rfl, rfl, hfb, magFields_e_lt false, magFields_f_lt false,
    fun _ => splitRest_e_testBit m c.n c.es F.r F.t, fun _ => splitRest_e_testBit_missing m c.n c.es F.r F.t,
    fun _ => splitRest_f_testBit m c.n c.es F.r F.t⟩

/-- Settles O20: the budget of a pattern's k is its regime and its split. -/
theorem budgetGivesTheFieldWidths : Obligations.BudgetGivesTheFieldWidths := by
  intro c m hc h0 hm F
  have h : budget c F.k = ⟨F.r, if F.t then F.r + 1 else F.r, F.eb, F.fb⟩ := budget_regimeDecode hc.1 h0 hm
  simp only [h, and_self]

/-- Settles O21: by the bits of S, of which one in the run or the terminator is set. -/
theorem packMagIsTheClippedBitString : Obligations.PackMagIsTheClippedBitString := by
  intro c k e fw f hc hlo hhi he hf
  exact ⟨packMag_pos hc.1 he hf, packMag_lt hc.1 he hf, fun _ => packMag_testBit hlo hhi he hf⟩

/-- Settles O22: a packed magnitude m has `0 < m < 2^(n-1)`, so neither it nor `2^n - m` is 0 or infinity. -/
theorem packSaturatesAndStaysFinite : Obligations.PackSaturatesAndStaysFinite := by
  intro c sign k e fw f hc he hf
  have h0 : 0 < packMag c k e fw f := packMag_pos hc.1 he hf
  have hm : packMag c k e fw f < 2 ^ (c.n - 1) := packMag_lt hc.1 he hf
  have hdouble : 2 ^ (c.n - 1) * 2 = 2 ^ c.n := Nat.two_pow_pred_mul_two (Nat.zero_lt_of_lt hc.1)
  have hbits : packBits c sign k e fw f =
      if sign then 2 ^ c.n - packMag c k e fw f else packMag c k e fw f := by
    rw [packBits, negN_of_pos h0 (by omega)]
  refine ⟨fun h => packMag_of_gt h e fw f, fun h => packMag_of_lt hc.1 h e fw f, hbits, ?_⟩
  rw [hbits]
  split <;> omega

/-- Settles O17: by the four cases of R61. -/
theorem classIsTheFirstThatApplies : Obligations.ClassIsTheFirstThatApplies := by
  intro v _
  have hpow := (Nat.two_pow_pos (v.n - 1)).ne'
  rcases v.decoded_cases with ⟨h, hd⟩ | ⟨h, h0, hd⟩ | ⟨h, hinf, hd⟩ | ⟨h, h0, hinf, hd⟩
  · simp [PV.cls, hd, h]
  · simp [PV.cls, hd, h, h0, hpow.symm]
  · simp [PV.cls, hd, h, hinf]
  · simp [PV.cls, hd, h, h0, hinf]

/-! ## The FIELDS word (R45, R74) -/

/-- R10, R11: the signed reading of w bits gives back an integer written in them. -/
theorem signedOf_wrapInt {w : Nat} {v : Int} (hw : 0 < w) (hlo : -((2 ^ (w - 1) : Nat) : Int) ≤ v)
    (hhi : v < ((2 ^ (w - 1) : Nat) : Int)) : signedOf w (wrapInt w v) = v := by
  have hpow : 2 ^ (w - 1) * 2 = 2 ^ w := Nat.two_pow_pred_mul_two hw
  by_cases hv : 0 ≤ v
  · have hwrap : wrapInt w v = v.toNat := by
      rw [wrapInt, Int.emod_eq_of_lt hv (by omega)]
    rw [hwrap, signedOf, Nat.testBit_lt_two_pow (by omega), if_neg Bool.false_ne_true]
    omega
  · have hwrap : wrapInt w v = (v + (2 ^ w : Nat)).toNat := by
      rw [wrapInt, ← Int.add_emod_right, Int.emod_eq_of_lt (by omega) (by omega)]
    have hlt : (v + (2 ^ w : Nat)).toNat < 2 ^ (w - 1 + 1) := by
      rw [Nat.sub_add_cancel hw]
      omega
    rw [hwrap, signedOf, Nat.testBit_of_two_pow_le_and_two_pow_add_one_gt (by omega) hlt, if_pos rfl]
    omega

theorem wrapInt_lt (w : Nat) (v : Int) : wrapInt w v < 2 ^ w := by
  have hpow : (0 : Int) < ((2 ^ w : Nat) : Int) := Int.natCast_pos.mpr (Nat.two_pow_pos w)
  have hnonneg := Int.emod_nonneg v hpow.ne'
  have hlt := Int.emod_lt_of_pos v hpow
  unfold wrapInt
  omega

/-- R45: the fields fit their places in a FIELDS word. -/
structure Fields.Fits (F : Fields) : Prop where
  f : F.f < 2 ^ 64
  e : F.e < 2 ^ 64
  fb : F.fb < 2 ^ 6
  eb : F.eb < 2 ^ 6
  k_lo : -128 ≤ F.k
  k_hi : F.k < 128
  r : F.r < 2 ^ 7

theorem Fields.Fits.signedOf_wrapInt_k {F : Fields} (h : F.Fits) : signedOf 8 (wrapInt 8 F.k) = F.k := by
  obtain ⟨-, -, -, -, hlo, hhi, -⟩ := h
  have hpow : ((2 ^ (8 - 1) : Nat) : Int) = 128 := rfl
  exact signedOf_wrapInt (by decide) (by omega) (by omega)

/-- R45: the FIELDS word of a finite value as a number; its class code is 0. -/
theorem fieldsWord_fin_toNat {F : Fields} (h : F.Fits) :
    (fieldsWord (.fin F)).toNat =
      F.f + F.e * 2 ^ 64 + F.fb * 2 ^ 128 + F.eb * 2 ^ 134 + wrapInt 8 F.k * 2 ^ 140 + F.r * 2 ^ 148 +
        bitNat F.t * 2 ^ 155 + bitNat F.sign * 2 ^ 156 := by
  obtain ⟨hf, he, hfb, heb, -, -, hr⟩ := h
  have hk := wrapInt_lt 8 F.k
  have ht := bitNat_lt F.t
  have hs := bitNat_lt F.sign
  have hcode : PClass.fin.code = 0 := rfl
  unfold fieldsWord
  rw [BitVec.toNat_ofNat, hcode]
  omega

/-- R45: each field of a FIN FIELDS word at its place. -/
theorem fieldsWord_fin_slices {F : Fields} (h : F.Fits) :
    let y := (fieldsWord (.fin F)).toNat
    slice y 63 0 = F.f ∧ slice y 127 64 = F.e ∧ slice y 133 128 = F.fb ∧ slice y 139 134 = F.eb ∧
      slice y 147 140 = wrapInt 8 F.k ∧ slice y 154 148 = F.r ∧ slice y 155 155 = bitNat F.t ∧
      slice y 156 156 = bitNat F.sign ∧ slice y 158 157 = 0 ∧ slice y 159 159 = 0 := by
  have hy := fieldsWord_fin_toNat h
  obtain ⟨hf, he, hfb, heb, -, -, hr⟩ := h
  have hk := wrapInt_lt 8 F.k
  have ht := bitNat_lt F.t
  have hs := bitNat_lt F.sign
  simp only [hy, slice]
  refine ⟨?_, ?_, ?_, ?_, ?_, ?_, ?_, ?_, ?_, ?_⟩
  all_goals omega

/-- R45: the FIELDS word of a finite value, read as PACK reads it. -/
theorem ofWord_fieldsWord_fin {F : Fields} (h : F.Fits) :
    FieldsIn.ofWord (fieldsWord (.fin F)) = ⟨.fin, F.sign, F.k, F.e, F.fb, F.f⟩ := by
  obtain ⟨hf, he, hfb, -, hk, -, -, hs, hcls, -⟩ := fieldsWord_fin_slices h
  simp only [FieldsIn.ofWord, hf, he, hfb, hk, hs, hcls, h.signedOf_wrapInt_k, bitNat_beq_one]
  rfl

/-- R45: in every configuration the fields of a finite value fit. -/
theorem PV.fields_fits {v : PV} (hwf : v.wellFormed = true) (hfin : v.cls = .fin) : v.fields.Fits := by
  obtain ⟨hn, h64, hes⟩ : 2 ≤ v.n ∧ v.n ≤ 64 ∧ v.es ≤ v.n - 2 := v.cfg.valid_iff.mp (v.wellFormed_iff.mp hwf).1
  obtain ⟨h0, hm⟩ := PV.mag_range hwf hfin
  obtain ⟨hlo, hhi⟩ : -((v.n : Int) - 2) ≤ v.fields.k ∧ v.fields.k ≤ (v.n : Int) - 2 :=
    regimeDecode_k_range hn h0 hm
  have hr : v.fields.r ≤ v.n - 1 := regimeDecode_r_le v.mag v.n
  have heb : v.fields.eb ≤ v.es := (magFields_widths v.sign).1.trans_le (Nat.min_le_left _ _)
  have hfb : v.fields.fb ≤ v.n - 3 := magFields_fb_le v.sign hn
  have he : v.fields.e < 2 ^ v.es := magFields_e_lt v.sign
  have hf : v.fields.f < 2 ^ v.fields.fb := magFields_f_lt v.sign
  exact {
    f := hf.trans_le (Nat.pow_le_pow_right (by decide) (by omega))
    e := he.trans_le (Nat.pow_le_pow_right (by decide) (by omega))
    fb := by omega
    eb := by omega
    k_lo := by omega
    k_hi := by omega
    r := by omega }

/-! ## UNPACK and PACK (R74, R75) -/

/-- R74: UNPACK answers the FIELDS word of an operand that loads. -/
theorem replies_unpack {s : State} {A : PV} (h : Loads s.req.a A) :
    RepliesAux .unpack s (fieldsWord A.decoded) :=
  (replies_iff (fun _ => rfl) s _).mpr (withA_of_loads _ h)

/-- R51, R75: PACK with a valid configuration answers the value that the FIELDS word gives. -/
theorem repliesPV_pack {u : Bool} {cn ces : Nat} {s : State} {v : PV} (h : (resolveCfg u cn ces s).valid = true)
    (hv : packFields (resolveCfg u cn ces s) (FieldsIn.ofWord s.req.x) = Response.ofPV v) :
    RepliesPV (.pack u cn ces) s v :=
  (replies_iff (fun _ => rfl) s _).mpr ((withCfg_of_valid _ h).trans hv)

section PackFields
variable {c : Cfg} {X : FieldsIn}

theorem packFields_of_zero (h : X.cls = .zero) : packFields c X = Response.ofPV (PV.real c 0) := by
  simp [packFields, h]

theorem packFields_of_inf (h : X.cls = .inf) : packFields c X = Response.ofPV (PV.infOf c) := by
  simp [packFields, h]

theorem packFields_of_nan (h : X.cls = .nan) : packFields c X = Response.ofPV (PV.nanOf c) := by
  simp [packFields, h]

/-- R164 b: a FIN FIELDS word whose e or f does not fit its field. -/
theorem packFields_of_misfit (h : X.cls = .fin) (hbad : 2 ^ c.es ≤ X.e ∨ 2 ^ X.fb ≤ X.f) :
    packFields c X = Response.ofError .invalidRequest := by
  simp [packFields, h, hbad]

theorem packFields_of_fin (h : X.cls = .fin) (he : X.e < 2 ^ c.es) (hf : X.f < 2 ^ X.fb) :
    packFields c X = Response.ofPV (PV.real c (packBits c X.sign X.k X.e X.fb X.f)) := by
  simp [packFields, h, he, hf]

end PackFields

/-- R61, R12: a value that is not a NaN is its bits in its configuration. -/
theorem PV.real_cfg_bits {v : PV} (h : v.nan = false) : PV.real v.cfg v.bits = v := by
  obtain ⟨bits, n, es, nan⟩ := v
  cases h
  rfl

/-- R72, R75: PACK of the FIELDS word of a value that is not a NaN answers the value. -/
theorem packFields_fieldsWord {v : PV} (hwf : v.wellFormed = true) (hnan : v.nan = false) :
    packFields v.cfg (FieldsIn.ofWord (fieldsWord v.decoded)) = Response.ofPV v := by
  rcases v.decoded_cases with ⟨h, -⟩ | ⟨-, h0, hd⟩ | ⟨-, hinf, hd⟩ | ⟨-, h0, hinf, hd⟩
  · exact absurd (hnan.symm.trans h) Bool.false_ne_true
  · rw [hd, packFields_of_zero rfl, ← h0, PV.real_cfg_bits hnan]
  · have hbits : infPat v.cfg.n = v.bits := hinf.symm
    rw [hd, packFields_of_inf rfl, PV.infOf, hbits, PV.real_cfg_bits hnan]
  · have hfin : v.cls = .fin := PV.cls_eq_fin_iff.mpr ⟨hnan, h0, hinf⟩
    rw [hd, ofWord_fieldsWord_fin (PV.fields_fits hwf hfin),
      packFields_of_fin rfl (magFields_e_lt v.sign) (magFields_f_lt v.sign),
      packOfFieldsIsThePattern v hwf hfin, PV.real_cfg_bits hnan]

/-! ## Every value written to r is well-formed (R73) -/

/-- R73: an answer that reports no error holds a well-formed value. -/
def Response.WritesWellFormed (rsp : Response) : Prop := rsp.err = .ok → (PV.ofWord rsp.r).wellFormed = true

theorem Response.ofError_writes {e : ErrCode} (h : e ≠ .ok) : (Response.ofError e).WritesWellFormed :=
  fun hok => absurd hok h

theorem Response.ofPV_writes {v : PV} (h : v.wellFormed = true) : (Response.ofPV v).WritesWellFormed :=
  fun _ => (PV.ofWord_toWord_of_wellFormed h).symm ▸ h

theorem withA_writes {s : State} {f : PV → PV} (h : ∀ A, A.wellFormed = true → (f A).wellFormed = true) :
    (withA s fun A => Response.ofPV (f A)).WritesWellFormed :=
  withA_elim (fun _ => Response.ofError_writes (by decide)) fun A hA => Response.ofPV_writes (h A hA.wellFormed)

theorem withAB_writes {s : State} {f : PV → PV → PV}
    (h : ∀ A B, A.wellFormed = true → (f A B).wellFormed = true) :
    (withAB s fun A B => sameCfg A B (f A B)).WritesWellFormed :=
  withAB_elim (fun _ => Response.ofError_writes (by decide)) fun A B hA _ =>
    sameCfg_elim (fun _ => Response.ofError_writes (by decide)) fun _ => Response.ofPV_writes (h A B hA.wellFormed)

theorem withCfg_writes {u : Bool} {cn ces : Nat} {s : State} {f : Cfg → Response}
    (h : ∀ c, c.valid = true → (f c).WritesWellFormed) : (withCfg u cn ces s f).WritesWellFormed :=
  withCfg_elim (fun _ => Response.ofError_writes (by decide)) (h _)

theorem packFields_writes {c : Cfg} (X : FieldsIn) (hc : c.valid = true) : (packFields c X).WritesWellFormed := by
  cases hcls : X.cls with
  | zero => exact packFields_of_zero hcls ▸ Response.ofPV_writes (PV.real_zero_wellFormed hc)
  | inf => exact packFields_of_inf hcls ▸ Response.ofPV_writes (PV.infOf_wellFormed hc)
  | nan => exact packFields_of_nan hcls ▸ Response.ofPV_writes (PV.nanOf_wellFormed hc)
  | fin =>
    by_cases hbad : 2 ^ c.es ≤ X.e ∨ 2 ^ X.fb ≤ X.f
    · exact packFields_of_misfit hcls hbad ▸ Response.ofError_writes (by decide)
    · obtain ⟨he, hf⟩ : X.e < 2 ^ c.es ∧ X.f < 2 ^ X.fb := by omega
      exact packFields_of_fin hcls he hf ▸ Response.ofPV_writes
        (PV.real_wellFormed hc (packBits_lt _ (c.valid_iff.mp hc).1 he hf))

theorem roundExact_writes {c : Cfg} (X : ExactIn) (hc : c.valid = true) : (roundExact c X).WritesWellFormed := by
  unfold roundExact
  split
  · exact Response.ofPV_writes (PV.real_zero_wellFormed hc)
  · exact Response.ofPV_writes (PV.infOf_wellFormed hc)
  · exact Response.ofPV_writes (PV.nanOf_wellFormed hc)
  · split
    · exact Response.ofPV_writes (PV.rounded_wellFormed _ hc)
    · exact Response.ofError_writes (by decide)

/-- R73: each of the operations that write r answers an error or a well-formed value. -/
theorem exists_wellFormed_reply (i : Instr) (s : State) (hi : i.writesR = true) :
    ∃ rsp : Response, rsp.WritesWellFormed ∧ Replies i s rsp := by
  cases i with
  | pack => exact ⟨_, withCfg_writes fun _ hc => packFields_writes _ hc, rfl⟩
  | round => exact ⟨_, withCfg_writes fun _ hc => roundExact_writes _ hc, rfl⟩
  | fromF64 =>
    exact ⟨_, withCfg_writes fun _ hc => Response.ofPV_writes (fromF64PV_wellFormed _ hc), rfl⟩
  | construct =>
    exact ⟨_, withCfg_writes fun _ hc => Response.ofPV_writes (PV.real_zero_wellFormed hc), rfl⟩
  | neg => exact ⟨_, withA_writes fun _ => negV_wellFormed, rfl⟩
  | recip => exact ⟨_, withA_writes fun _ => recV_wellFormed, rfl⟩
  | add | sub => exact ⟨_, withAB_writes fun _ B => addV_wellFormed B _, rfl⟩
  | mul => exact ⟨_, withAB_writes fun _ B => mulV_wellFormed B, rfl⟩
  | div => exact ⟨_, withAB_writes fun _ B => mulV_wellFormed (recV B), rfl⟩
  | _ => nomatch hi

/-! ## The statements about UNPACK, PACK and the values written -/

/-- Settles O26: the FIELDS word reads back as the fields, and the fields pack to the operand. -/
theorem unpackThenPackIsTheOperand : Obligations.UnpackThenPackIsTheOperand := by
  intro s t A y hA hnan hy hx
  have hword : Response.ofAux (fieldsWord A.decoded) = Response.ofAux y :=
    (withA_of_loads _ hA).symm.trans ((replies_iff (fun _ => rfl) s _).mp hy)
  have hy' : t.req.x = fieldsWord A.decoded := hx.trans (congrArg Response.y hword).symm
  refine repliesPV_pack (PV.cfg_valid_of_wellFormed hA.wellFormed) ?_
  rw [hy']
  exact packFields_fieldsWord hA.wellFormed hnan

/-- Settles O24: by the places of the FIELDS word, where the fields of a finite value fit. -/
theorem unpackReportsTheFields : Obligations.UnpackReportsTheFields := by
  intro s A hA
  refine ⟨_, replies_unpack hA, ?_⟩
  rcases A.decoded_cases with ⟨h, hd⟩ | ⟨h, h0, hd⟩ | ⟨h, hinf, hd⟩ | ⟨h, h0, hinf, hd⟩
  · exact ⟨by simp [PV.cls, hd], by simp [PV.cls, hd], fun _ => hd ▸ rfl, by simp [PV.cls, hd]⟩
  · exact ⟨fun _ => hd ▸ rfl, by simp [PV.cls, hd], by simp [PV.cls, hd], by simp [PV.cls, hd]⟩
  · exact ⟨by simp [PV.cls, hd], fun _ => hd ▸ rfl, by simp [PV.cls, hd], by simp [PV.cls, hd]⟩
  · have hfits := PV.fields_fits hA.wellFormed (PV.cls_eq_fin_iff.mpr ⟨h, h0, hinf⟩)
    obtain ⟨hf, he, hfb, heb, hk, hr, ht, hs, hcls, htop⟩ := fieldsWord_fin_slices hfits
    refine ⟨by simp [PV.cls, hd], by simp [PV.cls, hd], by simp [PV.cls, hd], fun _ => ?_⟩
    rw [hd, ← slice_self_beq_one _ 155, ← slice_self_beq_one _ 156, ← slice_self_beq_one _ 159, hk, ht, hs, htop,
      bitNat_beq_one, bitNat_beq_one]
    exact ⟨hf, he, hfb, heb, hfits.signedOf_wrapInt_k, hr, rfl, rfl, hcls, rfl⟩

/-- Settles O25: PACK answers from the class code, and for FIN from the fields. -/
theorem packAnswers : Obligations.PackAnswers := by
  rintro u cn ces s c x rfl hc rfl
  have hc' : (resolveCfg u cn ces s).valid = true := (validCfg_iff _).mp hc
  have hcls : (FieldsIn.ofWord s.req.x).cls = PClass.ofCode (slice s.req.x.toNat 158 157) := rfl
  refine ⟨fun h => ?_, fun h => ?_, fun h => ?_, fun h he hf => ?_⟩ <;> rw [h] at hcls
  · exact repliesPV_pack hc' (packFields_of_zero hcls)
  · exact repliesPV_pack hc' (packFields_of_inf hcls)
  · exact repliesPV_pack hc' (packFields_of_nan hcls)
  · rw [← slice_self_beq_one]
    exact repliesPV_pack hc' (packFields_of_fin hcls he hf)

/-- Settles O59: the reply of each of the ten operations is an error or a well-formed value. -/
theorem everyWrittenValueIsWellFormed : Obligations.EveryWrittenValueIsWellFormed := by
  intro i s t rsp hi he ht
  obtain ⟨rsp', hwrites, hrep⟩ := exists_wellFormed_reply i s hi
  cases hrep.symm.trans he
  cases ht
  exact hwrites

end Sys2Proof.Machine

/-! # Proofs of 41_converter.md

Rounding rests on how the values lie along the patterns: the patterns of one regime value are a block (R63), in which
and between which each pattern has a value below its successor's (R83, R92). So x lies between one pattern and the
next, the nearer of which is both what the search answers and what the operational form answers (R88, R91). After
it: the EXACT word and binary64 read back, and what the four operations answer (R93 to R100). -/

namespace Sys2Proof.Machine

/-! ## The block of patterns of one regime value (R63, R64, R76)

The magnitude patterns with regime value k are a run of `2^(eb + fb)` patterns, and the next run begins where it
ends; inside it the exponent bits kept and the fraction count up. -/

/-- R63: the first magnitude pattern whose regime value is k. -/
def blockStart (c : Cfg) (k : Int) : Nat :=
  if 0 ≤ k then 2 ^ (c.n - 1) - 2 ^ (c.n - 1 - regimeRun k) else 2 ^ (c.n - 2 - regimeRun k)

/-- R64: the pattern in the block of k whose kept exponent bits are h and whose fraction is f. -/
def blockPattern (c : Cfg) (k : Int) (h f : Nat) : Nat := blockStart c k + (h * 2 ^ (budget c k).fb + f)

/-- R63, R66: k is a regime value of the configuration, and h and f fit the widths that it leaves. -/
structure IsPlace (c : Cfg) (k : Int) (h f : Nat) : Prop where
  k_lo : -((c.n : Int) - 2) ≤ k
  k_hi : k ≤ (c.n : Int) - 2
  h_lt : h < 2 ^ (budget c k).eb
  f_lt : f < 2 ^ (budget c k).fb

/-- Above w bits of f, a number of s bits makes one of s + w bits. -/
theorem mul_two_pow_add_lt {a f s w : Nat} (ha : a < 2 ^ s) (hf : f < 2 ^ w) : a * 2 ^ w + f < 2 ^ (s + w) :=
  calc a * 2 ^ w + f < (a + 1) * 2 ^ w := by linarith
    _ ≤ 2 ^ s * 2 ^ w := Nat.mul_le_mul_right _ ha
    _ = 2 ^ (s + w) := (Nat.pow_add ..).symm

/-- A number of s bits moved to the top of t bits. -/
theorem mul_two_pow_sub_lt {a s t : Nat} (ha : a < 2 ^ s) (hst : s ≤ t) : a * 2 ^ (t - s) < 2 ^ t :=
  calc a * 2 ^ (t - s) < 2 ^ s * 2 ^ (t - s) := Nat.mul_lt_mul_of_pos_right ha (Nat.two_pow_pos _)
    _ = 2 ^ t := by rw [← pow_add, Nat.add_sub_cancel' hst]

section Block
variable {c : Cfg} {k : Int} {h f : Nat}

theorem regimeRun_of_nonneg (hk : 0 ≤ k) : (regimeRun k : Int) = k + 1 := by
  rw [regimeRun, if_pos hk]
  omega

theorem regimeRun_of_neg (hk : k < 0) : (regimeRun k : Int) = -k := by
  rw [regimeRun, if_neg (by omega)]
  omega

theorem blockStart_of_nonneg (hk : 0 ≤ k) :
    blockStart c k = 2 ^ (c.n - 1) - 2 ^ (c.n - 1 - regimeRun k) := if_pos hk

theorem blockStart_of_neg (hk : k < 0) : blockStart c k = 2 ^ (c.n - 2 - regimeRun k) := if_neg (by omega)

theorem budget_eb_add_fb (c : Cfg) (k : Int) : (budget c k).eb + (budget c k).fb = c.n - 2 - regimeRun k := by
  simp only [budget_eq]
  omega

theorem budget_eb_le (c : Cfg) (k : Int) : (budget c k).eb ≤ c.es := by
  simp only [budget_eq]
  omega

/-- R64: a fraction bit is kept only where the whole exponent field is. -/
theorem budget_eb_eq_or_fb_eq_zero (c : Cfg) (k : Int) : (budget c k).eb = c.es ∨ (budget c k).fb = 0 := by
  simp only [budget_eq]
  omega

theorem IsPlace.offset_lt (p : IsPlace c k h f) :
    h * 2 ^ (budget c k).fb + f < 2 ^ (c.n - 2 - regimeRun k) :=
  budget_eb_add_fb c k ▸ mul_two_pow_add_lt p.h_lt p.f_lt

/-- R63: the block of k + 1 begins where the block of k ends. -/
theorem blockStart_add_two_pow (hlo : -((c.n : Int) - 2) ≤ k) (hhi : k < (c.n : Int) - 2) :
    blockStart c k + 2 ^ (c.n - 2 - regimeRun k) = blockStart c (k + 1) := by
  rcases lt_trichotomy k (-1) with hk | rfl | hk
  · have hrun := regimeRun_of_neg (show k < 0 by omega)
    have hrun' := regimeRun_of_neg (show k + 1 < 0 by omega)
    have hexp : c.n - 2 - regimeRun (k + 1) = c.n - 2 - regimeRun k + 1 := by omega
    rw [blockStart_of_neg (by omega), blockStart_of_neg (by omega), hexp, pow_succ, mul_two]
  · obtain ⟨i, hi⟩ : ∃ i, c.n = i + 3 := ⟨c.n - 3, by omega⟩
    simp [blockStart, regimeRun, hi, pow_succ]
    omega
  · have hrun := regimeRun_of_nonneg (show 0 ≤ k by omega)
    have hrun' := regimeRun_of_nonneg (show 0 ≤ k + 1 by omega)
    have hexp : c.n - 1 - regimeRun (k + 1) = c.n - 2 - regimeRun k := by omega
    have hexp' : c.n - 1 - regimeRun k = c.n - 2 - regimeRun k + 1 := by omega
    have hle : 2 ^ (c.n - 2 - regimeRun k + 1) ≤ 2 ^ (c.n - 1) := Nat.pow_le_pow_right (by decide) (by omega)
    rw [blockStart_of_nonneg (by omega), blockStart_of_nonneg (by omega), hexp, hexp']
    rw [pow_succ] at hle ⊢
    omega

/-- R63: the blocks of smaller regime values lie below. -/
theorem blockStart_add_two_pow_le {l : Int} (hlo : -((c.n : Int) - 2) ≤ k) (hkl : k + 1 ≤ l)
    (hhi : l ≤ (c.n : Int) - 2) : blockStart c k + 2 ^ (c.n - 2 - regimeRun k) ≤ blockStart c l := by
  induction l, hkl using Int.leInduction with
  | base => exact (blockStart_add_two_pow hlo (by omega)).le
  | succ l hkl ih =>
    rw [← blockStart_add_two_pow (k := l) (by omega) (by omega)]
    exact (ih (by omega)).trans (Nat.le_add_right _ _)

/-- R65: the block of the largest regime value is the all-ones body alone. -/
theorem blockStart_last (hn : 2 ≤ c.n) : blockStart c ((c.n : Int) - 2) = 2 ^ (c.n - 1) - 1 := by
  have hrun := regimeRun_of_nonneg (show 0 ≤ (c.n : Int) - 2 by omega)
  have hexp : c.n - 1 - regimeRun ((c.n : Int) - 2) = 0 := by omega
  rw [blockStart_of_nonneg (by omega), hexp, pow_zero]

theorem blockStart_first (hn : 2 ≤ c.n) : blockStart c (-((c.n : Int) - 2)) = 1 := by
  rcases hn.eq_or_lt with h2 | h2
  · simp [blockStart, regimeRun, ← h2]
  · have hrun := regimeRun_of_neg (show -((c.n : Int) - 2) < 0 by omega)
    have hexp : c.n - 2 - regimeRun (-((c.n : Int) - 2)) = 0 := by omega
    rw [blockStart_of_neg (by omega), hexp, pow_zero]

theorem blockStart_zero (hn : 2 ≤ c.n) : blockStart c 0 = 2 ^ (c.n - 2) := by
  have hdouble : 2 ^ (c.n - 1) = 2 ^ (c.n - 2) * 2 := by
    rw [← pow_succ]
    congr 1
    omega
  have hexp : c.n - 1 - regimeRun 0 = c.n - 2 := by
    have hrun := regimeRun_of_nonneg (le_refl 0)
    omega
  rw [blockStart_of_nonneg le_rfl, hexp, hdouble]
  omega

/-- R69: the string S as its regime with the terminator and the bits of e and f below it. -/
theorem bitString_eq (b : Bool) (r es e fw f : Nat) :
    bitString b r es e fw f =
      (2 * (if b then 2 ^ r - 1 else 0) + bitNat !b) * 2 ^ (es + fw) + (e * 2 ^ fw + f) := by
  rw [bitString]
  ring

/-- Clipping a number to the bits above its lowest s, of which w are kept. -/
theorem clip_add (a g s w d : Nat) :
    (a * 2 ^ s + g) * 2 ^ (w + d) / 2 ^ (d + s) = a * 2 ^ w + g * 2 ^ w / 2 ^ s := by
  have hsplit : (a * 2 ^ s + g) * 2 ^ (w + d) = 2 ^ d * (g * 2 ^ w + 2 ^ s * (a * 2 ^ w)) := by ring
  rw [hsplit, pow_add 2 d, Nat.mul_div_mul_left _ _ (Nat.two_pow_pos d),
    Nat.add_mul_div_left _ _ (Nat.two_pow_pos s), add_comm]

/-- R63, R69: the regime of a run that has its terminator, with zeros below it, is the first pattern of its block. -/
theorem regime_mul_two_pow (hrun : regimeRun k + 2 ≤ c.n) :
    (2 * (if decide (0 ≤ k) = true then 2 ^ regimeRun k - 1 else 0) + bitNat !decide (0 ≤ k)) *
      2 ^ (c.n - 2 - regimeRun k) = blockStart c k := by
  rcases lt_or_ge k 0 with hk | hk
  · rw [blockStart_of_neg hk, decide_eq_false hk.not_ge]
    simp [bitNat]
  · have hexp : c.n - 1 - regimeRun k = 1 + (c.n - 2 - regimeRun k) := by omega
    have hbody : 2 ^ regimeRun k * 2 ^ (1 + (c.n - 2 - regimeRun k)) = 2 ^ (c.n - 1) := by
      rw [← pow_add]
      congr 1
      omega
    rw [blockStart_of_nonneg hk, decide_eq_true hk, if_pos rfl, Bool.not_true, bitNat, if_neg Bool.false_ne_true,
      add_zero, hexp, ← hbody, ← Nat.sub_one_mul, pow_add]
    ring

/-- R69: a packed magnitude is the first pattern of its block and, above it, the kept bits of e and f. The run of
the largest regime value has no terminator in the body, and no bit below it is kept. -/
theorem packMag_eq_blockStart_add {e fw : Nat} (hlo : -((c.n : Int) - 2) ≤ k) (hhi : k ≤ (c.n : Int) - 2)
    (he : e < 2 ^ c.es) (hf : f < 2 ^ fw) :
    packMag c k e fw f =
      blockStart c k + (e * 2 ^ fw + f) * 2 ^ (c.n - 2 - regimeRun k) / 2 ^ (c.es + fw) := by
  rw [packMag_of_range hlo hhi, bitString_eq]
  rcases hhi.eq_or_lt with rfl | hlt
  · have hk : 0 ≤ (c.n : Int) - 2 := by omega
    have hrun := regimeRun_of_nonneg hk
    have hbody : c.n - 1 = 0 + regimeRun ((c.n : Int) - 2) := by omega
    have hbelow : c.n - 2 - regimeRun ((c.n : Int) - 2) = 0 := by omega
    have hlow := mul_two_pow_add_lt he hf
    have hlow' : e * 2 ^ fw + f < 2 ^ (c.es + fw + 1) :=
      hlow.trans (Nat.pow_lt_pow_right (by decide) (Nat.lt_succ_self _))
    have hdouble : ∀ a, (2 * a + 0) * 2 ^ (c.es + fw) = a * 2 ^ (c.es + fw + 1) := fun a => by ring
    have hlen : regimeRun ((c.n : Int) - 2) + 1 + c.es + fw =
        regimeRun ((c.n : Int) - 2) + (c.es + fw + 1) := by omega
    rw [blockStart_last (by omega), decide_eq_true hk, if_pos rfl, Bool.not_true, bitNat,
      if_neg Bool.false_ne_true, hdouble, hlen, hbelow, hbody, clip_add, pow_zero, mul_one, mul_one,
      Nat.div_eq_of_lt hlow, Nat.div_eq_of_lt hlow', zero_add]
  · have hrun : regimeRun k + 2 ≤ c.n := by
      rcases lt_or_ge k 0 with hk | hk
      · have := regimeRun_of_neg hk
        omega
      · have := regimeRun_of_nonneg hk
        omega
    have hbody : c.n - 1 = c.n - 2 - regimeRun k + (regimeRun k + 1) := by omega
    rw [← regime_mul_two_pow hrun, ← clip_add _ _ _ _ (regimeRun k + 1), ← hbody, add_assoc (regimeRun k + 1)]

/-- R66: the kept exponent bits, moved to the top of their field, are an exponent. -/
theorem IsPlace.exponent_lt (p : IsPlace c k h f) : h * 2 ^ (c.es - (budget c k).eb) < 2 ^ c.es :=
  mul_two_pow_sub_lt p.h_lt (budget_eb_le c k)

/-- R69, R76: packing a place's fields gives its pattern. -/
theorem IsPlace.packMag_eq (p : IsPlace c k h f) :
    packMag c k (h * 2 ^ (c.es - (budget c k).eb)) (budget c k).fb f = blockPattern c k h f := by
  have heb := budget_eb_le c k
  rw [packMag_eq_blockStart_add p.k_lo p.k_hi p.exponent_lt p.f_lt, blockPattern, ← budget_eb_add_fb]
  congr 1
  rcases budget_eb_eq_or_fb_eq_zero c k with hfull | hfb
  · rw [hfull, Nat.sub_self, pow_zero, mul_one, Nat.mul_div_cancel _ (Nat.two_pow_pos _)]
  · have hf := p.f_lt
    rw [hfb, pow_zero, Nat.lt_one_iff] at hf
    have hpow : 2 ^ (c.es - (budget c k).eb) * 2 ^ (budget c k).eb = 2 ^ c.es := by
      rw [← pow_add, Nat.sub_add_cancel heb]
    simp only [hfb, hf, add_zero, pow_zero, mul_one, mul_assoc, hpow]
    exact Nat.mul_div_cancel _ (Nat.two_pow_pos _)

/-- R62: a place's pattern is a magnitude pattern. -/
theorem IsPlace.isMagPattern (p : IsPlace c k h f) (hn : 2 ≤ c.n) : IsMagPattern c (blockPattern c k h f) := by
  exact p.packMag_eq ▸ ⟨packMag_pos hn p.exponent_lt p.f_lt, packMag_lt hn p.exponent_lt p.f_lt⟩

/-- R64: the pattern determines the place. -/
theorem IsPlace.unique {l : Int} {h' f' : Nat} (p : IsPlace c k h f) (q : IsPlace c l h' f')
    (heq : blockPattern c k h f = blockPattern c l h' f') : k = l ∧ h = h' ∧ f = f' := by
  have hp := p.offset_lt
  have hq := q.offset_lt
  unfold blockPattern at heq
  have hkl : k = l := by
    rcases lt_trichotomy k l with hlt | h | hlt
    · have := blockStart_add_two_pow_le p.k_lo hlt q.k_hi
      omega
    · exact h
    · have := blockStart_add_two_pow_le q.k_lo hlt p.k_hi
      omega
  subst hkl
  have hoff := Nat.add_left_cancel heq
  have hf : f = f' := by
    have := congrArg (· % 2 ^ (budget c k).fb) hoff
    simpa [Nat.mod_eq_of_lt p.f_lt, Nat.mod_eq_of_lt q.f_lt] using this
  subst hf
  exact ⟨rfl, Nat.eq_of_mul_eq_mul_right (Nat.two_pow_pos _) (Nat.add_right_cancel hoff), rfl⟩

/-- R63, R64, R72: a magnitude pattern is the pattern of the place its fields name. -/
theorem exists_place {m : Nat} (hn : 2 ≤ c.n) (hm : IsMagPattern c m) (sign : Bool) :
    let F := magFields c sign m
    ∃ h, IsPlace c F.k h F.f ∧ blockPattern c F.k h F.f = m ∧ F.e = h * 2 ^ (c.es - (budget c F.k).eb) ∧
      F.fb = (budget c F.k).fb := by
  intro F
  obtain ⟨h0, hlt⟩ := hm
  obtain ⟨hlo, hhi⟩ : -((c.n : Int) - 2) ≤ F.k ∧ F.k ≤ (c.n : Int) - 2 := regimeDecode_k_range hn h0 hlt
  have hb : budget c F.k = ⟨F.r, if F.t then F.r + 1 else F.r, F.eb, F.fb⟩ := budget_regimeDecode hn h0 hlt
  have heb : (budget c F.k).eb = F.eb := by rw [hb]
  have hfb : (budget c F.k).fb = F.fb := by rw [hb]
  have hpack : packMag c F.k F.e F.fb F.f = m := packMag_magFields sign hn h0 hlt
  have he : F.e = m / 2 ^ F.fb % 2 ^ F.eb * 2 ^ (c.es - F.eb) := rfl
  have p : IsPlace c F.k (m / 2 ^ F.fb % 2 ^ F.eb) F.f :=
    ⟨hlo, hhi, heb ▸ Nat.mod_lt _ (Nat.two_pow_pos _), hfb ▸ magFields_f_lt sign⟩
  refine ⟨_, p, ?_, heb ▸ he, hfb.symm⟩
  rw [← p.packMag_eq, heb, hfb, ← he, hpack]

/-- R67: the fields of a place's pattern. -/
theorem IsPlace.magFields_eq (p : IsPlace c k h f) (hn : 2 ≤ c.n) (sign : Bool) :
    let F := magFields c sign (blockPattern c k h f)
    F.k = k ∧ F.e = h * 2 ^ (c.es - (budget c k).eb) ∧ F.fb = (budget c k).fb ∧ F.f = f := by
  intro F
  obtain ⟨h', q, hpat, he, hfb⟩ := exists_place hn (p.isMagPattern hn) sign
  obtain ⟨hk, hh, hf⟩ := q.unique p hpat
  rw [hk, hh] at he
  rw [hk] at hfb
  exact ⟨hk, he, hfb, hf⟩

/-! ## Values (R80, R81, R83, R92) -/

/-- R80: the exponent `E = k · 2^es + e` of a place. -/
def placeExp (c : Cfg) (k : Int) (h : Nat) : Int :=
  k * (2 : Int) ^ c.es + ((h * 2 ^ (c.es - (budget c k).eb) : Nat) : Int)

theorem placeExp_zero (c : Cfg) (k : Int) : placeExp c k 0 = k * (2 : Int) ^ c.es := by simp [placeExp]

theorem placeExp_succ (c : Cfg) (k : Int) (h : Nat) :
    placeExp c k (h + 1) = placeExp c k h + (2 : Int) ^ (c.es - (budget c k).eb) := by
  simp only [placeExp]
  push_cast
  ring

/-- R92: past the last kept exponent the exponents of the next regime value begin. -/
theorem placeExp_last (c : Cfg) (k : Int) : placeExp c k (2 ^ (budget c k).eb) = placeExp c (k + 1) 0 := by
  have hpow : (2 : Int) ^ (budget c k).eb * 2 ^ (c.es - (budget c k).eb) = 2 ^ c.es := by
    rw [← pow_add, Nat.add_sub_cancel' (budget_eb_le c k)]
  rw [placeExp_zero, placeExp]
  push_cast
  rw [hpow]
  ring

/-- R81: the value of a place's pattern. -/
theorem IsPlace.valmagRat_eq (p : IsPlace c k h f) (hn : 2 ≤ c.n) :
    valmagRat c (blockPattern c k h f) =
      (2 : ℚ) ^ placeExp c k h * (1 + (f : ℚ) / (2 : ℚ) ^ (budget c k).fb) := by
  obtain ⟨hk, he, hfb, hf⟩ := p.magFields_eq hn false
  have hsign : (magFields c false (blockPattern c k h f)).sign = false := rfl
  rw [valmagRat, Fields.val, hk, he, hfb, hf, hsign, placeExp]
  simp [signRat]

theorem isPlace_start (hlo : -((c.n : Int) - 2) ≤ k) (hhi : k ≤ (c.n : Int) - 2) : IsPlace c k 0 0 :=
  ⟨hlo, hhi, Nat.two_pow_pos _, Nat.two_pow_pos _⟩

theorem blockPattern_start (c : Cfg) (k : Int) : blockPattern c k 0 0 = blockStart c k := by
  simp [blockPattern]

/-- R81: the value of the first pattern of a block. -/
theorem valmagRat_blockStart (hn : 2 ≤ c.n) (hlo : -((c.n : Int) - 2) ≤ k) (hhi : k ≤ (c.n : Int) - 2) :
    valmagRat c (blockStart c k) = (2 : ℚ) ^ (k * (2 : Int) ^ c.es) := by
  rw [← blockPattern_start, (isPlace_start hlo hhi).valmagRat_eq hn, placeExp_zero]
  simp

/-- R92: after an all-ones fraction the next pattern has the next kept exponent and fraction 0, also where the
exponent carries into the regime. -/
theorem IsPlace.valmagRat_succ_of_carry (p : IsPlace c k h f) (hn : 2 ≤ c.n) (hk : k < (c.n : Int) - 2)
    (hf : f + 1 = 2 ^ (budget c k).fb) :
    valmagRat c (blockPattern c k h f + 1) = (2 : ℚ) ^ placeExp c k (h + 1) := by
  have hnext : blockPattern c k h f + 1 = blockStart c k + (h + 1) * 2 ^ (budget c k).fb := by
    rw [blockPattern, add_assoc, add_assoc, hf, Nat.succ_mul]
  rcases (Nat.succ_le_of_lt p.h_lt).eq_or_lt with hlast | hlt
  · have hend : (h + 1) * 2 ^ (budget c k).fb = 2 ^ (c.n - 2 - regimeRun k) := by
      rw [← Nat.succ_eq_add_one, hlast, ← pow_add, budget_eb_add_fb]
    rw [hnext, hend, blockStart_add_two_pow p.k_lo hk,
      valmagRat_blockStart hn (by linarith [p.k_lo]) (by omega), ← Nat.succ_eq_add_one, hlast, placeExp_last,
      placeExp_zero]
  · have q : IsPlace c k (h + 1) 0 := ⟨p.k_lo, p.k_hi, hlt, Nat.two_pow_pos _⟩
    have hpat : blockPattern c k (h + 1) 0 = blockPattern c k h f + 1 := hnext.symm
    rw [← hpat, q.valmagRat_eq hn]
    simp

/-- R83: below the all-ones fraction the next pattern has the next fraction. -/
theorem IsPlace.valmagRat_succ_of_lt (p : IsPlace c k h f) (hn : 2 ≤ c.n) (hf : f + 1 < 2 ^ (budget c k).fb) :
    valmagRat c (blockPattern c k h f + 1) =
      (2 : ℚ) ^ placeExp c k h * (1 + ((f : ℚ) + 1) / (2 : ℚ) ^ (budget c k).fb) := by
  have q : IsPlace c k h (f + 1) := ⟨p.k_lo, p.k_hi, p.h_lt, hf⟩
  have hval := q.valmagRat_eq hn
  rw [Nat.cast_succ] at hval
  exact hval

/-- R83: where a pattern has a successor, its regime value is not the largest. -/
theorem IsPlace.k_lt_of_succ (p : IsPlace c k h f) (hn : 2 ≤ c.n) (hs : IsMagPattern c (blockPattern c k h f + 1)) :
    k < (c.n : Int) - 2 := by
  obtain ⟨-, hlt⟩ := hs
  refine p.k_hi.lt_of_ne fun hk => ?_
  have hlast := blockStart_last hn
  rw [blockPattern, hk, hlast] at hlt
  omega

/-- R83: each pattern has a value below its successor's. -/
theorem valmagRat_lt_succ {m : Nat} (hn : 2 ≤ c.n) (hm : IsMagPattern c m) (hs : IsMagPattern c (m + 1)) :
    valmagRat c m < valmagRat c (m + 1) := by
  obtain ⟨h, p, hpat, -, -⟩ := exists_place hn hm false
  rw [← hpat] at hs ⊢
  have hfb : (0 : ℚ) < (2 : ℚ) ^ (budget c (magFields c false m).k).fb := by positivity
  have hexp : (0 : ℚ) < (2 : ℚ) ^ placeExp c (magFields c false m).k h := by positivity
  rw [p.valmagRat_eq hn]
  rcases (Nat.succ_le_of_lt p.f_lt).eq_or_lt with hlast | hlt
  · have hf : ((magFields c false m).f : ℚ) / (2 : ℚ) ^ (budget c (magFields c false m).k).fb < 1 := by
      rw [div_lt_one hfb]
      exact_mod_cast p.f_lt
    have hone : (1 : Int) ≤ 2 ^ (c.es - (budget c (magFields c false m).k).eb) := one_le_pow₀ (by decide)
    rw [p.valmagRat_succ_of_carry hn (p.k_lt_of_succ hn hs) hlast, placeExp_succ]
    calc _ < (2 : ℚ) ^ placeExp c (magFields c false m).k h * 2 := by
          refine mul_lt_mul_of_pos_left ?_ hexp
          linarith
      _ = (2 : ℚ) ^ (placeExp c (magFields c false m).k h + 1) := (zpow_add_one₀ (by norm_num) _).symm
      _ ≤ _ := zpow_le_zpow_right₀ (by norm_num) (by omega)
  · rw [p.valmagRat_succ_of_lt hn hlt]
    refine mul_lt_mul_of_pos_left ?_ hexp
    gcongr
    linarith

/-- R83: the values rise strictly with the magnitude patterns. -/
theorem valmagRat_strictMonoOn (hn : 2 ≤ c.n) : StrictMonoOn (valmagRat c) {m | IsMagPattern c m} :=
  strictMonoOn_of_lt_add_one ⟨fun _ ha _ hb _ hm => ⟨ha.1.trans_le hm.1, hm.2.trans_lt hb.2⟩⟩
    fun _ _ hm hs => valmagRat_lt_succ hn hm hs

end Block

/-- Settles O28: each pattern has a value below its successor's. -/
theorem valuesRiseWithThePatterns : Obligations.ValuesRiseWithThePatterns :=
  fun _ _ _ hc hp hpq hq =>
    valmagRat_strictMonoOn hc.1 ⟨hp, hpq.trans hq⟩ ⟨hp.trans hpq, hq⟩ hpq

/-- Settles O27: the three patterns are the first of the blocks of the largest, the smallest and the zero
regime value. -/
theorem extremeAndUnitPatterns : Obligations.ExtremeAndUnitPatterns := by
  intro c hc
  obtain ⟨hn, -, -⟩ := hc
  have hcast : (((c.n - 2) * 2 ^ c.es : Nat) : Int) = ((c.n : Int) - 2) * 2 ^ c.es := by
    push_cast [Nat.cast_sub hn]
    ring
  refine ⟨?_, ?_, ?_⟩
  · rw [← blockStart_last hn, valmagRat_blockStart hn (by omega) le_rfl, hcast]
  · have hval := valmagRat_blockStart (c := c) hn le_rfl (by omega)
    rwa [blockStart_first hn, neg_mul, ← hcast] at hval
  · have hval := valmagRat_blockStart (c := c) (k := 0) hn (by omega) (by omega)
    rwa [blockStart_zero hn, zero_mul, zpow_zero] at hval

/-- Settles O33: a place with an all-ones fraction and a whole exponent field. -/
theorem carryReachesTheNextPowerOfTwo : Obligations.CarryReachesTheNextPowerOfTwo := by
  intro c k e hc hlo hhi he heb
  have hpos := Nat.two_pow_pos (budget c k).fb
  have p : IsPlace c k e (2 ^ (budget c k).fb - 1) := ⟨hlo, hhi.le, heb ▸ he, by omega⟩
  have hpack := p.packMag_eq
  rw [heb, Nat.sub_self, pow_zero, mul_one] at hpack
  rw [hpack, p.valmagRat_succ_of_carry hc.1 hhi (by omega), placeExp_succ, placeExp, heb, Nat.sub_self, pow_zero,
    pow_zero, mul_one]

end Sys2Proof.Machine

namespace Sys2Proof.Machine

/-! ## The two neighbours of a number (R88, R90) -/

/-- R90: of p and its successor the nearer to x, for a d of the sign that x has above the mean of their values; on
a tie the even one. -/
def nearerOf (p : Nat) (d : ℚ) : Nat :=
  if d < 0 then p else if 0 < d then p + 1 else if p % 2 = 0 then p else p + 1

/-- R88: p and its successor are magnitude patterns, and x lies between their values. -/
structure IsBracket (c : Cfg) (x : ℚ) (p : Nat) : Prop where
  pos : 0 < p
  succ_lt : p + 1 < 2 ^ (c.n - 1)
  val_le : valmagRat c p ≤ x
  lt_val : x < valmagRat c (p + 1)

theorem nearerOf_mul {a : ℚ} (ha : 0 < a) (p : Nat) (d : ℚ) : nearerOf p (a * d) = nearerOf p d := by
  simp only [nearerOf, mul_neg_iff, mul_pos_iff, ha, ha.not_gt, true_and, false_and, or_false]

/-- The nearer pattern by a sign of d. -/
theorem nearerOf_of_isSign {d : ℚ} {s : Int} (h : IsSign d s) (p : Nat) :
    nearerOf p d = if s < 0 then p else if 0 < s then p + 1 else if p % 2 = 0 then p else p + 1 := by
  simp only [nearerOf, h.neg_iff, h.pos_iff]

section Bracket
variable {c : Cfg} {p q : Nat} {x : ℚ}

theorem IsBracket.isMagPattern (b : IsBracket c x p) : IsMagPattern c p := ⟨b.pos, by have := b.succ_lt; omega⟩

theorem IsBracket.isMagPattern_succ (b : IsBracket c x p) : IsMagPattern c (p + 1) := ⟨by omega, b.succ_lt⟩

theorem isMagPattern_one (hn : 2 ≤ c.n) : IsMagPattern c 1 := ⟨one_pos, Nat.one_lt_two_pow (by omega)⟩

theorem isMagPattern_last (hn : 2 ≤ c.n) : IsMagPattern c (2 ^ (c.n - 1) - 1) := by
  have := Nat.one_lt_two_pow (n := c.n - 1) (by omega)
  exact ⟨by omega, by omega⟩

theorem valmagRat_le (hn : 2 ≤ c.n) (hp : IsMagPattern c p) (hq : IsMagPattern c q) (h : p ≤ q) :
    valmagRat c p ≤ valmagRat c q := (valmagRat_strictMonoOn hn).monotoneOn hp hq h

/-- R84: the largest pattern has the value maxpos. -/
theorem valmagRat_last (hc : ValidCfg c) : valmagRat c (2 ^ (c.n - 1) - 1) = maxposRat c :=
  (extremeAndUnitPatterns c hc).1

/-- R84: the smallest pattern has the value minpos. -/
theorem valmagRat_one (hc : ValidCfg c) : valmagRat c 1 = minposRat c := (extremeAndUnitPatterns c hc).2.1

/-- R84: no value is above maxpos. -/
theorem valmagRat_le_maxpos (hc : ValidCfg c) (hp : IsMagPattern c p) : valmagRat c p ≤ maxposRat c := by
  rw [← valmagRat_last hc]
  exact valmagRat_le hc.1 hp (isMagPattern_last hc.1) (Nat.le_pred_of_lt hp.2)

/-- R84: no value is below minpos. -/
theorem minpos_le_valmagRat (hc : ValidCfg c) (hp : IsMagPattern c p) : minposRat c ≤ valmagRat c p := by
  rw [← valmagRat_one hc]
  exact valmagRat_le hc.1 (isMagPattern_one hc.1) hp hp.1

theorem minposRat_pos (c : Cfg) : 0 < minposRat c := zpow_pos (by norm_num) _

theorem maxposRat_pos (c : Cfg) : 0 < maxposRat c := zpow_pos (by norm_num) _

/-- R83: only one pattern and its successor enclose a number. -/
theorem IsBracket.unique (hn : 2 ≤ c.n) (a : IsBracket c x p) (b : IsBracket c x q) : p = q := by
  have hmono := valmagRat_strictMonoOn hn
  have hpq := (hmono.lt_iff_lt a.isMagPattern b.isMagPattern_succ).mp (a.val_le.trans_lt b.lt_val)
  have hqp := (hmono.lt_iff_lt b.isMagPattern a.isMagPattern_succ).mp (b.val_le.trans_lt a.lt_val)
  omega

/-- R83, R88: on either side of x no pattern is nearer than the neighbour on that side, nor as near but itself. -/
theorem IsBracket.dist_cases (hn : 2 ≤ c.n) (b : IsBracket c x p) (hq : IsMagPattern c q) :
    (q ≤ p ∧ |valmagRat c q - x| = x - valmagRat c q ∧ x - valmagRat c p ≤ x - valmagRat c q ∧
        (x - valmagRat c p = x - valmagRat c q → q = p)) ∨
      (p + 1 ≤ q ∧ |valmagRat c q - x| = valmagRat c q - x ∧ valmagRat c (p + 1) - x ≤ valmagRat c q - x ∧
        (valmagRat c (p + 1) - x = valmagRat c q - x → q = p + 1)) := by
  have hinj := (valmagRat_strictMonoOn hn).injOn
  have hlo := b.val_le
  have hhi := b.lt_val
  rcases Nat.lt_or_ge p q with h | h
  · have hle := valmagRat_le hn b.isMagPattern_succ hq h
    exact .inr ⟨h, abs_of_nonneg (by linarith), by linarith,
      fun he => hinj hq b.isMagPattern_succ (by linarith)⟩
  · have hle := valmagRat_le hn hq b.isMagPattern h
    exact .inl ⟨h, by rw [abs_of_nonpos (by linarith)]; ring, by linarith,
      fun he => hinj hq b.isMagPattern (by linarith)⟩

/-- R88, R90: the nearer of the two neighbours is the nearest pattern, the even one on a tie. -/
theorem IsBracket.isNearestPattern (hn : 2 ≤ c.n) (b : IsBracket c x p) :
    IsNearestPattern c x (nearerOf p (2 * x - (valmagRat c p + valmagRat c (p + 1)))) := by
  have hp : |valmagRat c p - x| = x - valmagRat c p := by
    rw [abs_of_nonpos (by linarith [b.val_le])]
    ring
  have hs : |valmagRat c (p + 1) - x| = valmagRat c (p + 1) - x := abs_of_nonneg (by linarith [b.lt_val])
  have hstep := valmagRat_lt_succ hn b.isMagPattern b.isMagPattern_succ
  unfold nearerOf
  split_ifs with hneg hpos heven
  · refine ⟨b.isMagPattern, fun q hq => ?_⟩
    rcases b.dist_cases hn hq with ⟨-, hd, hle, heq⟩ | ⟨-, hd, hle, heq⟩
    · rw [hp, hd]
      exact ⟨hle, fun he hne => absurd (heq he.symm) hne⟩
    · rw [hp, hd]
      exact ⟨by linarith, fun he => by linarith⟩
  · refine ⟨b.isMagPattern_succ, fun q hq => ?_⟩
    rcases b.dist_cases hn hq with ⟨-, hd, hle, heq⟩ | ⟨-, hd, hle, heq⟩
    · rw [hs, hd]
      exact ⟨by linarith, fun he => by linarith⟩
    · rw [hs, hd]
      exact ⟨hle, fun he hne => absurd (heq he.symm) hne⟩
  · refine ⟨b.isMagPattern, fun q hq => ?_⟩
    rcases b.dist_cases hn hq with ⟨-, hd, hle, -⟩ | ⟨-, hd, hle, -⟩ <;> rw [hp, hd] <;>
      exact ⟨by linarith, fun _ _ => heven⟩
  · refine ⟨b.isMagPattern_succ, fun q hq => ?_⟩
    rcases b.dist_cases hn hq with ⟨-, hd, hle, -⟩ | ⟨-, hd, hle, -⟩ <;> rw [hs, hd] <;>
      exact ⟨by linarith, fun _ _ => by omega⟩

end Bracket

/-! ## The search (R88, R89) -/

section RoundMag
variable {c : Cfg} {x : Exact}

theorem cmp_maxpos_nonneg_iff (hd : 0 < x.den) : 0 ≤ x.cmp [maxpos c] ↔ maxposRat c ≤ x.toRat := by
  simp [x.cmp_nonneg_iff _ hd, maxpos_toRat]

theorem cmp_minpos_nonpos_iff (hd : 0 < x.den) : x.cmp [minpos c] ≤ 0 ↔ x.toRat ≤ minposRat c := by
  simp [x.cmp_nonpos_iff _ hd, minpos_toRat]

theorem cmp_valmag_nonneg_iff (hd : 0 < x.den) (p : Nat) : 0 ≤ x.cmp [valmag c p] ↔ valmagRat c p ≤ x.toRat := by
  simp [x.cmp_nonneg_iff _ hd, valmag_toRat]

/-- R89: saturation above. -/
theorem roundMag_of_maxpos_le (hd : 0 < x.den) (h : maxposRat c ≤ x.toRat) : roundMag c x = 2 ^ (c.n - 1) - 1 :=
  if_pos ((cmp_maxpos_nonneg_iff hd).mpr h)

/-- R89: saturation below; a number that saturates at both ends is 1 in a configuration of one magnitude pattern. -/
theorem roundMag_of_le_minpos (hc : ValidCfg c) (hd : 0 < x.den) (h : x.toRat ≤ minposRat c) :
    roundMag c x = 1 := by
  by_cases hmax : maxposRat c ≤ x.toRat
  · have hlast := isMagPattern_last hc.1
    have hval : valmagRat c (2 ^ (c.n - 1) - 1) ≤ valmagRat c 1 := by
      rw [valmagRat_last hc, valmagRat_one hc]
      exact hmax.trans h
    have hle := ((valmagRat_strictMonoOn hc.1).le_iff_le hlast (isMagPattern_one hc.1)).mp hval
    rw [roundMag_of_maxpos_le hd hmax]
    exact le_antisymm hle hlast.1
  · rw [roundMag, if_neg (mt (cmp_maxpos_nonneg_iff hd).mp hmax), if_pos ((cmp_minpos_nonpos_iff hd).mpr h)]

/-- R83, R88: inside the range the search stops at the pattern below x. -/
theorem isBracket_floorPattern (hc : ValidCfg c) (hd : 0 < x.den) (hmin : minposRat c ≤ x.toRat)
    (hmax : x.toRat < maxposRat c) : IsBracket c x.toRat (floorPattern c x (c.n - 1) 0) := by
  obtain ⟨-, hlt, hle, hsucc⟩ := floorPattern_spec c x (c.n - 1) 0
  have hone := (isMagPattern_one hc.1).2
  rw [cmp_valmag_nonneg_iff hd] at hle
  rw [← not_le, cmp_valmag_nonneg_iff hd, not_le, zero_add] at hsucc
  generalize floorPattern c x (c.n - 1) 0 = p at *
  have hpos : 0 < p := by
    refine Nat.pos_of_ne_zero fun h0 => ?_
    subst h0
    rcases hsucc with h | h
    · omega
    · rw [zero_add, valmagRat_one hc] at h
      exact hmin.not_gt h
  have hp : valmagRat c p ≤ x.toRat := hle.resolve_left hpos.ne'
  have hend : p + 1 ≠ 2 ^ (c.n - 1) := fun h => by
    have hp' : p = 2 ^ (c.n - 1) - 1 := by omega
    rw [hp', valmagRat_last hc] at hp
    exact hmax.not_ge hp
  exact ⟨hpos, by omega, hp, hsucc.resolve_left hend⟩

/-- R88, R90: between two neighbours the machine rounds to the nearer. -/
theorem roundMag_of_isBracket {p : Nat} (hc : ValidCfg c) (hd : 0 < x.den) (b : IsBracket c x.toRat p) :
    roundMag c x = nearerOf p (2 * x.toRat - (valmagRat c p + valmagRat c (p + 1))) := by
  have hmax : x.toRat < maxposRat c := b.lt_val.trans_le (valmagRat_le_maxpos hc b.isMagPattern_succ)
  have hmin : minposRat c ≤ x.toRat := (minpos_le_valmagRat hc b.isMagPattern).trans b.val_le
  by_cases hle : x.toRat ≤ minposRat c
  · have hval : valmagRat c p ≤ valmagRat c 1 := by
      rw [valmagRat_one hc]
      exact b.val_le.trans hle
    have hone : p = 1 :=
      le_antisymm (((valmagRat_strictMonoOn hc.1).le_iff_le b.isMagPattern (isMagPattern_one hc.1)).mp hval) b.pos
    have hx : x.toRat = valmagRat c p := by
      rw [hone, valmagRat_one hc]
      exact le_antisymm hle hmin
    rw [roundMag_of_le_minpos hc hd hle, nearerOf, if_pos (by linarith [b.lt_val]), hone]
  · have hfloor := (isBracket_floorPattern hc hd hmin hmax).unique hc.1 b
    have hside := x.double.isSign_cmp [valmag c p, valmag c (p + 1)] hd
    rw [Exact.toRat_double, sumRat_cons, sumRat_cons, sumRat_nil, add_zero, valmag_toRat, valmag_toRat] at hside
    rw [nearerOf_of_isSign hside, roundMag, if_neg (mt (cmp_maxpos_nonneg_iff hd).mp hmax.not_ge),
      if_neg (mt (cmp_minpos_nonpos_iff hd).mp hle), hfloor]

/-- R88: the machine's rounding of a magnitude. -/
theorem isRoundMag_roundMag (hc : ValidCfg c) (hd : 0 < x.den) : IsRoundMag c x.toRat (roundMag c x) := by
  refine ⟨roundMag_of_maxpos_le hd, roundMag_of_le_minpos hc hd, fun hmin hmax => ?_⟩
  have b := isBracket_floorPattern hc hd hmin.le hmax
  rw [roundMag_of_isBracket hc hd b]
  exact b.isNearestPattern hc.1

/-- R89: the rounding of a magnitude is a magnitude pattern. -/
theorem isMagPattern_roundMag (hc : ValidCfg c) (hd : 0 < x.den) : IsMagPattern c (roundMag c x) := by
  by_cases hmax : maxposRat c ≤ x.toRat
  · rw [roundMag_of_maxpos_le hd hmax]
    exact isMagPattern_last hc.1
  · by_cases hmin : x.toRat ≤ minposRat c
    · rw [roundMag_of_le_minpos hc hd hmin]
      exact isMagPattern_one hc.1
    · have b := isBracket_floorPattern hc hd (not_le.mp hmin).le (not_le.mp hmax)
      rw [roundMag_of_isBracket hc hd b]
      exact (b.isNearestPattern hc.1).1

/-- R88: the value of a pattern rounds to the pattern. -/
theorem roundMag_of_valmagRat {m : Nat} (hc : ValidCfg c) (hd : 0 < x.den) (hm : IsMagPattern c m)
    (hx : x.toRat = valmagRat c m) : roundMag c x = m := by
  obtain ⟨h0, hlt⟩ := hm
  rcases (Nat.succ_le_of_lt hlt).eq_or_lt with hlast | hlt'
  · have hm' : m = 2 ^ (c.n - 1) - 1 := Nat.eq_sub_of_add_eq hlast
    rw [hm', valmagRat_last hc] at hx
    rw [hm', roundMag_of_maxpos_le hd hx.ge]
  · have hstep := valmagRat_lt_succ hc.1 ⟨h0, hlt⟩ ⟨Nat.succ_pos m, hlt'⟩
    rw [roundMag_of_isBracket hc hd ⟨h0, hlt', hx.ge, hx.trans_lt hstep⟩, nearerOf, if_pos (by linarith)]

end RoundMag

/-! ## Values of either sign -/

/-- R81: the value of fields of either sign. -/
theorem magFields_val (c : Cfg) (sign : Bool) (m : Nat) :
    (magFields c sign m).val c.es = signRat sign * valmagRat c m := by
  have hfalse : signRat (magFields c false m).sign = 1 := rfl
  rw [valmagRat, Fields.val, Fields.val, hfalse, one_mul, mul_assoc]
  rfl

/-- R88: the value of a finite value rounds to its bits. -/
theorem roundBits_of_fields_val {v : PV} {x : Exact} (hwf : v.wellFormed = true) (hfin : v.cls = .fin)
    (hd : 0 < x.den) (hx : x.toRat = v.fields.val v.es) : roundBits v.cfg x = v.bits := by
  obtain ⟨hvalid, hlt⟩ := v.wellFormed_iff.mp hwf
  have hc : ValidCfg v.cfg := (validCfg_iff _).mpr hvalid
  have hm : IsMagPattern v.cfg v.mag := PV.mag_range hwf hfin
  have hpos : 0 < valmagRat v.cfg v.mag := (minposRat_pos _).trans_le (minpos_le_valmagRat hc hm)
  have hval : x.toRat = signRat v.sign * valmagRat v.cfg v.mag := hx.trans (magFields_val v.cfg v.sign v.mag)
  cases hsign : v.sign with
  | false =>
    have hmag : v.mag = v.bits := by rw [PV.mag, hsign, if_neg Bool.false_ne_true]
    rw [hsign, signRat, if_neg Bool.false_ne_true, one_mul] at hval
    rw [roundBits_of_pos _ _ hd (hval ▸ hpos), roundMag_of_valmagRat hc hd hm hval, hmag]
  | true =>
    have hmag : v.mag = negN v.n v.bits := by rw [PV.mag, hsign, if_pos rfl]
    rw [hsign, signRat, if_pos rfl, neg_one_mul] at hval
    have hneg : x.neg.toRat = valmagRat v.cfg v.mag := by rw [Exact.toRat_neg, hval, neg_neg]
    rw [roundBits_of_neg _ _ hd (by linarith), roundMag_of_valmagRat (x := x.neg) hc hd hm hneg, hmag]
    exact negN_negN hlt

/-! ## The statements about rounding -/

/-- Settles O29: the search leaves the two neighbours of x, of which the nearer is the nearest pattern. -/
theorem roundIsTheNearestPattern : Obligations.RoundIsTheNearestPattern := by
  intro c x hc hd
  refine ⟨roundBits_of_zero c x hd, fun h => ?_, fun h => ?_⟩
  · rw [roundBits_of_pos c x hd h]
    exact isRoundMag_roundMag hc hd
  · exact ⟨_, Exact.toRat_neg x ▸ isRoundMag_roundMag (x := x.neg) hc hd, roundBits_of_neg c x hd h⟩

/-- Settles O31: saturation of the magnitude, and for the last clause that a rounded magnitude is a magnitude
pattern. -/
theorem roundingSaturates : Obligations.RoundingSaturates := by
  intro c x hc hd
  have hmax := maxposRat_pos c
  have hdouble : 2 ^ (c.n - 1) * 2 = 2 ^ c.n := Nat.two_pow_pred_mul_two (Nat.zero_lt_of_lt hc.1)
  have hneg : x.toRat < 0 → roundBits c x = 2 ^ c.n - roundMag c x.neg := fun h => by
    obtain ⟨h0, hlt⟩ := isMagPattern_roundMag (x := x.neg) hc hd
    rw [roundBits_of_neg c x hd h, negN_of_pos h0 (by omega)]
  refine ⟨fun h => ?_, fun h => ?_, fun h0 h => ?_, fun h0 h => ?_, fun h0 => ?_⟩
  · rw [roundBits_of_pos c x hd (by linarith), roundMag_of_maxpos_le hd h]
  · have hpow := Nat.two_pow_pos (c.n - 1)
    have hle : maxposRat c ≤ x.neg.toRat := by rw [Exact.toRat_neg]; linarith
    rw [hneg (by linarith), roundMag_of_maxpos_le (x := x.neg) hd hle]
    omega
  · rw [roundBits_of_pos c x hd h0, roundMag_of_le_minpos hc hd h]
  · have hle : x.neg.toRat ≤ minposRat c := by rw [Exact.toRat_neg]; linarith
    rw [hneg h0, roundMag_of_le_minpos (x := x.neg) hc hd hle]
  · rcases lt_or_gt_of_ne h0 with h | h
    · obtain ⟨hpos, hlt⟩ := isMagPattern_roundMag (x := x.neg) hc hd
      rw [hneg h]
      omega
    · obtain ⟨hpos, hlt⟩ := isMagPattern_roundMag (x := x) hc hd
      rw [roundBits_of_pos c x hd h]
      omega

/-- Settles O32: a value of class ZERO rounds to 0, a finite one through its magnitude pattern. -/
theorem representableValueRoundsToItself : Obligations.RepresentableValueRoundsToItself := by
  intro v x q hwf hval hd hx
  rcases v.decoded_cases with ⟨-, hdec⟩ | ⟨-, h0, hdec⟩ | ⟨-, -, hdec⟩ | ⟨h, h0, hinf, hdec⟩ <;>
    rw [PV.val, hdec] at hval
  · nomatch hval
  · rw [h0]
    exact roundBits_of_zero _ _ hd (hx.trans (Option.some.inj hval).symm)
  · nomatch hval
  · exact roundBits_of_fields_val hwf (PV.cls_eq_fin_iff.mpr ⟨h, h0, hinf⟩) hd
      (hx.trans (Option.some.inj hval).symm)

end Sys2Proof.Machine

namespace Sys2Proof.Machine

/-! ## The operational form (R82, R91)

Each branch of R91 packs the pattern below x and compares with a number of the sign that x has above the mean of
the two neighbours. -/

/-- R88, R90: r is the nearer of the two neighbours of x. -/
def IsNearerNeighbour (c : Cfg) (x : ℚ) (r : Nat) : Prop :=
  ∃ p, IsBracket c x p ∧ r = nearerOf p (2 * x - (valmagRat c p + valmagRat c (p + 1)))

theorem roundMag_of_isNearerNeighbour {c : Cfg} {x : Exact} {r : Nat} (hc : ValidCfg c) (hd : 0 < x.den)
    (h : IsNearerNeighbour c x.toRat r) : roundMag c x = r := by
  obtain ⟨p, b, rfl⟩ := h
  exact roundMag_of_isBracket hc hd b

theorem roundFraction_eq_nearerOf (c : Cfg) (k : Int) (e fb : Nat) (m : ℚ) :
    roundFraction c k e fb m =
      nearerOf (packMag c k e fb ⌊(m - 1) * 2 ^ fb⌋.toNat)
        ((m - 1) * 2 ^ fb - (⌊(m - 1) * 2 ^ fb⌋ : ℚ) - 1 / 2) := by
  simp only [roundFraction, nearerOf, sub_neg, sub_pos]

theorem roundExponent_of_le {c : Cfg} {E k : Int} {e cut : Nat} (m : ℚ)
    (h : E ≤ k * 2 ^ c.es + ((e / 2 ^ cut * 2 ^ cut : Nat) : Int) + 2 ^ cut - 2) :
    roundExponent c E k e cut m = packMag c k (e / 2 ^ cut * 2 ^ cut) 0 0 := if_pos h

theorem roundExponent_of_lt {c : Cfg} {E k : Int} {e cut : Nat} (m : ℚ)
    (h : k * 2 ^ c.es + ((e / 2 ^ cut * 2 ^ cut : Nat) : Int) + 2 ^ cut - 2 < E) :
    roundExponent c E k e cut m =
      nearerOf (packMag c k (e / 2 ^ cut * 2 ^ cut) 0 0) ((m - 1) - (2 : ℚ) ^ (-(2 ^ cut : Int))) :=
  if_neg h.not_ge

section Operational
variable {c : Cfg} {k E : Int} {h f e : Nat} {x m : ℚ}

/-- R83: a pattern below the last block has a successor. -/
theorem IsPlace.isMagPattern_succ (p : IsPlace c k h f) (hn : 2 ≤ c.n) (hk : k < (c.n : Int) - 2) :
    IsMagPattern c (blockPattern c k h f + 1) := by
  have hoff := p.offset_lt
  have hnext := blockStart_add_two_pow p.k_lo hk
  have q : IsPlace c (k + 1) 0 0 := isPlace_start (by linarith [p.k_lo]) (by omega)
  obtain ⟨-, hlt⟩ := q.isMagPattern hn
  rw [blockPattern_start] at hlt
  unfold blockPattern
  exact ⟨Nat.succ_pos _, by omega⟩

theorem IsPlace.isBracket (p : IsPlace c k h f) (hn : 2 ≤ c.n) (hk : k < (c.n : Int) - 2)
    (hlo : valmagRat c (blockPattern c k h f) ≤ x) (hhi : x < valmagRat c (blockPattern c k h f + 1)) :
    IsBracket c x (blockPattern c k h f) :=
  ⟨(p.isMagPattern hn).1, (p.isMagPattern_succ hn hk).2, hlo, hhi⟩

/-- R92: where the whole exponent field fits, the next pattern has the next fraction, carry or not. -/
theorem IsPlace.valmagRat_succ_of_full (p : IsPlace c k h f) (hn : 2 ≤ c.n) (hk : k < (c.n : Int) - 2)
    (heb : (budget c k).eb = c.es) :
    valmagRat c (blockPattern c k h f + 1) =
      (2 : ℚ) ^ placeExp c k h * (1 + ((f : ℚ) + 1) / (2 : ℚ) ^ (budget c k).fb) := by
  rcases (Nat.succ_le_of_lt p.f_lt).eq_or_lt with hlast | hlt
  · have hf : (f : ℚ) + 1 = (2 : ℚ) ^ (budget c k).fb := by exact_mod_cast hlast
    have hfb : (2 : ℚ) ^ (budget c k).fb ≠ 0 := by positivity
    rw [p.valmagRat_succ_of_carry hn hk hlast, placeExp_succ, heb, Nat.sub_self, pow_zero,
      zpow_add_one₀ (by norm_num), hf, div_self hfb]
    norm_num
  · exact p.valmagRat_succ_of_lt hn hlt

/-- R91: the fraction bits that the budget holds. -/
theorem exists_floor_fraction (fb : Nat) (hm1 : 1 ≤ m) (hm2 : m < 2) :
    ∃ q : Nat, ⌊(m - 1) * 2 ^ fb⌋ = (q : Int) ∧ (q : ℚ) ≤ (m - 1) * 2 ^ fb ∧ (m - 1) * 2 ^ fb < (q : ℚ) + 1 ∧
      q < 2 ^ fb := by
  have hscale : (0 : ℚ) < 2 ^ fb := by positivity
  have hfrac : 0 ≤ (m - 1) * 2 ^ fb := mul_nonneg (by linarith) hscale.le
  have hle := Nat.floor_le hfrac
  refine ⟨⌊(m - 1) * 2 ^ fb⌋₊, (Int.natCast_floor_eq_floor hfrac).symm, hle, Nat.lt_floor_add_one _, ?_⟩
  exact_mod_cast hle.trans_lt (mul_lt_of_lt_one_left hscale (by linarith))

/-- R91, first branch: between the neighbours the values are evenly spaced, so the nearer is told by what the
fraction budget cannot hold. -/
theorem isNearerNeighbour_roundFraction (hn : 2 ≤ c.n) (hlo : -((c.n : Int) - 2) ≤ k) (hk : k < (c.n : Int) - 2)
    (he : e < 2 ^ c.es) (heb : (budget c k).eb = c.es) (hm1 : 1 ≤ m) (hm2 : m < 2) :
    IsNearerNeighbour c ((2 : ℚ) ^ (k * (2 : Int) ^ c.es + (e : Int)) * m)
      (roundFraction c k e (budget c k).fb m) := by
  have hscale : (0 : ℚ) < (2 : ℚ) ^ (budget c k).fb := by positivity
  have hE : (0 : ℚ) < (2 : ℚ) ^ (k * (2 : Int) ^ c.es + (e : Int)) := by positivity
  obtain ⟨q, hq, hqle, hqlt, hqfit⟩ := exists_floor_fraction (budget c k).fb hm1 hm2
  have p : IsPlace c k e q := ⟨hlo, hk.le, heb ▸ he, hqfit⟩
  have hexp : placeExp c k e = k * (2 : Int) ^ c.es + (e : Int) := by simp [placeExp, heb]
  have hpack : packMag c k e (budget c k).fb q = blockPattern c k e q := by
    have := p.packMag_eq
    rwa [heb, Nat.sub_self, pow_zero, mul_one] at this
  have hval := p.valmagRat_eq hn
  have hsucc := p.valmagRat_succ_of_full hn hk heb
  rw [hexp] at hval hsucc
  refine ⟨blockPattern c k e q, p.isBracket hn hk ?_ ?_, ?_⟩
  · rw [hval]
    refine mul_le_mul_of_nonneg_left ?_ hE.le
    have := (div_le_iff₀ hscale).mpr hqle
    linarith
  · rw [hsucc]
    refine mul_lt_mul_of_pos_left ?_ hE
    have := (lt_div_iff₀ hscale).mpr hqlt
    linarith
  · have hmean : 2 * ((2 : ℚ) ^ (k * (2 : Int) ^ c.es + (e : Int)) * m) -
        (valmagRat c (blockPattern c k e q) + valmagRat c (blockPattern c k e q + 1)) =
        (2 : ℚ) ^ (k * (2 : Int) ^ c.es + (e : Int)) * 2 / 2 ^ (budget c k).fb *
          ((m - 1) * 2 ^ (budget c k).fb - (q : ℚ) - 1 / 2) := by
      rw [hval, hsucc]
      field_simp
      ring
    rw [hmean, nearerOf_mul (by positivity), roundFraction_eq_nearerOf, hq, ← hpack]
    rfl

/-- R91: the exponent with its low bits cleared, as the exponent of a place. -/
theorem placeExp_cut (c : Cfg) (k : Int) (e : Nat) :
    k * 2 ^ c.es + ((e / 2 ^ (c.es - (budget c k).eb) * 2 ^ (c.es - (budget c k).eb) : Nat) : Int) =
      placeExp c k (e / 2 ^ (c.es - (budget c k).eb)) := rfl

/-- R91: E lies from the exponent with its low bits cleared up to the next. -/
theorem placeExp_cut_range (c : Cfg) (k : Int) (e : Nat) :
    placeExp c k (e / 2 ^ (c.es - (budget c k).eb)) ≤ k * 2 ^ c.es + (e : Int) ∧
      k * 2 ^ c.es + (e : Int) <
        placeExp c k (e / 2 ^ (c.es - (budget c k).eb)) + 2 ^ (c.es - (budget c k).eb) := by
  have hlo := Nat.div_mul_le_self e (2 ^ (c.es - (budget c k).eb))
  have hhi := Nat.lt_div_mul_add (a := e) (Nat.two_pow_pos (c.es - (budget c k).eb))
  rw [← placeExp_cut]
  zify at hlo hhi ⊢
  omega

/-- R91: a number of the binade of E is below every greater power of two. -/
theorem zpow_mul_lt_zpow {B : Int} (hm2 : m < 2) (hB : E + 1 ≤ B) : (2 : ℚ) ^ E * m < (2 : ℚ) ^ B :=
  calc (2 : ℚ) ^ E * m < (2 : ℚ) ^ E * 2 := mul_lt_mul_of_pos_left hm2 (by positivity)
    _ = (2 : ℚ) ^ (E + 1) := (zpow_add_one₀ (by norm_num) _).symm
    _ ≤ (2 : ℚ) ^ B := zpow_le_zpow_right₀ (by norm_num) hB

/-- R91: a number of the upper neighbour's binade compares with the mean of `2^L` and `2^(L + w)` as m does with
`1 + 2^(-w)`. -/
theorem two_mul_sub_zpow_add_zpow {L w : Int} (m : ℚ) (hE : E + 1 = L + w) :
    2 * ((2 : ℚ) ^ E * m) - ((2 : ℚ) ^ L + (2 : ℚ) ^ (L + w)) =
      (2 : ℚ) ^ (L + w) * ((m - 1) - (2 : ℚ) ^ (-w)) := by
  have hlow : (2 : ℚ) ^ (L + w) * (2 : ℚ) ^ (-w) = (2 : ℚ) ^ L := by
    rw [← zpow_add₀ (by norm_num), add_neg_cancel_right]
  have hhigh : (2 : ℚ) ^ (L + w) = (2 : ℚ) ^ E * 2 := by rw [← hE, zpow_add_one₀ (by norm_num)]
  rw [mul_sub, hlow, hhigh]
  ring

/-- R91, second branch: the neighbours are powers of two, and only a number of the upper one's binade can be above
their mean. -/
theorem isNearerNeighbour_roundExponent (hn : 2 ≤ c.n) (hlo : -((c.n : Int) - 2) ≤ k) (hk : k < (c.n : Int) - 2)
    (he : e < 2 ^ c.es) (heb : (budget c k).eb ≠ c.es) (hm1 : 1 ≤ m) (hm2 : m < 2)
    (hE : E = k * (2 : Int) ^ c.es + (e : Int)) :
    IsNearerNeighbour c ((2 : ℚ) ^ E * m) (roundExponent c E k e (c.es - (budget c k).eb) m) := by
  have hfb : (budget c k).fb = 0 := (budget_eb_eq_or_fb_eq_zero c k).resolve_left heb
  have hlen := budget_eb_le c k
  have hcut : (2 : Int) ≤ 2 ^ (c.es - (budget c k).eb) := le_self_pow₀ (by decide) (by omega)
  have hpow : 2 ^ (c.es - (budget c k).eb) * 2 ^ (budget c k).eb = 2 ^ c.es := by
    rw [← pow_add, Nat.sub_add_cancel hlen]
  have p : IsPlace c k (e / 2 ^ (c.es - (budget c k).eb)) 0 :=
    ⟨hlo, hk.le, Nat.div_lt_of_lt_mul (hpow ▸ he), Nat.two_pow_pos _⟩
  have hpack := p.packMag_eq
  have hval := p.valmagRat_eq hn
  have hsucc := p.valmagRat_succ_of_carry hn hk (by rw [hfb]; rfl)
  have hexp := placeExp_cut c k e
  obtain ⟨hElo, hEhi⟩ := placeExp_cut_range c k e
  rw [← hE] at hElo hEhi
  rw [Nat.cast_zero, zero_div, add_zero, mul_one] at hval
  rw [hfb] at hpack
  rw [placeExp_succ] at hsucc
  generalize c.es - (budget c k).eb = cut at *
  generalize placeExp c k (e / 2 ^ cut) = Elo at *
  have hxlo : (2 : ℚ) ^ Elo ≤ (2 : ℚ) ^ E * m :=
    (zpow_le_zpow_right₀ (by norm_num) hElo).trans (le_mul_of_one_le_right (by positivity) hm1)
  refine ⟨blockPattern c k (e / 2 ^ cut) 0, p.isBracket hn hk (hval ▸ hxlo) (hsucc ▸ zpow_mul_lt_zpow hm2 hEhi), ?_⟩
  rw [hval, hsucc]
  by_cases hfar : E ≤ Elo + 2 ^ cut - 2
  · have hhalf := zpow_mul_lt_zpow hm2 (show E + 1 ≤ Elo + 2 ^ cut - 1 by omega)
    have hdouble : (2 : ℚ) ^ (Elo + 2 ^ cut) = (2 : ℚ) ^ (Elo + 2 ^ cut - 1) * 2 := by
      rw [← zpow_add_one₀ (by norm_num), sub_add_cancel]
    have hpos : (0 : ℚ) < (2 : ℚ) ^ Elo := by positivity
    rw [roundExponent_of_le m (hexp ▸ hfar), hpack, nearerOf, if_pos]
    linarith
  · rw [roundExponent_of_lt m (hexp ▸ not_le.mp hfar), hpack,
      two_mul_sub_zpow_add_zpow m (show E + 1 = Elo + 2 ^ cut by omega), nearerOf_mul (by positivity)]

/-- R82: inside the range the floor division of E by `2^es` gives a regime value and an exponent that fit. -/
theorem floorDiv_fits (hn : 2 ≤ c.n) (hlo : -(emax c : Int) ≤ E) (hhi : E < (emax c : Int)) :
    -((c.n : Int) - 2) ≤ E / 2 ^ c.es ∧ E / 2 ^ c.es < (c.n : Int) - 2 ∧ (E % 2 ^ c.es).toNat < 2 ^ c.es ∧
      E = E / 2 ^ c.es * 2 ^ c.es + ((E % 2 ^ c.es).toNat : Int) := by
  have hpow : (0 : Int) < 2 ^ c.es := by positivity
  have hemax : (emax c : Int) = ((c.n : Int) - 2) * 2 ^ c.es := by
    rw [emax]
    push_cast [Nat.cast_sub hn]
    rfl
  have hmod := Int.emod_nonneg E hpow.ne'
  have hlt := Int.emod_lt_of_pos E hpow
  refine ⟨?_, ?_, ?_, ?_⟩
  · rwa [Int.le_ediv_iff_mul_le hpow, neg_mul, ← hemax]
  · rwa [Int.ediv_lt_iff_lt_mul hpow, ← hemax]
  · zify
    omega
  · rw [Int.toNat_of_nonneg hmod, Int.ediv_mul_add_emod]

/-- R91: the significand m of `x = 2^E · m` for the E of x's binade. -/
theorem significand_range (hlog : (2 : ℚ) ^ E ≤ x) (hlog' : x < (2 : ℚ) ^ (E + 1)) :
    1 ≤ x / 2 ^ E ∧ x / 2 ^ E < 2 ∧ (2 : ℚ) ^ E * (x / 2 ^ E) = x := by
  have hE : (0 : ℚ) < (2 : ℚ) ^ E := by positivity
  refine ⟨(one_le_div hE).mpr hlog, ?_, mul_div_cancel₀ _ hE.ne'⟩
  rwa [div_lt_iff₀ hE, mul_comm, ← zpow_add_one₀ (by norm_num)]

end Operational

/-- Settles O30: inside the range each branch gives the nearer neighbour of `2^E · m`. -/
theorem roundMagEqualsTheOperationalForm : Obligations.RoundMagEqualsTheOperationalForm := by
  intro c x hc hd hx
  have hlog := Int.zpow_log_le_self (b := 2) (by decide) hx
  have hlog' := Int.lt_zpow_succ_log_self (b := 2) (by decide) x.toRat
  push_cast at hlog hlog'
  rw [roundMagOperational]
  generalize Int.log 2 x.toRat = E at *
  obtain ⟨hm1, hm2, hxm⟩ := significand_range hlog hlog'
  by_cases hhi : (emax c : Int) ≤ E
  · rw [if_pos hhi]
    exact roundMag_of_maxpos_le hd ((zpow_le_zpow_right₀ (by norm_num) hhi).trans hlog)
  by_cases hlo : E < -(emax c : Int)
  · rw [if_neg hhi, if_pos hlo]
    exact roundMag_of_le_minpos hc hd
      (hlog'.le.trans (zpow_le_zpow_right₀ (by norm_num) (Int.add_one_le_of_lt hlo)))
  obtain ⟨hklo, hkhi, he, hdecomp⟩ := floorDiv_fits hc.1 (not_lt.mp hlo) (not_le.mp hhi)
  refine roundMag_of_isNearerNeighbour hc hd ?_
  rw [if_neg hhi, if_neg hlo]
  by_cases heb : (budget c (E / 2 ^ c.es)).eb = c.es
  · rw [if_pos heb]
    have := isNearerNeighbour_roundFraction hc.1 hklo hkhi he heb hm1 hm2
    rwa [← hdecomp, hxm] at this
  · rw [if_neg heb]
    have := isNearerNeighbour_roundExponent hc.1 hklo hkhi he heb hm1 hm2 hdecomp
    rwa [hxm] at this

end Sys2Proof.Machine

namespace Sys2Proof.Machine

/-! ## The EXACT word (R46, R93) -/

/-- R46: bit 63 of a word is bit 63 of its lowest 64. -/
theorem slice_testBit_63 (v : Nat) : (slice v 63 0).testBit 63 = v.testBit 63 := by
  rw [slice, Nat.testBit_mod_two_pow, pow_zero, Nat.div_one]
  rfl

section ExactWord
variable {cls : PClass} {sign : Bool} {E : Int} {sig : Nat}

theorem PClass.code_lt (cls : PClass) : cls.code < 4 := by cases cls <;> decide

@[simp] theorem PClass.ofCode_code (cls : PClass) : PClass.ofCode cls.code = cls := by cases cls <;> rfl

/-- R46: each field of an EXACT word at its place, and zeros above them. -/
theorem exactWord_slices (hsig : sig < 2 ^ 64) :
    let y := (exactWord cls sign E sig).toNat
    slice y 63 0 = sig ∧ slice y 135 64 = wrapInt 72 E ∧ slice y 136 136 = bitNat sign ∧
      slice y 138 137 = cls.code ∧ slice y 159 137 = cls.code := by
  have hE := wrapInt_lt 72 E
  have hs := bitNat_lt sign
  have hc := cls.code_lt
  have hy : (exactWord cls sign E sig).toNat =
      sig + wrapInt 72 E * 2 ^ 64 + bitNat sign * 2 ^ 136 + cls.code * 2 ^ 137 :=
    (BitVec.toNat_ofNat _ _).trans (Nat.mod_eq_of_lt (by omega))
  simp only [hy, slice]
  refine ⟨?_, ?_, ?_, ?_, ?_⟩
  all_goals omega

theorem exactWord_signedOf (hsig : sig < 2 ^ 64) (hlo : -2 ^ 71 ≤ E) (hhi : E < 2 ^ 71) :
    signedOf 72 (slice (exactWord cls sign E sig).toNat 135 64) = E := by
  have hpow : ((2 ^ (72 - 1) : Nat) : Int) = 2 ^ 71 := rfl
  obtain ⟨-, hE, -⟩ := exactWord_slices (cls := cls) (sign := sign) (E := E) hsig
  rw [hE, signedOf_wrapInt (by decide) (by rwa [hpow]) (by rwa [hpow])]

/-- R46: an EXACT word read as ROUND reads it. -/
theorem ofWord_exactWord (hsig : sig < 2 ^ 64) (hlo : -2 ^ 71 ≤ E) (hhi : E < 2 ^ 71) :
    ExactIn.ofWord (exactWord cls sign E sig) = ⟨cls, sign, E, sig⟩ := by
  obtain ⟨hs, -, hsign, hcls, -⟩ := exactWord_slices (cls := cls) (sign := sign) (E := E) hsig
  simp only [ExactIn.ofWord, hs, hsign, hcls, exactWord_signedOf hsig hlo hhi, bitNat_beq_one, PClass.ofCode_code]

end ExactWord

theorem signed_cast (sign : Bool) (m : Nat) : (signed sign m : ℚ) = signRat sign * (m : ℚ) := by
  cases sign <;> simp [signed, signRat]

/-- R46: the number that a FIN EXACT word stands for. -/
theorem ExactIn.toRat_term (X : ExactIn) :
    X.term.toRat = signRat X.sign * (2 : ℚ) ^ X.E * ((X.sig : ℚ) / 2 ^ 63) := by
  have hexp : (2 : ℚ) ^ (X.E - 63) = (2 : ℚ) ^ X.E / 2 ^ 63 := by
    rw [zpow_sub₀ (by norm_num)]
    rfl
  rw [Term.toRat, ExactIn.term, signed_cast, hexp]
  ring

/-- R93: the significand field of a finite value. -/
def Fields.sig (F : Fields) : Nat := 2 ^ 63 + F.f * 2 ^ (63 - F.fb)

section Significand
variable {F : Fields}

/-- R93: `sig / 2^63` is the significand of the exact form. -/
theorem Fields.sig_div (h : F.fb ≤ 63) : (F.sig : ℚ) / 2 ^ 63 = 1 + (F.f : ℚ) / 2 ^ F.fb := by
  have hpow : (2 : ℚ) ^ 63 = 2 ^ (63 - F.fb) * 2 ^ F.fb := by rw [← pow_add, Nat.sub_add_cancel h]
  rw [Fields.sig, Nat.cast_add, Nat.cast_mul, Nat.cast_pow, Nat.cast_pow, Nat.cast_ofNat, hpow]
  field_simp

theorem Fields.sig_lt (h : F.fb ≤ 63) (hf : F.f < 2 ^ F.fb) : F.sig < 2 ^ 64 := by
  have hlt := mul_two_pow_sub_lt hf h
  unfold Fields.sig
  omega

theorem Fields.sig_testBit (hlt : F.sig < 2 ^ 64) : F.sig.testBit 63 = true :=
  Nat.testBit_of_two_pow_le_and_two_pow_add_one_gt (Nat.le_add_right _ _) hlt

end Significand

theorem Fields.exponent_eq (es : Nat) (F : Fields) : F.exponent es = F.k * (2 : Int) ^ es + (F.e : Int) := by
  simp [Fields.exponent]

/-- R93: what a finite value's EXACT word holds fits its fields. -/
structure Fields.ExactFits (es : Nat) (F : Fields) : Prop where
  fb_le : F.fb ≤ 63
  sig_lt : F.sig < 2 ^ 64
  exponent_lo : -2 ^ 71 ≤ F.exponent es
  exponent_hi : F.exponent es < 2 ^ 71

theorem PV.fields_exactFits {v : PV} (hwf : v.wellFormed = true) (hfin : v.cls = .fin) :
    v.fields.ExactFits v.es := by
  obtain ⟨hn, h64, hes⟩ : 2 ≤ v.n ∧ v.n ≤ 64 ∧ v.es ≤ v.n - 2 := v.cfg.valid_iff.mp (PV.cfg_valid_of_wellFormed hwf)
  obtain ⟨h0, hm⟩ := PV.mag_range hwf hfin
  obtain ⟨hlo, hhi⟩ : -((v.n : Int) - 2) ≤ v.fields.k ∧ v.fields.k ≤ (v.n : Int) - 2 :=
    regimeDecode_k_range hn h0 hm
  have hfb : v.fields.fb ≤ v.n - 3 := magFields_fb_le v.sign hn
  have he : v.fields.e < 2 ^ v.es := magFields_e_lt v.sign
  have he' : (v.fields.e : Int) < 2 ^ v.es := by exact_mod_cast he
  have hpow : (2 : Int) ^ v.es ≤ 2 ^ 62 := pow_le_pow_right₀ (by decide) (by omega)
  have hpos : (0 : Int) < 2 ^ v.es := by positivity
  have hfb' : v.fields.fb ≤ 63 := by omega
  refine ⟨hfb', Fields.sig_lt hfb' (magFields_f_lt v.sign), ?_, ?_⟩ <;> rw [Fields.exponent_eq]
  · have : -62 * (2 : Int) ^ v.es ≤ v.fields.k * 2 ^ v.es := mul_le_mul_of_nonneg_right (by omega) hpos.le
    omega
  · have : v.fields.k * 2 ^ v.es ≤ 62 * (2 : Int) ^ v.es := mul_le_mul_of_nonneg_right (by omega) hpos.le
    omega

/-- R80, R81: the value of fields from what the EXACT word holds. -/
theorem Fields.ExactFits.val_eq {es : Nat} {F : Fields} (h : F.ExactFits es) :
    signRat F.sign * (2 : ℚ) ^ F.exponent es * ((F.sig : ℚ) / 2 ^ 63) = F.val es := by
  rw [Fields.sig_div h.fb_le, Fields.exponent_eq, Fields.val]

/-- R93: the EXACT word of a finite value. -/
theorem toexactWord_fin (es : Nat) (F : Fields) :
    toexactWord es (.fin F) = exactWord .fin F.sign (F.exponent es) F.sig := rfl

theorem Fields.ExactFits.ofWord {es : Nat} {F : Fields} (h : F.ExactFits es) :
    ExactIn.ofWord (toexactWord es (.fin F)) = ⟨.fin, F.sign, F.exponent es, F.sig⟩ :=
  ofWord_exactWord h.sig_lt h.exponent_lo h.exponent_hi

theorem toexactWord_zero (es : Nat) : toexactWord es .zero = exactWord .zero false 0 0 := rfl

theorem toexactWord_inf (es : Nat) : toexactWord es .inf = exactWord .inf false 0 0 := rfl

/-- R46: the class of an EXACT word read back. -/
theorem ofWord_exactWord_cls {sig : Nat} (cls : PClass) (sign : Bool) (E : Int) (hsig : sig < 2 ^ 64) :
    (ExactIn.ofWord (exactWord cls sign E sig)).cls = cls := by
  obtain ⟨-, -, -, hcls, -⟩ := exactWord_slices (cls := cls) (sign := sign) (E := E) hsig
  rw [ExactIn.ofWord, hcls, PClass.ofCode_code]

/-! ## TOEXACT and ROUND (R97, R98) -/

/-- R97: TOEXACT answers the EXACT word of an operand that loads. -/
theorem replies_toexact {s : State} {A : PV} (h : Loads s.req.a A) :
    RepliesAux .toexact s (toexactWord A.es A.decoded) :=
  (replies_iff (fun _ => rfl) s _).mpr (withA_of_loads _ h)

/-- R51, R98: ROUND with a valid configuration answers the value that the EXACT word gives. -/
theorem repliesPV_round {u : Bool} {cn ces : Nat} {s : State} {v : PV} (h : (resolveCfg u cn ces s).valid = true)
    (hv : roundExact (resolveCfg u cn ces s) (ExactIn.ofWord s.req.x) = Response.ofPV v) :
    RepliesPV (.round u cn ces) s v :=
  (replies_iff (fun _ => rfl) s _).mpr ((withCfg_of_valid _ h).trans hv)

section RoundExact
variable {c : Cfg} {X : ExactIn}

theorem roundExact_of_zero (h : X.cls = .zero) : roundExact c X = Response.ofPV (PV.real c 0) := by
  simp [roundExact, h]

theorem roundExact_of_inf (h : X.cls = .inf) : roundExact c X = Response.ofPV (PV.infOf c) := by
  simp [roundExact, h]

theorem roundExact_of_nan (h : X.cls = .nan) : roundExact c X = Response.ofPV (PV.nanOf c) := by
  simp [roundExact, h]

theorem roundExact_of_fin (h : X.cls = .fin) (hsig : X.sig.testBit 63 = true) :
    roundExact c X = Response.ofPV (PV.rounded c (Exact.ofTerm X.term)) := by
  simp [roundExact, h, hsig]

end RoundExact

/-- R97, R98: ROUND of the EXACT word of a value that is not a NaN gives the value. -/
theorem roundExact_toexactWord {v : PV} (hwf : v.wellFormed = true) (hnan : v.nan = false) :
    roundExact v.cfg (ExactIn.ofWord (toexactWord v.es v.decoded)) = Response.ofPV v := by
  rcases v.decoded_cases with ⟨h, -⟩ | ⟨-, h0, hd⟩ | ⟨-, hinf, hd⟩ | ⟨-, h0, hinf, hd⟩
  · exact absurd (hnan.symm.trans h) Bool.false_ne_true
  · have hcls := ofWord_exactWord_cls .zero false 0 (Nat.two_pow_pos 64)
    rw [hd, toexactWord_zero, roundExact_of_zero hcls, ← h0, PV.real_cfg_bits hnan]
  · have hcls := ofWord_exactWord_cls .inf false 0 (Nat.two_pow_pos 64)
    have hbits : infPat v.cfg.n = v.bits := hinf.symm
    rw [hd, toexactWord_inf, roundExact_of_inf hcls, PV.infOf, hbits, PV.real_cfg_bits hnan]
  · have hfin : v.cls = .fin := PV.cls_eq_fin_iff.mpr ⟨hnan, h0, hinf⟩
    have hfits := PV.fields_exactFits hwf hfin
    have hsig := Fields.sig_testBit hfits.sig_lt
    rw [hd, hfits.ofWord, roundExact_of_fin (X := ⟨.fin, _, _, v.fields.sig⟩) rfl hsig, PV.rounded,
      roundBits_of_fields_val hwf hfin Nat.one_pos, PV.real_cfg_bits hnan]
    rw [Exact.toRat_ofTerm, ExactIn.toRat_term, hfits.val_eq]

/-- Settles O36: the EXACT word reads back as the exact form, whose value rounds to the operand's own pattern. -/
theorem toexactThenRoundIsTheOperand : Obligations.ToexactThenRoundIsTheOperand := by
  intro s t A y hA hnan hy hx
  have hword : Response.ofAux (toexactWord A.es A.decoded) = Response.ofAux y :=
    (withA_of_loads _ hA).symm.trans ((replies_iff (fun _ => rfl) s _).mp hy)
  have hy' : t.req.x = toexactWord A.es A.decoded := hx.trans (congrArg Response.y hword).symm
  refine repliesPV_round (PV.cfg_valid_of_wellFormed hA.wellFormed) ?_
  rw [hy']
  exact roundExact_toexactWord hA.wellFormed hnan

/-- Settles O34: by the places of the EXACT word, where the exact form of a finite value fits. -/
theorem toexactReportsTheExactForm : Obligations.ToexactReportsTheExactForm := by
  intro s A hA
  refine ⟨_, replies_toexact hA, ?_⟩
  rcases A.decoded_cases with ⟨h, hd⟩ | ⟨h, h0, hd⟩ | ⟨h, hinf, hd⟩ | ⟨h, h0, hinf, hd⟩
  · exact ⟨by simp [PV.cls, hd], by simp [PV.cls, hd], fun _ => hd ▸ rfl, by simp [PV.cls, hd]⟩
  · exact ⟨fun _ => hd ▸ rfl, by simp [PV.cls, hd], by simp [PV.cls, hd], by simp [PV.cls, hd]⟩
  · exact ⟨by simp [PV.cls, hd], fun _ => hd ▸ rfl, by simp [PV.cls, hd], by simp [PV.cls, hd]⟩
  · have hfits := PV.fields_exactFits hA.wellFormed (PV.cls_eq_fin_iff.mpr ⟨h, h0, hinf⟩)
    refine ⟨by simp [PV.cls, hd], by simp [PV.cls, hd], by simp [PV.cls, hd], fun q _ hq => ?_⟩
    have hval : A.fields.val A.es = q := by
      rw [PV.val, hd] at hq
      exact Option.some.inj hq
    obtain ⟨hsig, -, hsign, -, htop⟩ :=
      exactWord_slices (cls := .fin) (sign := A.fields.sign) (E := A.fields.exponent A.es) hfits.sig_lt
    have hE := exactWord_signedOf (cls := .fin) (sign := A.fields.sign) hfits.sig_lt hfits.exponent_lo
      hfits.exponent_hi
    rw [hd, toexactWord_fin, hE, hsig, htop, ← slice_self_beq_one _ 136, hsign, bitNat_beq_one]
    refine ⟨hfits.val_eq.trans hval, Fields.exponent_eq _ _, ?_, rfl, rfl⟩
    rw [← slice_testBit_63, hsig]
    exact Fields.sig_testBit hfits.sig_lt

/-- Settles O35: ROUND answers from the class code, and for FIN the rounding of the number that the word stands
for. -/
theorem roundAnswers : Obligations.RoundAnswers := by
  rintro u cn ces s c x rfl hc rfl
  have hc' : (resolveCfg u cn ces s).valid = true := (validCfg_iff _).mp hc
  have hcls : (ExactIn.ofWord s.req.x).cls = PClass.ofCode (slice s.req.x.toNat 138 137) := rfl
  refine ⟨fun h => ?_, fun h => ?_, fun h => ?_, fun h hsig => ?_⟩ <;> rw [h] at hcls
  · exact repliesPV_round hc' (roundExact_of_zero hcls)
  · exact repliesPV_round hc' (roundExact_of_inf hcls)
  · exact repliesPV_round hc' (roundExact_of_nan hcls)
  · refine ⟨_, repliesPV_round hc' (roundExact_of_fin hcls ((slice_testBit_63 _).trans hsig)), ?_⟩
    have hround := roundIsTheNearestPattern _ (Exact.ofTerm (ExactIn.ofWord s.req.x).term) hc Nat.one_pos
    rw [Exact.toRat_ofTerm, ExactIn.toRat_term] at hround
    rw [← slice_self_beq_one]
    exact hround

end Sys2Proof.Machine

namespace Sys2Proof.Machine

/-! ## Rounding to binary64 (R96) -/

section Rne
variable {t : ℚ} {q m k N : Nat}

/-- R96: the integer nearest to t, from the greatest integer below it. -/
theorem rneRat_of_floor (hlo : (q : ℚ) ≤ t) (hhi : t < (q : ℚ) + 1) :
    rneRat t =
      if t - (q : ℚ) < 1 / 2 then q else if 1 / 2 < t - (q : ℚ) then q + 1 else if q % 2 = 0 then q else q + 1 := by
  have hfloor : ⌊t⌋ = (q : Int) := Int.floor_eq_iff.mpr ⟨by exact_mod_cast hlo, by exact_mod_cast hhi⟩
  simp only [rneRat, hfloor, Int.toNat_natCast]

/-- R96: an integer is its own nearest integer. -/
theorem rneRat_natCast (m : Nat) : rneRat (m : ℚ) = m := by
  rw [rneRat_of_floor le_rfl (by linarith), sub_self, if_pos (by norm_num)]

/-- R96: the integer nearest to a number of at most N is at most N. -/
theorem rneRat_le (h0 : 0 ≤ t) (h : t ≤ N) : rneRat t ≤ N := by
  rcases h.eq_or_lt with rfl | hlt
  · exact (rneRat_natCast N).le
  · have hlo := Nat.floor_le h0
    have hfloor : ⌊t⌋₊ < N := by exact_mod_cast hlo.trans_lt hlt
    rw [rneRat_of_floor hlo (Nat.lt_floor_add_one t)]
    split_ifs <;> omega

/-- R96: the integer nearest to `m / 2^k`, from the quotient and twice the remainder. -/
theorem rneRat_div (m k : Nat) :
    rneRat ((m : ℚ) / 2 ^ k) =
      if 2 * (m % 2 ^ k) < 2 ^ k then m / 2 ^ k
      else if 2 ^ k < 2 * (m % 2 ^ k) then m / 2 ^ k + 1
      else if m / 2 ^ k % 2 = 0 then m / 2 ^ k else m / 2 ^ k + 1 := by
  have hpow : (0 : ℚ) < 2 ^ k := by positivity
  have hrem : ((m % 2 ^ k : Nat) : ℚ) < 2 ^ k := by exact_mod_cast Nat.mod_lt m (Nat.two_pow_pos k)
  have hsplit : (m : ℚ) = 2 ^ k * ((m / 2 ^ k : Nat) : ℚ) + ((m % 2 ^ k : Nat) : ℚ) := by
    exact_mod_cast (Nat.div_add_mod m (2 ^ k)).symm
  have hdiv : (m : ℚ) / 2 ^ k = ((m / 2 ^ k : Nat) : ℚ) + ((m % 2 ^ k : Nat) : ℚ) / 2 ^ k := by
    rw [div_eq_iff hpow.ne', add_mul, div_mul_cancel₀ _ hpow.ne', mul_comm, ← hsplit]
  have hfrac : ((m % 2 ^ k : Nat) : ℚ) / 2 ^ k < 1 := (div_lt_one hpow).mpr hrem
  have hbelow : ((m % 2 ^ k : Nat) : ℚ) / 2 ^ k < 1 / 2 ↔ 2 * (m % 2 ^ k) < 2 ^ k := by
    rw [div_lt_div_iff₀ hpow two_pos, one_mul, mul_comm]
    exact_mod_cast Iff.rfl
  have habove : 1 / 2 < ((m % 2 ^ k : Nat) : ℚ) / 2 ^ k ↔ 2 ^ k < 2 * (m % 2 ^ k) := by
    rw [div_lt_div_iff₀ two_pos hpow, one_mul, mul_comm]
    exact_mod_cast Iff.rfl
  have hnonneg : 0 ≤ ((m % 2 ^ k : Nat) : ℚ) / 2 ^ k := by positivity
  rw [rneRat_of_floor (q := m / 2 ^ k) (by linarith) (by linarith), hdiv, add_sub_cancel_left]
  simp only [hbelow, habove]

/-- R96: the machine's rounding of a quotient. -/
theorem rneDiv_eq (m k : Nat) : rneDiv m k = rneRat ((m : ℚ) / 2 ^ k) := by
  rw [rneRat_div, rneDiv]
  by_cases hsmall : m.log2 + 1 < k
  · have hm : m < 2 ^ (k - 1) := Nat.lt_log2_self.trans_le (Nat.pow_le_pow_right (by decide) (by omega))
    have hdouble : 2 ^ (k - 1) * 2 = 2 ^ k := Nat.two_pow_pred_mul_two (by omega)
    rw [if_pos hsmall, Nat.mod_eq_of_lt (by omega), if_pos (by omega), Nat.div_eq_of_lt (by omega)]
  · rw [if_neg hsmall]

theorem rneShift_eq (m : Nat) (sh : Int) : rneShift m sh = rneRat ((m : ℚ) * (2 : ℚ) ^ sh) := by
  rcases le_or_gt 0 sh with h | h
  · obtain ⟨i, rfl⟩ := Int.eq_ofNat_of_zero_le h
    have hcast : (m : ℚ) * (2 : ℚ) ^ (i : Int) = ((m * 2 ^ i : Nat) : ℚ) := by push_cast; simp
    rw [rneShift, if_pos h, hcast, rneRat_natCast, Int.toNat_natCast]
  · obtain ⟨i, hi⟩ := Int.eq_ofNat_of_zero_le (show 0 ≤ -sh by omega)
    have hsh : sh = -(i : Int) := by omega
    rw [rneShift, if_neg h.not_ge, hi, Int.toNat_natCast, rneDiv_eq, hsh, zpow_neg, zpow_natCast, div_eq_mul_inv]

end Rne

/-- R96: the exponent of a number's binade from its coefficient's highest bit. -/
theorem log_natCast_mul_zpow {a : Nat} (ha : a ≠ 0) (e : Int) :
    Int.log 2 ((a : ℚ) * (2 : ℚ) ^ e) = (a.log2 : Int) + e := by
  have hpos : (0 : ℚ) < (a : ℚ) * (2 : ℚ) ^ e := by positivity
  have hlo : (2 : ℚ) ^ a.log2 ≤ (a : ℚ) := by exact_mod_cast Nat.log2_self_le ha
  have hhi : (a : ℚ) < (2 : ℚ) ^ (a.log2 + 1) := by exact_mod_cast Nat.lt_log2_self
  have he : (0 : ℚ) < (2 : ℚ) ^ e := by positivity
  refine le_antisymm (Int.lt_add_one_iff.mp ?_) ?_
  · rw [← Int.lt_zpow_iff_log_lt (by decide) hpos, Nat.cast_ofNat, add_right_comm, zpow_add₀ (by norm_num)]
    exact mul_lt_mul_of_pos_right (by exact_mod_cast hhi) he
  · rw [← Int.zpow_le_iff_le_log (by decide) hpos, Nat.cast_ofNat, zpow_add₀ (by norm_num), zpow_natCast]
    exact mul_le_mul_of_nonneg_right hlo he.le

theorem Term.abs_toRat (x : Term) : |x.toRat| = (x.coef.natAbs : ℚ) * (2 : ℚ) ^ x.exp := by
  rw [Term.toRat, abs_mul, abs_of_pos (zpow_pos (by norm_num : (0 : ℚ) < 2) _), ← Int.cast_abs, Int.abs_eq_natAbs]
  rfl

theorem Term.toRat_neg_iff (x : Term) : x.toRat < 0 ↔ x.coef < 0 := by
  rw [Term.toRat, ← not_le, mul_nonneg_iff_of_pos_right (zpow_pos (by norm_num) _), not_le, Int.cast_lt_zero]

/-- R96: `RoundF64` with its normal result named. -/
theorem roundF64Rat_eq (x : ℚ) :
    roundF64Rat x =
      if Int.log 2 |x| < -1022 then f64SignBit (decide (x < 0)) + rneRat (|x| * 2 ^ 1074)
      else f64Normal (decide (x < 0)) (Int.log 2 |x|) (rneRat (|x| * (2 : ℚ) ^ (52 - Int.log 2 |x|))) := rfl

/-- R96: the machine's rounding of a term is the rule's rounding of its number. -/
theorem roundF64_eq (x : Term) (h : x.coef ≠ 0) : roundF64 x = roundF64Rat x.toRat := by
  have hlog := log_natCast_mul_zpow (Int.natAbs_ne_zero.mpr h) x.exp
  have hshift : ∀ i : Int, (x.coef.natAbs : ℚ) * (2 : ℚ) ^ (x.exp + i) = |x.toRat| * (2 : ℚ) ^ i := fun i => by
    rw [x.abs_toRat, mul_assoc, zpow_add₀ (by norm_num)]
  rw [← x.abs_toRat] at hlog
  have hsub : |x.toRat| * (2 : ℚ) ^ (1074 : Int) = |x.toRat| * 2 ^ 1074 := by rw [zpow_ofNat]
  simp only [roundF64, roundF64Rat_eq, rneShift_eq, hshift, hsub, hlog, x.toRat_neg_iff]

theorem f64SignBit_le (s : Bool) : f64SignBit s ≤ 2 ^ 63 := by cases s <;> decide

/-- R96: a normal result fits 64 bits. -/
theorem f64Normal_lt (s : Bool) (E : Int) {q : Nat} (hq : q ≤ 2 ^ 53) : f64Normal s E q < 2 ^ 64 := by
  have hs := f64SignBit_le s
  simp only [f64Normal]
  split_ifs <;> omega

/-- R96: a rounded number fits 64 bits: below the normal range its significand is at most `2^52`, in it at
most `2^53`. -/
theorem roundF64Rat_lt (x : ℚ) : roundF64Rat x < 2 ^ 64 := by
  have hs := f64SignBit_le (decide (x < 0))
  have hlog : |x| < (2 : ℚ) ^ (Int.log 2 |x| + 1) := by
    exact_mod_cast Int.lt_zpow_succ_log_self (b := 2) (by decide) |x|
  have hscaled : ∀ (i : Int) (N : Nat), Int.log 2 |x| + 1 + i ≤ N → |x| * (2 : ℚ) ^ i ≤ ((2 ^ N : Nat) : ℚ) :=
    fun i N hN =>
    calc |x| * (2 : ℚ) ^ i ≤ (2 : ℚ) ^ (Int.log 2 |x| + 1) * (2 : ℚ) ^ i :=
          mul_le_mul_of_nonneg_right hlog.le (by positivity)
      _ = (2 : ℚ) ^ (Int.log 2 |x| + 1 + i) := (zpow_add₀ (by norm_num) _ _).symm
      _ ≤ (2 : ℚ) ^ (N : Int) := zpow_le_zpow_right₀ (by norm_num) hN
      _ = ((2 ^ N : Nat) : ℚ) := by simp
  rw [roundF64Rat_eq]
  split_ifs with hE
  · have hsub := hscaled 1074 52 (by omega)
    rw [zpow_ofNat] at hsub
    have := rneRat_le (by positivity) hsub
    omega
  · exact f64Normal_lt _ _ (rneRat_le (by positivity) (hscaled _ 53 (by omega)))

/-! ## TO_F64 (R99) -/

/-- R99: TO_F64 answers the binary64 word of an operand that loads. -/
theorem replies_toF64 {s : State} {A : PV} (h : Loads s.req.a A) :
    RepliesAux .toF64 s (f64Word (toF64Bits A.es A.decoded)) :=
  (replies_iff (fun _ => rfl) s _).mpr (withA_of_loads _ h)

/-- R81: the value of fields is not 0. -/
theorem Fields.term_coef_ne_zero (es : Nat) (F : Fields) : (F.term es).coef ≠ 0 := by
  have hpos := Nat.two_pow_pos F.fb
  have hcoef : (F.term es).coef = signed F.sign (2 ^ F.fb + F.f) := rfl
  rw [hcoef, signed]
  split <;> omega

/-- R99: the binary64 word of a finite value. -/
theorem toF64Bits_fin (es : Nat) (F : Fields) : toF64Bits es (.fin F) = roundF64Rat (F.val es) := by
  rw [← Fields.toRat_term]
  exact roundF64_eq _ (F.term_coef_ne_zero es)

/-- Settles O37: by the class of the operand; a finite value's term is rounded as its rational. -/
theorem toF64Answers : Obligations.ToF64Answers := by
  intro s A hA
  have hreply := replies_toF64 hA
  rcases A.decoded_cases with ⟨h, hd⟩ | ⟨h, h0, hd⟩ | ⟨h, hinf, hd⟩ | ⟨h, h0, hinf, hd⟩ <;> rw [hd] at hreply
  · exact ⟨fun _ => hreply, by simp [PV.cls, hd], by simp [PV.cls, hd], by simp [PV.cls, hd]⟩
  · exact ⟨by simp [PV.cls, hd], by simp [PV.cls, hd], fun _ => hreply, by simp [PV.cls, hd]⟩
  · exact ⟨by simp [PV.cls, hd], fun _ => hreply, by simp [PV.cls, hd], by simp [PV.cls, hd]⟩
  · refine ⟨by simp [PV.cls, hd], by simp [PV.cls, hd], by simp [PV.cls, hd], fun q _ hq => ⟨_, hreply, ?_⟩⟩
    have hval : A.fields.val A.es = q := by
      rw [PV.val, hd] at hq
      exact Option.some.inj hq
    have hlt := roundF64Rat_lt q
    have hword : (f64Word (toF64Bits A.es (.fin A.fields))).toNat = roundF64Rat q := by
      rw [toF64Bits_fin, hval]
      exact (BitVec.toNat_ofNat _ _).trans (Nat.mod_eq_of_lt (by omega))
    exact ⟨hword, hword ▸ hlt⟩

/-! ## FROM_F64 (R94, R95, R100) -/

/-- R51, R100: FROM_F64 with a valid configuration answers the posit of the binary64 word. -/
theorem repliesPV_fromF64 {u : Bool} {cn ces : Nat} {s : State} (h : (resolveCfg u cn ces s).valid = true) :
    RepliesPV (.fromF64 u cn ces) s (fromF64PV (resolveCfg u cn ces s) (f64OfWord s.req.x)) :=
  (replies_iff (fun _ => rfl) s _).mpr (withCfg_of_valid _ h)

section F64Class
variable {d : Nat}

/-- R94: the exponent and fraction fields of a binary64 word below its sign. -/
theorem slice_62_0_eq (d : Nat) : slice d 62 0 = slice d 62 52 * 2 ^ 52 + slice d 51 0 := by
  simp only [slice]
  omega

theorem slice_51_0_lt (d : Nat) : slice d 51 0 < 2 ^ 52 := slice_lt d 51 0

theorem f64Class_of_zero (h : slice d 62 0 = 0) : f64Class d = .zero := by
  rw [slice_62_0_eq] at h
  exact if_pos ⟨by omega, by omega⟩

theorem f64Class_of_inf (h : slice d 62 0 = 2047 * 2 ^ 52) : f64Class d = .inf := by
  have htf := slice_51_0_lt d
  rw [slice_62_0_eq] at h
  exact (if_neg (by omega)).trans (if_pos ⟨by omega, by omega⟩)

theorem f64Class_of_nan (h : 2047 * 2 ^ 52 < slice d 62 0) : f64Class d = .nan := by
  have htf := slice_51_0_lt d
  have hbe : slice d 62 52 < 2 ^ 11 := slice_lt d 62 52
  rw [slice_62_0_eq] at h
  exact (if_neg (by omega)).trans ((if_neg (by omega)).trans (if_pos (by omega)))

theorem f64Class_of_fin (h0 : 0 < slice d 62 0) (h : slice d 62 0 < 2047 * 2 ^ 52) : f64Class d = .fin := by
  rw [slice_62_0_eq] at h0 h
  exact (if_neg (by omega)).trans ((if_neg (by omega)).trans (if_neg (by omega)))

/-- R94: the term of a binary64 word is its exact value. -/
theorem f64Val_toRat (d : Nat) : (f64Val d).toRat = f64ValRat d := by
  simp only [f64Val, f64ValRat, slice_self_beq_one]
  split_ifs
  · simp only [Term.toRat, signed_cast]
  · simp only [Term.toRat, signed_cast]
    push_cast
    rfl

end F64Class

/-- Settles O38: the class of the word by its bits [62:0], and for a number the rounding of its exact value. -/
theorem fromF64Answers : Obligations.FromF64Answers := by
  rintro u cn ces s c d rfl hc rfl
  have hreply := repliesPV_fromF64 ((validCfg_iff _).mp hc)
  refine ⟨fun h => ?_, fun h => ?_, fun h => ?_, fun h0 h => ?_⟩
  · rwa [fromF64PV, f64OfWord, f64Class_of_zero h] at hreply
  · rwa [fromF64PV, f64OfWord, f64Class_of_inf h] at hreply
  · rwa [fromF64PV, f64OfWord, f64Class_of_nan h] at hreply
  · rw [fromF64PV, f64OfWord, f64Class_of_fin h0 h] at hreply
    have hround := roundIsTheNearestPattern _ (Exact.ofTerm (f64Val (slice s.req.x.toNat 63 0))) hc Nat.one_pos
    rw [Exact.toRat_ofTerm, f64Val_toRat] at hround
    exact ⟨_, hreply, hround⟩

end Sys2Proof.Machine

/-! # Proofs of 42_arithmetic.md

NEG flips the sign of a finite value's fields and keeps its magnitude (R115). REC, ADD and MUL are described once for
each kind of operand: a NaN, an infinity, or a value; on values each answers a rounding of the exact result (R112), and
a rounding depends on the number alone. The statements about the operations are read off these descriptions. -/

namespace Sys2Proof.Machine

/-! ## Operands by what they stand for (R61, R81) -/

section Kinds
variable {v : PV} {q : ℚ}

theorem IsInfinity.decoded (h : IsInfinity v) : v.decoded = .inf := PV.decoded_of_inf h.1 h.2

theorem PV.infOf_isInfinity (c : Cfg) : IsInfinity (PV.infOf c) := ⟨rfl, rfl⟩

theorem PV.real_zero_val (c : Cfg) : (PV.real c 0).val = some 0 := rfl

theorem PV.nanOf_nan (c : Cfg) : (PV.nanOf c).nan = true := rfl

theorem PV.validCfg_of_wellFormed (h : v.wellFormed = true) : ValidCfg v.cfg :=
  (validCfg_iff _).mpr (PV.cfg_valid_of_wellFormed h)

/-- R81: a value of fields is not 0. -/
theorem Fields.val_ne_zero (es : Nat) (F : Fields) : F.val es ≠ 0 := by
  have hcoef : ((F.term es).coef : ℚ) ≠ 0 := Int.cast_ne_zero.mpr (F.term_coef_ne_zero es)
  rw [← Fields.toRat_term]
  exact mul_ne_zero hcoef (zpow_ne_zero _ two_ne_zero)

theorem PV.val_of_decoded_fin {F : Fields} (h : v.decoded = .fin F) : v.val = some (F.val v.es) := by
  rw [PV.val, h]

theorem PV.val_of_decoded_zero (h : v.decoded = .zero) : v.val = some 0 := by
  rw [PV.val, h]

/-- R81: what has a value is zero or finite. -/
theorem PV.val_cases (h : v.val = some q) :
    v.decoded = .zero ∧ q = 0 ∨ ∃ F, v.decoded = .fin F ∧ q = F.val v.es ∧ q ≠ 0 := by
  unfold PV.val at h
  split at h
  case h_1 F hd =>
    cases h
    exact .inr ⟨F, hd, rfl, F.val_ne_zero _⟩
  case h_2 hd =>
    cases h
    exact .inl ⟨hd, rfl⟩
  all_goals nomatch h

theorem PV.decoded_of_val_zero (h : v.val = some 0) : v.decoded = .zero := by
  rcases PV.val_cases h with ⟨hd, -⟩ | ⟨F, -, -, hne⟩
  · exact hd
  · exact absurd rfl hne

theorem PV.decoded_of_val_ne_zero (h : v.val = some q) (hq : q ≠ 0) :
    ∃ F, v.decoded = .fin F ∧ q = F.val v.es := by
  rcases PV.val_cases h with ⟨-, h0⟩ | ⟨F, hd, hF, -⟩
  · exact absurd h0 hq
  · exact ⟨F, hd, hF⟩

/-- R61, R81: what is not a NaN is an infinity or has a value. -/
theorem PV.infinity_or_val (h : v.nan = false) : IsInfinity v ∨ ∃ q, v.val = some q := by
  rcases v.decoded_cases with ⟨hnan, -⟩ | ⟨-, -, hd⟩ | ⟨-, hinf, -⟩ | ⟨-, -, -, hd⟩
  · exact absurd (h.symm.trans hnan) Bool.false_ne_true
  · exact .inr ⟨_, PV.val_of_decoded_zero hd⟩
  · exact .inl ⟨h, hinf⟩
  · exact .inr ⟨_, PV.val_of_decoded_fin hd⟩

end Kinds

/-! ## Roundings of a number (R88, R112) -/

/-- R88, R112: v is what the machine rounds some exact form of the number q to. -/
def IsRoundingOf (c : Cfg) (q : ℚ) (v : PV) : Prop :=
  ∃ x : Exact, 0 < x.den ∧ x.toRat = q ∧ v = PV.rounded c x

/-- R91: the rounding of a magnitude depends on the number, not on the exact form that the machine holds of it. -/
theorem roundMag_congr {c : Cfg} {x y : Exact} (hc : ValidCfg c) (hx : 0 < x.den) (hy : 0 < y.den)
    (h : x.toRat = y.toRat) (h0 : 0 < x.toRat) : roundMag c x = roundMag c y := by
  rw [roundMagEqualsTheOperationalForm c x hc hx h0, roundMagEqualsTheOperationalForm c y hc hy (h ▸ h0), h]

/-- R88: so does the rounding of a number of either sign. -/
theorem roundBits_congr {c : Cfg} {x y : Exact} (hc : ValidCfg c) (hx : 0 < x.den) (hy : 0 < y.den)
    (h : x.toRat = y.toRat) : roundBits c x = roundBits c y := by
  rcases lt_trichotomy x.toRat 0 with h0 | h0 | h0
  · have hneg : x.neg.toRat = y.neg.toRat := by rw [Exact.toRat_neg, Exact.toRat_neg, h]
    have hpos : 0 < x.neg.toRat := by rw [Exact.toRat_neg]; linarith
    rw [roundBits_of_neg c x hx h0, roundBits_of_neg c y hy (h ▸ h0),
      roundMag_congr (x := x.neg) (y := y.neg) hc hx hy hneg hpos]
  · rw [roundBits_of_zero c x hx h0, roundBits_of_zero c y hy (h ▸ h0)]
  · rw [roundBits_of_pos c x hx h0, roundBits_of_pos c y hy (h ▸ h0), roundMag_congr hc hx hy h h0]

section IsRoundingOf
variable {c : Cfg} {q : ℚ} {v w : PV}

theorem IsRoundingOf.unique (hc : ValidCfg c) (hv : IsRoundingOf c q v) (hw : IsRoundingOf c q w) : v = w := by
  obtain ⟨x, hx, hxq, rfl⟩ := hv
  obtain ⟨y, hy, hyq, rfl⟩ := hw
  rw [PV.rounded, PV.rounded, roundBits_congr hc hx hy (hxq.trans hyq.symm)]

/-- R88: the pattern of a rounding is the rule's rounding. -/
theorem IsRoundingOf.exists_isRound (hc : ValidCfg c) (h : IsRoundingOf c q v) :
    ∃ p, v = ⟨p, c.n, c.es, false⟩ ∧ IsRound c q p := by
  obtain ⟨x, hx, rfl, rfl⟩ := h
  exact ⟨_, rfl, roundIsTheNearestPattern c x hc hx⟩

/-- R112: an exact 0 gives the zero pattern. -/
theorem IsRoundingOf.eq_zero (h : IsRoundingOf c 0 v) : v = PV.real c 0 := by
  obtain ⟨x, hx, hxq, rfl⟩ := h
  rw [PV.rounded, roundBits_of_zero c x hx hxq]

/-- R89: a number that is not 0 never rounds to zero or infinity. -/
theorem IsRoundingOf.exists_val (hc : ValidCfg c) (hq : q ≠ 0) (h : IsRoundingOf c q v) :
    ∃ z, v.val = some z ∧ z ≠ 0 := by
  obtain ⟨x, hx, rfl, rfl⟩ := h
  obtain ⟨-, -, -, -, hfinite⟩ := roundingSaturates c x hc hx
  obtain ⟨h0, hinf, -⟩ := hfinite hq
  have hd := PV.decoded_of_fin (v := PV.rounded c x) rfl h0 hinf
  exact ⟨_, PV.val_of_decoded_fin hd, Fields.val_ne_zero _ _⟩

end IsRoundingOf

/-! ## Negation (R114, R115) -/

/-- R115: fields with the sign flipped. -/
def Fields.flip (F : Fields) : Fields := { F with sign := !F.sign }

theorem signed_not (sign : Bool) (m : Nat) : signed (!sign) m = -signed sign m := by
  cases sign <;> simp [signed]

theorem Fields.term_flip (es : Nat) (F : Fields) : F.flip.term es = (F.term es).neg :=
  congrArg (Term.mk · _) (signed_not F.sign _)

theorem Fields.val_flip (es : Nat) (F : Fields) : F.flip.val es = -F.val es := by
  rw [← Fields.toRat_term, ← Fields.toRat_term, Fields.term_flip, Term.toRat_neg]

section Negation
variable {v : PV}

theorem negV_of_nan (h : v.nan = true) : negV v = v := if_pos h

theorem negV_of_not_nan (h : v.nan = false) : negV v = ⟨negN v.n v.bits, v.n, v.es, false⟩ := by
  simp [negV, h]

@[simp] theorem negV_cfg (v : PV) : (negV v).cfg = v.cfg := by
  unfold negV
  split <;> rfl

@[simp] theorem negV_es (v : PV) : (negV v).es = v.es := congrArg Cfg.es (negV_cfg v)

@[simp] theorem negV_n (v : PV) : (negV v).n = v.n := congrArg Cfg.n (negV_cfg v)

theorem PV.one_le_n (hwf : v.wellFormed = true) : 1 ≤ v.n := by
  obtain ⟨hn, -, -⟩ : 2 ≤ v.n ∧ _ := PV.validCfg_of_wellFormed hwf
  omega

/-- R114: zero and infinity are their own two's complements. -/
theorem negV_of_zero_or_infinity (hn : 1 ≤ v.n) (hnan : v.nan = false)
    (h : v.bits = 0 ∨ v.bits = 2 ^ (v.n - 1)) : negV v = v := by
  have hdouble : 2 ^ (v.n - 1) * 2 = 2 ^ v.n := Nat.two_pow_pred_mul_two hn
  have hbits : negN v.n v.bits = v.bits := by
    rcases h with h | h
    · rw [h, negN_zero]
    · have hpos := Nat.two_pow_pos (v.n - 1)
      rw [negN_of_pos (by omega) (by omega)]
      omega
  rw [negV_of_not_nan hnan, hbits]
  exact PV.real_cfg_bits hnan

/-- R114: NEG returns every value that is not finite unchanged. -/
theorem negV_of_not_fin (hwf : v.wellFormed = true) (h : v.cls ≠ .fin) : negV v = v := by
  have hn := PV.one_le_n hwf
  rcases v.decoded_cases with ⟨hnan, -⟩ | ⟨hnan, h0, -⟩ | ⟨hnan, hinf, -⟩ | ⟨hnan, h0, hinf, -⟩
  · exact negV_of_nan hnan
  · exact negV_of_zero_or_infinity hn hnan (.inl h0)
  · exact negV_of_zero_or_infinity hn hnan (.inr hinf)
  · exact absurd (PV.cls_eq_fin_iff.mpr ⟨hnan, h0, hinf⟩) h

theorem negV_negV (hwf : v.wellFormed = true) : negV (negV v) = v := by
  cases hnan : v.nan with
  | true => rw [negV_of_nan hnan, negV_of_nan hnan]
  | false =>
    rw [negV_of_not_nan hnan, negV_of_not_nan rfl, negN_negN (v.wellFormed_iff.mp hwf).2]
    exact PV.real_cfg_bits hnan

/-- R62: the sign bit of a pattern of n bits. -/
theorem PV.sign_iff (hwf : v.wellFormed = true) : v.sign = true ↔ 2 ^ (v.n - 1) ≤ v.bits := by
  have hlt : v.bits < 2 ^ (v.n - 1 + 1) := by
    rw [Nat.sub_add_cancel (PV.one_le_n hwf)]
    exact (v.wellFormed_iff.mp hwf).2
  exact ⟨Nat.ge_two_pow_of_testBit, fun h => Nat.testBit_of_two_pow_le_and_two_pow_add_one_gt h hlt⟩

section Finite
variable (hwf : v.wellFormed = true) (hfin : v.cls = .fin)
include hwf hfin

theorem negV_of_fin : negV v = ⟨2 ^ v.n - v.bits, v.n, v.es, false⟩ := by
  obtain ⟨hnan, h0, -⟩ := PV.cls_eq_fin_iff.mp hfin
  rw [negV_of_not_nan hnan, negN_of_pos (Nat.pos_of_ne_zero h0) (v.wellFormed_iff.mp hwf).2]

/-- R115: the two's complement of a finite pattern is finite, of the other sign. -/
theorem negV_cls_and_sign : (negV v).cls = .fin ∧ (negV v).sign = !v.sign := by
  obtain ⟨-, h0, hinf⟩ := PV.cls_eq_fin_iff.mp hfin
  have hlt := (v.wellFormed_iff.mp hwf).2
  have hdouble : 2 ^ (v.n - 1) * 2 = 2 ^ v.n := Nat.two_pow_pred_mul_two (PV.one_le_n hwf)
  have hsign := PV.sign_iff (negV_wellFormed hwf)
  rw [negV_of_fin hwf hfin] at hsign ⊢
  refine ⟨PV.cls_eq_fin_iff.mpr ⟨rfl, ?_, ?_⟩, ?_⟩
  · change 2 ^ v.n - v.bits ≠ 0
    omega
  · change 2 ^ v.n - v.bits ≠ 2 ^ (v.n - 1)
    omega
  · rw [Bool.eq_iff_iff, hsign, Bool.not_eq_true', ← Bool.not_eq_true, PV.sign_iff hwf]
    change 2 ^ (v.n - 1) ≤ 2 ^ v.n - v.bits ↔ _
    omega

/-- R115: negation keeps the magnitude. -/
theorem negV_mag : (negV v).mag = v.mag := by
  obtain ⟨hnan, -, -⟩ := PV.cls_eq_fin_iff.mp hfin
  obtain ⟨-, hsign⟩ := negV_cls_and_sign hwf hfin
  have hbits : (negV v).bits = negN v.n v.bits := by rw [negV_of_not_nan hnan]
  rw [PV.mag, PV.mag, hsign, hbits, negV_n, negN_negN (v.wellFormed_iff.mp hwf).2]
  cases v.sign <;> rfl

/-- R115: negation flips the sign of the fields and changes nothing else. -/
theorem negV_decoded : (negV v).decoded = .fin v.fields.flip := by
  obtain ⟨hcls, hsign⟩ := negV_cls_and_sign hwf hfin
  obtain ⟨hnan, h0, hinf⟩ := PV.cls_eq_fin_iff.mp hcls
  rw [PV.decoded_of_fin hnan h0 hinf, PV.fields, negV_cfg, hsign, negV_mag hwf hfin]
  rfl

end Finite

/-- R115: the value of the negation of a finite value. -/
theorem negV_val {q : ℚ} (hwf : v.wellFormed = true) (hfin : v.cls = .fin) (hq : v.val = some q) :
    (negV v).val = some (-q) := by
  obtain ⟨hnan, h0, hinf⟩ := PV.cls_eq_fin_iff.mp hfin
  have hval : q = v.fields.val v.es :=
    Option.some.inj (hq.symm.trans (PV.val_of_decoded_fin (PV.decoded_of_fin hnan h0 hinf)))
  rw [PV.val_of_decoded_fin (negV_decoded hwf hfin), Fields.val_flip, negV_es, hval]

end Negation

/-! ## The reciprocal (R116) -/

section Reciprocal
variable {A : PV} {x : ℚ}

theorem recV_of_nan (h : A.nan = true) : recV A = PV.nanOf A.cfg := by
  rw [recV, PV.decoded_of_nan h]

theorem recV_of_zero (h : A.val = some 0) : recV A = PV.infOf A.cfg := by
  rw [recV, PV.decoded_of_val_zero h]

theorem recV_of_infinity (h : IsInfinity A) : recV A = PV.real A.cfg 0 := by
  rw [recV, h.decoded]

/-- R116: a finite value gives the rounding of its exact reciprocal. -/
theorem recV_of_val (h : A.val = some x) (hx : x ≠ 0) : IsRoundingOf A.cfg (1 / x) (recV A) := by
  obtain ⟨F, hd, rfl⟩ := PV.decoded_of_val_ne_zero h hx
  have hcoef := F.term_coef_ne_zero A.es
  refine ⟨Exact.recip (F.term A.es), Int.natAbs_pos.mpr hcoef, ?_, by rw [recV, hd]⟩
  rw [Exact.toRat_recip _ hcoef, Fields.toRat_term]

end Reciprocal

/-! ## The sum (R117, R118) -/

theorem addend_toRat (sub : Bool) (t : Term) : (addend sub t).toRat = if sub then -t.toRat else t.toRat := by
  cases sub
  · rfl
  · exact Term.toRat_neg t

section Sum
variable {A B : PV} {x y : ℚ} (sub : Bool)

theorem addV_of_nan (h : A.nan = true ∨ B.nan = true) : addV A B sub = PV.nanOf A.cfg := by
  rcases h with h | h
  · simp only [addV, PV.decoded_of_nan h]
  · cases hA : A.decoded <;> simp only [addV, hA, PV.decoded_of_nan h]

/-- R117, R118: infinity plus infinity is infinity, and infinity less infinity is NaN. -/
theorem addV_of_infinities (hA : IsInfinity A) (hB : IsInfinity B) :
    addV A B sub = if sub then PV.nanOf A.cfg else PV.infOf A.cfg := by
  simp only [addV, hA.decoded, hB.decoded]

theorem addV_of_infinity_of_val (hA : IsInfinity A) (hB : B.val = some y) : addV A B sub = PV.infOf A.cfg := by
  rcases PV.val_cases hB with ⟨hd, -⟩ | ⟨G, hd, -, -⟩ <;> simp only [addV, hA.decoded, hd]

theorem addV_of_val_of_infinity (hA : A.val = some x) (hB : IsInfinity B) : addV A B sub = PV.infOf A.cfg := by
  rcases PV.val_cases hA with ⟨hd, -⟩ | ⟨F, hd, -, -⟩ <;> simp only [addV, hB.decoded, hd]

/-- R117: in a sum without a NaN one infinity is enough for infinity. -/
theorem addV_of_infinity (hnanA : A.nan = false) (hnanB : B.nan = false) (h : IsInfinity A ∨ IsInfinity B) :
    addV A B false = PV.infOf A.cfg := by
  rcases h with hA | hB
  · rcases PV.infinity_or_val hnanB with hB | ⟨y, hB⟩
    · exact addV_of_infinities false hA hB
    · exact addV_of_infinity_of_val false hA hB
  · rcases PV.infinity_or_val hnanA with hA | ⟨x, hA⟩
    · exact addV_of_infinities false hA hB
    · exact addV_of_val_of_infinity false hA hB

/-- R117, R112: two values give the rounding of their exact sum or difference. -/
theorem addV_of_vals (hA : A.val = some x) (hB : B.val = some y) :
    IsRoundingOf A.cfg (x + if sub then -y else y) (addV A B sub) := by
  rcases PV.val_cases hA with ⟨hdA, rfl⟩ | ⟨F, hdA, rfl, -⟩ <;>
    rcases PV.val_cases hB with ⟨hdB, rfl⟩ | ⟨G, hdB, rfl, -⟩
  · exact ⟨Exact.ofSum [], Nat.one_pos, by simp, by simp only [addV, hdA, hdB]⟩
  · exact ⟨Exact.ofSum [addend sub (G.term B.es)], Nat.one_pos, by simp [addend_toRat, Fields.toRat_term],
      by simp only [addV, hdA, hdB]⟩
  · exact ⟨Exact.ofSum [F.term A.es], Nat.one_pos, by simp [Fields.toRat_term], by simp only [addV, hdA, hdB]⟩
  · exact ⟨Exact.ofSum [F.term A.es, addend sub (G.term B.es)], Nat.one_pos,
      by simp [addend_toRat, Fields.toRat_term], by simp only [addV, hdA, hdB]⟩

/-- R117: ADD of operands of one configuration is commutative, NaN and infinity included. -/
theorem addV_comm (hwf : A.wellFormed = true) (hcfg : A.cfg = B.cfg) : addV A B false = addV B A false := by
  by_cases hnan : A.nan = true ∨ B.nan = true
  · rw [addV_of_nan _ hnan, addV_of_nan _ hnan.symm, hcfg]
  obtain ⟨hnanA, hnanB⟩ : A.nan = false ∧ B.nan = false := by simpa using hnan
  by_cases hinf : IsInfinity A ∨ IsInfinity B
  · rw [addV_of_infinity hnanA hnanB hinf, addV_of_infinity hnanB hnanA hinf.symm, hcfg]
  obtain ⟨hinfA, hinfB⟩ := not_or.mp hinf
  obtain ⟨x, hA⟩ := (PV.infinity_or_val hnanA).resolve_left hinfA
  obtain ⟨y, hB⟩ := (PV.infinity_or_val hnanB).resolve_left hinfB
  have hBA := addV_of_vals false hB hA
  rw [← hcfg, if_neg Bool.false_ne_true, add_comm] at hBA
  exact (addV_of_vals false hA hB).unique (PV.validCfg_of_wellFormed hwf) hBA

/-- R118: subtraction adds the negated term, and an operand without one is its own negation. -/
theorem addV_sub_eq_addV_negV (hB : B.wellFormed = true) (h : ¬(IsInfinity A ∧ IsInfinity B)) :
    addV A B true = addV A (negV B) false := by
  by_cases hfin : B.cls = .fin
  · obtain ⟨hnan, h0, hinf⟩ := PV.cls_eq_fin_iff.mp hfin
    have hd := PV.decoded_of_fin hnan h0 hinf
    have hd' := negV_decoded hB hfin
    cases hA : A.decoded <;> simp [addV, hA, hd, hd', addend, Fields.term_flip]
  · rw [negV_of_not_fin hB hfin]
    rcases B.decoded_cases with ⟨hnan, -⟩ | ⟨-, -, hd⟩ | ⟨hnan, hinf, hd⟩ | ⟨hnan, h0, hinf, -⟩
    · rw [addV_of_nan _ (.inr hnan), addV_of_nan _ (.inr hnan)]
    · cases hA : A.decoded <;> simp only [addV, hA, hd]
    · cases hnanA : A.nan with
      | true => rw [addV_of_nan _ (.inl hnanA), addV_of_nan _ (.inl hnanA)]
      | false =>
        obtain ⟨x, hA⟩ := (PV.infinity_or_val hnanA).resolve_left fun hA => h ⟨hA, hnan, hinf⟩
        rw [addV_of_val_of_infinity _ hA ⟨hnan, hinf⟩, addV_of_val_of_infinity _ hA ⟨hnan, hinf⟩]
    · exact absurd (PV.cls_eq_fin_iff.mpr ⟨hnan, h0, hinf⟩) hfin

end Sum

/-! ## The product (R119) -/

section Product
variable {A B : PV} {x y : ℚ}

theorem mulV_of_nan (h : A.nan = true ∨ B.nan = true) : mulV A B = PV.nanOf A.cfg := by
  rcases h with h | h
  · simp only [mulV, PV.decoded_of_nan h]
  · cases hA : A.decoded <;> simp only [mulV, hA, PV.decoded_of_nan h]

theorem mulV_of_infinity_of_zero (hA : IsInfinity A) (hB : B.val = some 0) : mulV A B = PV.nanOf A.cfg := by
  simp only [mulV, hA.decoded, PV.decoded_of_val_zero hB]

theorem mulV_of_zero_of_infinity (hA : A.val = some 0) (hB : IsInfinity B) : mulV A B = PV.nanOf A.cfg := by
  simp only [mulV, hB.decoded, PV.decoded_of_val_zero hA]

theorem mulV_of_infinities (hA : IsInfinity A) (hB : IsInfinity B) : mulV A B = PV.infOf A.cfg := by
  simp only [mulV, hA.decoded, hB.decoded]

theorem mulV_of_infinity_of_ne_zero (hA : IsInfinity A) (hB : B.val = some y) (hy : y ≠ 0) :
    mulV A B = PV.infOf A.cfg := by
  obtain ⟨G, hd, -⟩ := PV.decoded_of_val_ne_zero hB hy
  simp only [mulV, hA.decoded, hd]

theorem mulV_of_ne_zero_of_infinity (hA : A.val = some x) (hx : x ≠ 0) (hB : IsInfinity B) :
    mulV A B = PV.infOf A.cfg := by
  obtain ⟨F, hd, -⟩ := PV.decoded_of_val_ne_zero hA hx
  simp only [mulV, hB.decoded, hd]

/-- R119, R112: two values give the rounding of their exact product. -/
theorem mulV_of_vals (hA : A.val = some x) (hB : B.val = some y) : IsRoundingOf A.cfg (x * y) (mulV A B) := by
  rcases PV.val_cases hA with ⟨hdA, rfl⟩ | ⟨F, hdA, rfl, -⟩ <;>
    rcases PV.val_cases hB with ⟨hdB, rfl⟩ | ⟨G, hdB, rfl, -⟩
  · exact ⟨Exact.ofSum [], Nat.one_pos, by simp, by simp only [mulV, hdA, hdB]⟩
  · exact ⟨Exact.ofSum [], Nat.one_pos, by simp, by simp only [mulV, hdA, hdB]⟩
  · exact ⟨Exact.ofSum [], Nat.one_pos, by simp, by simp only [mulV, hdA, hdB]⟩
  · exact ⟨Exact.ofTerm ((F.term A.es).mul (G.term B.es)), Nat.one_pos, by simp [Fields.toRat_term],
      by simp only [mulV, hdA, hdB]⟩

/-- R119: infinity times a value is the same on either side. -/
theorem mulV_infinity_val_comm (hcfg : A.cfg = B.cfg) (hA : IsInfinity A) (hB : B.val = some y) :
    mulV A B = mulV B A := by
  by_cases hy : y = 0
  · subst hy
    rw [mulV_of_infinity_of_zero hA hB, mulV_of_zero_of_infinity hB hA, hcfg]
  · rw [mulV_of_infinity_of_ne_zero hA hB hy, mulV_of_ne_zero_of_infinity hB hy hA, hcfg]

/-- R119: MUL of operands of one configuration is commutative, NaN and infinity included. -/
theorem mulV_comm (hwf : A.wellFormed = true) (hcfg : A.cfg = B.cfg) : mulV A B = mulV B A := by
  by_cases hnan : A.nan = true ∨ B.nan = true
  · rw [mulV_of_nan hnan, mulV_of_nan hnan.symm, hcfg]
  obtain ⟨hnanA, hnanB⟩ : A.nan = false ∧ B.nan = false := by simpa using hnan
  rcases PV.infinity_or_val hnanA with hA | ⟨x, hA⟩ <;> rcases PV.infinity_or_val hnanB with hB | ⟨y, hB⟩
  · rw [mulV_of_infinities hA hB, mulV_of_infinities hB hA, hcfg]
  · exact mulV_infinity_val_comm hcfg hA hB
  · exact (mulV_infinity_val_comm hcfg.symm hB hA).symm
  · have hBA := mulV_of_vals hB hA
    rw [← hcfg, mul_comm] at hBA
    exact (mulV_of_vals hA hB).unique (PV.validCfg_of_wellFormed hwf) hBA

end Product

/-! ## The quotient (R120): the product with the reciprocal -/

section Quotient
variable {A B : PV} {x y : ℚ}

theorem mulV_recV_of_nan (h : A.nan = true ∨ B.nan = true) : mulV A (recV B) = PV.nanOf A.cfg := by
  refine mulV_of_nan (h.imp_right fun hB => ?_)
  rw [recV_of_nan hB, PV.nanOf_nan]

theorem mulV_recV_of_zeros (hA : A.val = some 0) (hB : B.val = some 0) : mulV A (recV B) = PV.nanOf A.cfg := by
  rw [recV_of_zero hB]
  exact mulV_of_zero_of_infinity hA (PV.infOf_isInfinity _)

theorem mulV_recV_of_infinities (hA : IsInfinity A) (hB : IsInfinity B) : mulV A (recV B) = PV.nanOf A.cfg := by
  rw [recV_of_infinity hB]
  exact mulV_of_infinity_of_zero hA (PV.real_zero_val _)

theorem mulV_recV_of_val_of_infinity (hA : A.val = some x) (hB : IsInfinity B) :
    mulV A (recV B) = PV.real A.cfg 0 := by
  have h := mulV_of_vals hA (PV.real_zero_val B.cfg)
  rw [mul_zero, ← recV_of_infinity hB] at h
  exact h.eq_zero

/-- R89: a reciprocal never rounds to zero, so infinity by a finite value is infinity; by zero it is too. -/
theorem mulV_recV_of_infinity_of_val (hwf : B.wellFormed = true) (hA : IsInfinity A) (hB : B.val = some y) :
    mulV A (recV B) = PV.infOf A.cfg := by
  by_cases hy : y = 0
  · subst hy
    rw [recV_of_zero hB]
    exact mulV_of_infinities hA (PV.infOf_isInfinity _)
  · have hc : ValidCfg B.cfg := PV.validCfg_of_wellFormed hwf
    obtain ⟨z, hz, hne⟩ := (recV_of_val hB hy).exists_val hc (one_div_ne_zero hy)
    exact mulV_of_infinity_of_ne_zero hA hz hne

theorem mulV_recV_of_ne_zero_of_zero (hA : A.val = some x) (hx : x ≠ 0) (hB : B.val = some 0) :
    mulV A (recV B) = PV.infOf A.cfg := by
  rw [recV_of_zero hB]
  exact mulV_of_ne_zero_of_infinity hA hx (PV.infOf_isInfinity _)

end Quotient

/-! ## What the operations answer -/

section Answers
variable {s : State} {A B v : PV}

/-- R114: NEG answers the negation of an operand that loads. -/
theorem repliesPV_neg (h : Loads s.req.a A) (hv : negV A = v) : RepliesPV .neg s v := by
  subst hv
  exact (replies_iff (fun _ => rfl) s _).mpr (withA_of_loads _ h)

/-- R116: REC answers the reciprocal of an operand that loads. -/
theorem repliesPV_recip (h : Loads s.req.a A) (hv : recV A = v) : RepliesPV .recip s v := by
  subst hv
  exact (replies_iff (fun _ => rfl) s _).mpr (withA_of_loads _ h)

variable {i : Instr} {f : PV → PV → PV}
  (hexec : ∀ s, exec i s = .next (s.respond (withAB s fun A B => sameCfg A B (f A B))))
include hexec

/-- R110: an operation on two operands of one configuration answers its value function. -/
theorem repliesPV_of_withAB (hA : Loads s.req.a A) (hB : Loads s.req.b B) (hcfg : A.cfg = B.cfg)
    (hv : f A B = v) : RepliesPV i s v := by
  subst hv
  exact (replies_iff hexec s _).mpr ((withAB_of_loads _ hA hB).trans (sameCfg_of_eq _ hcfg))

/-- R112: where the value function rounds the number q, the operation answers the rounding of q. -/
theorem exists_repliesPV_of_isRoundingOf {q : ℚ} (hA : Loads s.req.a A) (hB : Loads s.req.b B)
    (hcfg : A.cfg = B.cfg) (h : IsRoundingOf A.cfg q (f A B)) :
    ∃ p, RepliesPV i s ⟨p, A.n, A.es, false⟩ ∧ IsRound A.cfg q p := by
  obtain ⟨p, hp, hround⟩ := h.exists_isRound (PV.validCfg_of_wellFormed hA.wellFormed)
  exact ⟨p, repliesPV_of_withAB hexec hA hB hcfg hp, hround⟩

/-- R162, R163: with a commutative value function the answer does not depend on the order of the operands, an
error included. -/
theorem replies_swap {rsp : Response}
    (hcomm : ∀ A B : PV, A.wellFormed = true → A.cfg = B.cfg → f A B = f B A) (h : Replies i s rsp) :
    Replies i { s with req := s.req.swap } rsp := by
  refine replies_of_answer_eq hexec ?_ h
  rcases loads_or_badConfig s.req.a with ⟨A, hA⟩ | hA
  · rcases loads_or_badConfig s.req.b with ⟨B, hB⟩ | hB
    · rw [withAB_of_loads _ hA hB, withAB_of_loads (s := { s with req := s.req.swap }) _ hB hA]
      by_cases hcfg : A.cfg = B.cfg
      · rw [sameCfg_of_eq _ hcfg, sameCfg_of_eq _ hcfg.symm, hcomm A B hA.wellFormed hcfg]
      · rw [sameCfg_of_ne _ hcfg, sameCfg_of_ne _ (Ne.symm hcfg)]
    · rw [withAB_of_badConfig _ (.inr hB), withAB_of_badConfig (s := { s with req := s.req.swap }) _ (.inl hB)]
  · rw [withAB_of_badConfig _ (.inl hA), withAB_of_badConfig (s := { s with req := s.req.swap }) _ (.inr hA)]

end Answers

/-! ## The statements about arithmetic -/

/-- Settles O39: a NaN, zero and infinity are their own negations, and `2^n - bits` is the two's complement of a
pattern that is not 0. -/
theorem negAnswers : Obligations.NegAnswers := by
  intro s A hA
  have hwf := hA.wellFormed
  refine ⟨fun h => repliesPV_neg hA (negV_of_nan h),
    fun h h0 => repliesPV_neg hA (negV_of_zero_or_infinity (PV.one_le_n hwf) h h0), fun h h0 => ?_⟩
  have hbits := negN_of_pos (Nat.pos_of_ne_zero h0) (A.wellFormed_iff.mp hwf).2
  exact repliesPV_neg hA (hbits ▸ negV_of_not_nan h)

/-- Settles O40: negation flips the sign of the fields, and the value of a pattern rounds to the pattern. -/
theorem negationIdentity : Obligations.NegationIdentity := by
  intro v q hwf hfin hq
  obtain ⟨hnan, -, -⟩ := PV.cls_eq_fin_iff.mp hfin
  have hval := negV_val hwf hfin hq
  have hround := fun x => representableValueRoundsToItself (negV v) x (-q) (negV_wellFormed hwf) hval
  rw [negV_of_not_nan hnan] at hval hround
  exact ⟨hval, hround⟩

/-- Settles O41: the two's complement taken twice is the pattern, and the sum of v and -v is an exact 0. -/
theorem negationLaws : Obligations.NegationLaws := by
  intro v hwf
  refine ⟨negV_negV hwf, fun hfin => ?_⟩
  obtain ⟨hnan, h0, hinf⟩ := PV.cls_eq_fin_iff.mp hfin
  have hval := PV.val_of_decoded_fin (PV.decoded_of_fin hnan h0 hinf)
  have hsum := addV_of_vals false hval (negV_val hwf hfin hval)
  rw [if_neg Bool.false_ne_true, add_neg_cancel] at hsum
  exact hsum.eq_zero

/-- Settles O42: by the class of the operand. -/
theorem recAnswers : Obligations.RecAnswers := by
  intro s A hA
  obtain ⟨hnan, hzero, hinf, -, -⟩ := classIsTheFirstThatApplies A hA.wellFormed
  have hc : ValidCfg A.cfg := PV.validCfg_of_wellFormed hA.wellFormed
  refine ⟨fun h => repliesPV_recip hA (recV_of_nan (hnan.mp h)), fun h => ?_,
    fun h => repliesPV_recip hA (recV_of_infinity (hinf.mp h)), fun x h hx => ?_⟩
  · obtain ⟨hn, h0⟩ := hzero.mp h
    exact repliesPV_recip hA (recV_of_zero (PV.val_of_decoded_zero (PV.decoded_of_zero hn h0)))
  · have hx0 : x ≠ 0 := fun h0 => by
      have hd := PV.decoded_of_val_zero (h0 ▸ hx)
      simp [PV.cls, hd] at h
    obtain ⟨p, hp, hround⟩ := (recV_of_val hx hx0).exists_isRound hc
    exact ⟨p, repliesPV_recip hA hp, hround⟩

/-- Settles O43: the sum for each kind of operands. -/
theorem addAnswers : Obligations.AddAnswers := by
  intro s A B hA hB hcfg
  have reply {v : PV} : addV A B false = v → RepliesPV .add s v :=
    repliesPV_of_withAB (f := fun A B => addV A B false) (fun _ => rfl) hA hB hcfg
  exact ⟨fun h => reply (addV_of_nan _ h), fun hnanA hnanB h => reply (addV_of_infinity hnanA hnanB h),
    fun x y hx hy => exists_repliesPV_of_isRoundingOf (f := fun A B => addV A B false) (fun _ => rfl) hA hB hcfg
      (addV_of_vals false hx hy)⟩

/-- Settles O44: the difference for each kind of operands. -/
theorem subAnswers : Obligations.SubAnswers := by
  intro s A B hA hB hcfg
  have reply {v : PV} : addV A B true = v → RepliesPV .sub s v :=
    repliesPV_of_withAB (f := fun A B => addV A B true) (fun _ => rfl) hA hB hcfg
  refine ⟨fun h => reply (addV_of_nan _ h), fun hi hj => reply (addV_of_infinities true hi hj),
    fun y hi hy => reply (addV_of_infinity_of_val _ hi hy), fun x hx hj => reply (addV_of_val_of_infinity _ hx hj),
    fun x y hx hy => ?_⟩
  have hdiff := addV_of_vals true hx hy
  rw [if_pos rfl, ← sub_eq_add_neg] at hdiff
  exact exists_repliesPV_of_isRoundingOf (f := fun A B => addV A B true) (fun _ => rfl) hA hB hcfg hdiff

/-- Settles O45: the product for each kind of operands. -/
theorem mulAnswers : Obligations.MulAnswers := by
  intro s A B hA hB hcfg
  have reply {v : PV} : mulV A B = v → RepliesPV .mul s v := repliesPV_of_withAB (fun _ => rfl) hA hB hcfg
  refine ⟨fun h => reply (mulV_of_nan h), ?_, fun hi hj => reply (mulV_of_infinities hi hj),
    fun y hi hy hne => reply (mulV_of_infinity_of_ne_zero hi hy hne),
    fun x hx hne hj => reply (mulV_of_ne_zero_of_infinity hx hne hj),
    fun x y hx hy => exists_repliesPV_of_isRoundingOf (fun _ => rfl) hA hB hcfg (mulV_of_vals hx hy)⟩
  rintro (⟨hi, hy⟩ | ⟨hx, hj⟩)
  · exact reply (mulV_of_infinity_of_zero hi hy)
  · exact reply (mulV_of_zero_of_infinity hx hj)

/-- Settles O46: the cells of R120's table, and for values the product with the rounded reciprocal, which has a
value. -/
theorem divAnswers : Obligations.DivAnswers := by
  intro s A B hA hB hcfg
  have reply {v : PV} : mulV A (recV B) = v → RepliesPV .div s v :=
    repliesPV_of_withAB (f := fun A B => mulV A (recV B)) (fun _ => rfl) hA hB hcfg
  refine ⟨fun h => reply (mulV_recV_of_nan h), fun hx hy => reply (mulV_recV_of_zeros hx hy),
    fun hi hj => reply (mulV_recV_of_infinities hi hj), fun x hx hj => reply (mulV_recV_of_val_of_infinity hx hj),
    fun hi y hy => reply (mulV_recV_of_infinity_of_val hB.wellFormed hi hy),
    fun x hx hne hy => reply (mulV_recV_of_ne_zero_of_zero hx hne hy), fun x y hx hy hne => ?_⟩
  have hc : ValidCfg A.cfg := PV.validCfg_of_wellFormed hA.wellFormed
  have hrec : IsRoundingOf A.cfg (1 / y) (recV B) := hcfg ▸ recV_of_val hy hne
  obtain ⟨r, hr, hround⟩ := hrec.exists_isRound hc
  obtain ⟨z, hz, -⟩ := hrec.exists_val hc (one_div_ne_zero hne)
  obtain ⟨p, hp, hround'⟩ := exists_repliesPV_of_isRoundingOf (i := .div) (f := fun A B => mulV A (recV B))
    (fun _ => rfl) hA hB hcfg (mulV_of_vals hx hz)
  exact ⟨r, z, p, hround, hr ▸ hz, hp, hround'⟩

/-- Settles O47: negation flips the sign of a finite addend and keeps every other; the negation of infinity is
infinity. -/
theorem subtractIsAddOfNegateButForTwoInfinities : Obligations.SubtractIsAddOfNegateButForTwoInfinities := by
  intro A B _ hB _
  refine ⟨addV_sub_eq_addV_negV hB, fun hi hj => ⟨addV_of_infinities true hi hj, ?_⟩⟩
  rw [negV_of_zero_or_infinity (PV.one_le_n hB) hj.1 (.inr hj.2)]
  exact addV_of_infinities false hi hj

/-- Settles O48: both value functions are commutative on operands of one configuration, and the checks before them
treat A and B alike. -/
theorem addAndMulCommute : Obligations.AddAndMulCommute :=
  fun _ _ => ⟨replies_swap (fun _ => rfl) fun _ _ => addV_comm, replies_swap (fun _ => rfl) fun _ _ => mulV_comm⟩

end Sys2Proof.Machine

/-! # Proofs of 43_compare_predicates.md

Within one configuration the key of a value is a function of its pattern read as a signed integer, which is strictly
monotone (R138). The machine's key stands for the rule's, and the sign that it computes of two keys is that of their
order (R130); the five comparisons are five tests of that sign. -/

namespace Sys2Proof.Machine

/-! ## Patterns as signed integers (R11, R62) -/

section SignedPattern
variable {w v u : Nat}

theorem signedOf_zero (w : Nat) : signedOf w 0 = 0 := by simp [signedOf]

/-- R142: the sign-bit-only pattern is the least integer of w bits. -/
theorem signedOf_two_pow (hw : 0 < w) : signedOf w (2 ^ (w - 1)) = -((2 ^ (w - 1) : Nat) : Int) := by
  have hdouble : 2 ^ (w - 1) * 2 = 2 ^ w := Nat.two_pow_pred_mul_two hw
  rw [signedOf, Nat.testBit_two_pow_self, if_pos rfl]
  omega

/-- R11: a pattern of w bits reads as a signed integer of w bits. -/
theorem signedOf_mem_Ico (hw : 0 < w) (hv : v < 2 ^ w) :
    signedOf w v ∈ Set.Ico (-((2 ^ (w - 1) : Nat) : Int)) ((2 ^ (w - 1) : Nat) : Int) := by
  have hdouble : 2 ^ (w - 1) * 2 = 2 ^ w := Nat.two_pow_pred_mul_two hw
  rw [Set.mem_Ico, signedOf]
  by_cases hge : 2 ^ (w - 1) ≤ v
  · rw [Nat.testBit_of_two_pow_le_and_two_pow_add_one_gt hge (by omega), if_pos rfl]
    omega
  · rw [Nat.testBit_lt_two_pow (by omega), if_neg Bool.false_ne_true]
    omega

/-- R10, R11: writing a signed reading back in w bits gives the pattern. -/
theorem wrapInt_signedOf (hv : v < 2 ^ w) : wrapInt w (signedOf w v) = v := by
  have hmod : signedOf w v % ((2 ^ w : Nat) : Int) = v := by
    rw [signedOf]
    split
    · rw [Int.sub_emod_right, Int.emod_eq_of_lt (by omega) (by omega)]
    · rw [Int.emod_eq_of_lt (by omega) (by omega)]
  rw [wrapInt, hmod, Int.toNat_natCast]

theorem signedOf_inj (hv : v < 2 ^ w) (hu : u < 2 ^ w) : signedOf w v = signedOf w u ↔ v = u :=
  ⟨fun h => by rw [← wrapInt_signedOf hv, h, wrapInt_signedOf hu], fun h => h ▸ rfl⟩

/-- R62: the signed reading of a pattern is its magnitude with its sign. -/
theorem PV.signedOf_bits {v : PV} (hwf : v.wellFormed = true) : signedOf v.n v.bits = signed v.sign v.mag := by
  have hlt := (v.wellFormed_iff.mp hwf).2
  change (if v.sign then _ else _) = _
  cases hsign : v.sign with
  | false => rw [PV.mag, hsign]; rfl
  | true =>
    have hpos : 0 < v.bits := (Nat.two_pow_pos _).trans_le ((PV.sign_iff hwf).mp hsign)
    rw [PV.mag, hsign, if_pos rfl, if_pos rfl, negN_of_pos hpos hlt, signed, if_pos rfl]
    omega

theorem natAbs_signed (sign : Bool) (m : Nat) : (signed sign m).natAbs = m := by
  cases sign <;> simp [signed]

theorem sign_signed (sign : Bool) {m : Nat} (hm : 0 < m) : ((signed sign m).sign : ℚ) = signRat sign := by
  cases sign <;> simp [signed, signRat, Int.sign_eq_one_of_pos, hm]

end SignedPattern

/-! ## The value and the key of a signed integer (R81, R130, R138) -/

/-- R81: the value of the pattern whose signed reading is i, for every i but the least. -/
def signedVal (c : Cfg) (i : Int) : ℚ := (i.sign : ℚ) * valmagRat c i.natAbs

/-- R130: the key of the pattern whose signed reading is i; the least i is infinity's. -/
def signedKey (c : Cfg) (i : Int) : WithBot ℚ :=
  if i = -((2 ^ (c.n - 1) : Nat) : Int) then ⊥ else (signedVal c i : ℚ)

section SignedVal
variable {c : Cfg} {i j : Int}

theorem signedVal_zero (c : Cfg) : signedVal c 0 = 0 := by simp [signedVal]

theorem signedVal_neg (c : Cfg) (i : Int) : signedVal c (-i) = -signedVal c i := by
  simp [signedVal, Int.sign_neg]

theorem signedVal_of_pos (hi : 0 < i) : signedVal c i = valmagRat c i.natAbs := by
  rw [signedVal, Int.sign_eq_one_of_pos hi, Int.cast_one, one_mul]

theorem signedVal_lt_of_nonneg (hc : ValidCfg c) (hi : 0 ≤ i) (hij : i < j)
    (hj : j < ((2 ^ (c.n - 1) : Nat) : Int)) : signedVal c i < signedVal c j := by
  have hjm : IsMagPattern c j.natAbs := ⟨by omega, by omega⟩
  rw [signedVal_of_pos (hi.trans_lt hij)]
  rcases hi.eq_or_lt with rfl | hpos
  · rw [signedVal_zero]
    exact (minposRat_pos c).trans_le (minpos_le_valmagRat hc hjm)
  · rw [signedVal_of_pos hpos]
    exact valmagRat_strictMonoOn hc.1 ⟨by omega, by omega⟩ hjm (by omega)

/-- R83, R138: the values rise strictly with the signed integers. The negative half mirrors the positive one, and
from one half to the other they rise through 0. -/
theorem signedVal_lt (hc : ValidCfg c) (hi : -((2 ^ (c.n - 1) : Nat) : Int) < i) (hij : i < j)
    (hj : j < ((2 ^ (c.n - 1) : Nat) : Int)) : signedVal c i < signedVal c j := by
  have nonpos {k l : Int} (hk : -((2 ^ (c.n - 1) : Nat) : Int) < k) (hkl : k < l) (hl : l ≤ 0) :
      signedVal c k < signedVal c l := by
    have hneg := signedVal_lt_of_nonneg (i := -l) (j := -k) hc (by omega) (by omega) (by omega)
    rwa [signedVal_neg, signedVal_neg, neg_lt_neg_iff] at hneg
  rcases le_or_gt 0 i with hi0 | hi0
  · exact signedVal_lt_of_nonneg hc hi0 hij hj
  rcases le_or_gt j 0 with hj0 | hj0
  · exact nonpos hi hij hj0
  · exact (nonpos hi hi0 le_rfl).trans (signedVal_lt_of_nonneg hc le_rfl hj0 hj)

theorem signedKey_least (c : Cfg) : signedKey c (-((2 ^ (c.n - 1) : Nat) : Int)) = ⊥ := if_pos rfl

theorem signedKey_of_lt (hi : -((2 ^ (c.n - 1) : Nat) : Int) < i) : signedKey c i = (signedVal c i : ℚ) :=
  if_neg hi.ne'

/-- R138: so do the keys, with infinity's as the least. -/
theorem signedKey_strictMonoOn (hc : ValidCfg c) :
    StrictMonoOn (signedKey c) (Set.Ico (-((2 ^ (c.n - 1) : Nat) : Int)) ((2 ^ (c.n - 1) : Nat) : Int)) := by
  rintro i ⟨hi, -⟩ j ⟨-, hj⟩ hij
  rw [signedKey_of_lt (hi.trans_lt hij)]
  rcases hi.eq_or_lt with rfl | hi
  · rw [signedKey_least]
    exact WithBot.bot_lt_coe _
  · rw [signedKey_of_lt hi]
    exact WithBot.coe_lt_coe.mpr (signedVal_lt hc hi hij hj)

end SignedVal

section KeyRat
variable {v : PV} {k : WithBot ℚ}

/-- R138: the key of a value is that of its pattern's signed reading. -/
theorem PV.keyRat_eq_signedKey (hwf : v.wellFormed = true) (hk : v.keyRat = some k) :
    k = signedKey v.cfg (signedOf v.n v.bits) := by
  have hn := PV.one_le_n hwf
  have hleast : -((2 ^ (v.n - 1) : Nat) : Int) < 0 :=
    neg_neg_of_pos (Int.natCast_pos.mpr (Nat.two_pow_pos _))
  rcases v.decoded_cases with ⟨-, hd⟩ | ⟨-, h0, hd⟩ | ⟨-, hinf, hd⟩ | ⟨hnan, h0, hinf, hd⟩ <;>
    rw [PV.keyRat, hd] at hk
  · nomatch hk
  · rw [h0, signedOf_zero, signedKey_of_lt (c := v.cfg) hleast, signedVal_zero]
    exact (Option.some.inj hk).symm
  · rw [hinf, signedOf_two_pow hn]
    exact (Option.some.inj hk).symm.trans (signedKey_least v.cfg).symm
  · obtain ⟨hpos, hlt⟩ := PV.mag_range hwf (PV.cls_eq_fin_iff.mpr ⟨hnan, h0, hinf⟩)
    have habs := natAbs_signed v.sign v.mag
    have hlow : -((2 ^ (v.n - 1) : Nat) : Int) < signed v.sign v.mag := by omega
    have hval : v.fields.val v.es = signedVal v.cfg (signed v.sign v.mag) := by
      rw [signedVal, habs, sign_signed _ hpos]
      exact magFields_val v.cfg v.sign v.mag
    rw [PV.signedOf_bits hwf, signedKey_of_lt (c := v.cfg) hlow, ← hval]
    exact (Option.some.inj hk).symm

end KeyRat

/-- Settles O52: both keys are keys of signed readings, with which the keys rise strictly. -/
theorem signedIntegerShortcut : Obligations.SignedIntegerShortcut := by
  intro A B k l hA hB hcfg hk hl
  have hn : B.n = A.n := congrArg Cfg.n hcfg.symm
  have hmono := signedKey_strictMonoOn (PV.validCfg_of_wellFormed hA)
  obtain ⟨-, hltA⟩ := A.wellFormed_iff.mp hA
  obtain ⟨-, hltB⟩ := B.wellFormed_iff.mp hB
  rw [hn] at hltB
  have hmemA := signedOf_mem_Ico (PV.one_le_n hA) hltA
  have hmemB := signedOf_mem_Ico (PV.one_le_n hA) hltB
  rw [PV.keyRat_eq_signedKey hA hk, PV.keyRat_eq_signedKey hB hl, ← hcfg, hn]
  exact ⟨hmono.lt_iff_lt hmemA hmemB, (hmono.injOn.eq_iff hmemA hmemB).trans (signedOf_inj hltA hltB)⟩

/-! ## The machine's keys (R130) -/

/-- R130: the key that a machine key stands for. -/
def Key.toRat : Key → WithBot ℚ
  | .negInf => ⊥
  | .num ts => (sumRat ts : ℚ)

theorem PV.keyRat_eq_map_key (v : PV) : v.keyRat = v.key.map Key.toRat := by
  rw [PV.keyRat, PV.key]
  cases v.decoded with
  | nan | inf | zero => rfl
  | fin F => simp [Key.toRat, Fields.toRat_term]

theorem PV.exists_key_of_keyRat {v : PV} {k : WithBot ℚ} (h : v.keyRat = some k) :
    ∃ a, v.key = some a ∧ a.toRat = k := by
  rwa [PV.keyRat_eq_map_key, Option.map_eq_some_iff] at h

theorem PV.key_of_nan {v : PV} (h : v.nan = true) : v.key = none := by
  rw [PV.key, PV.decoded_of_nan h]

section KeyCmp
variable (a b : Key)

/-- R130: the computed order of two keys is negative where the first is below the second, positive where above. -/
theorem Key.cmp_sign : (a.cmp b < 0 ↔ a.toRat < b.toRat) ∧ (0 < a.cmp b ↔ b.toRat < a.toRat) := by
  cases a <;> cases b
  case num.num ts us =>
    have hsign := (Exact.ofSum ts).isSign_cmp us Nat.one_pos
    rw [Exact.toRat_ofSum] at hsign
    simp [Key.cmp, Key.toRat, hsign.neg_iff, hsign.pos_iff]
  all_goals simp [Key.cmp, Key.toRat]

theorem Key.cmp_neg_iff : a.cmp b < 0 ↔ a.toRat < b.toRat := (Key.cmp_sign a b).1

theorem Key.cmp_pos_iff : 0 < a.cmp b ↔ b.toRat < a.toRat := (Key.cmp_sign a b).2

theorem Key.cmp_nonneg_iff : 0 ≤ a.cmp b ↔ b.toRat ≤ a.toRat := by
  rw [← not_lt, Key.cmp_neg_iff, not_lt]

theorem Key.cmp_nonpos_iff : a.cmp b ≤ 0 ↔ a.toRat ≤ b.toRat := by
  rw [← not_lt, Key.cmp_pos_iff, not_lt]

theorem Key.cmp_eq_zero_iff : a.cmp b = 0 ↔ a.toRat = b.toRat := by
  rw [le_antisymm_iff, Key.cmp_nonpos_iff, Key.cmp_nonneg_iff, ← le_antisymm_iff]

end KeyCmp

/-! ## What the comparisons and predicates answer (R131 to R144) -/

section Compare
variable {s : State} {A B : PV} {i : Instr} {test : Int → Bool}

theorem compareFlag_of_key {a b : Key} (hA : A.key = some a) (hB : B.key = some b) :
    compareFlag A B test = test (a.cmp b) := by
  rw [compareFlag, hA, hB]

/-- R131: with a NaN operand the flag is 0, whatever the test. -/
theorem compareFlag_of_nan (h : A.nan = true ∨ B.nan = true) : compareFlag A B test = false := by
  rcases h with h | h
  · rw [compareFlag, PV.key_of_nan h]
  · cases hA : A.key <;> rw [compareFlag, hA, PV.key_of_nan h]

section Comparison
variable (hexec : ∀ s, exec i s = .next (s.respond (withAB s fun A B => Response.ofFlag (compareFlag A B test))))
include hexec

/-- R132: a comparison of operands that load, of one configuration or of two, answers its flag. -/
theorem repliesFlag_compare (hA : Loads s.req.a A) (hB : Loads s.req.b B) :
    RepliesFlag i s (compareFlag A B test) :=
  (replies_iff hexec s _).mpr (withAB_of_loads _ hA hB)

theorem repliesFlag_compare_of_nan (hA : Loads s.req.a A) (hB : Loads s.req.b B)
    (h : A.nan = true ∨ B.nan = true) : RepliesFlag i s false :=
  compareFlag_of_nan (test := test) h ▸ repliesFlag_compare hexec hA hB

/-- R133 to R137: a comparison whose test says P of the order of the keys answers P. -/
theorem exists_repliesFlag_compare {a b : Key} {P : Prop} (hA : Loads s.req.a A) (hB : Loads s.req.b B)
    (ha : A.key = some a) (hb : B.key = some b) (hP : test (a.cmp b) = true ↔ P) :
    ∃ f, RepliesFlag i s f ∧ (f = true ↔ P) :=
  ⟨_, repliesFlag_compare hexec hA hB, by rwa [compareFlag_of_key ha hb]⟩

end Comparison

/-- R140 to R144: a predicate answers its flag on an operand that loads. -/
theorem repliesFlag_predicate {p : PV → Bool}
    (hexec : ∀ s, exec i s = .next (s.respond (withA s fun A => Response.ofFlag (p A)))) (hA : Loads s.req.a A) :
    RepliesFlag i s (p A) :=
  (replies_iff hexec s _).mpr (withA_of_loads _ hA)

/-- R143: the sign bit of the zero pattern is 0, so IS_NEG is the bare sign bit. -/
theorem PV.isNeg_eq_sign (v : PV) : v.isNeg = v.bits.testBit (v.n - 1) := by
  by_cases h0 : v.bits = 0 <;> simp [PV.isNeg, h0]

end Compare

/-! ## The statements about comparisons and predicates -/

/-- Settles O49: the machine's keys stand for the rule's, and each operation tests the sign of their order. -/
theorem comparisonsFollowTheKeys : Obligations.ComparisonsFollowTheKeys := by
  intro s A B k l hA hB hk hl
  obtain ⟨a, ha, rfl⟩ := PV.exists_key_of_keyRat hk
  obtain ⟨b, hb, rfl⟩ := PV.exists_key_of_keyRat hl
  refine ⟨exists_repliesFlag_compare (fun _ => rfl) hA hB ha hb ?_,
    exists_repliesFlag_compare (fun _ => rfl) hA hB ha hb ?_,
    exists_repliesFlag_compare (fun _ => rfl) hA hB ha hb ?_,
    exists_repliesFlag_compare (fun _ => rfl) hA hB ha hb ?_,
    exists_repliesFlag_compare (fun _ => rfl) hA hB ha hb ?_⟩
  · exact beq_iff_eq.trans (Key.cmp_eq_zero_iff a b)
  · exact decide_eq_true_iff.trans (Key.cmp_pos_iff a b)
  · exact decide_eq_true_iff.trans (Key.cmp_nonneg_iff a b)
  · exact decide_eq_true_iff.trans (Key.cmp_neg_iff a b)
  · exact decide_eq_true_iff.trans (Key.cmp_nonpos_iff a b)

/-- Settles O50: a NaN has no key, so no test is made. -/
theorem comparisonsWithNanAreFalse : Obligations.ComparisonsWithNanAreFalse :=
  fun _ _ _ hA hB h =>
    ⟨repliesFlag_compare_of_nan (fun _ => rfl) hA hB h, repliesFlag_compare_of_nan (fun _ => rfl) hA hB h,
      repliesFlag_compare_of_nan (fun _ => rfl) hA hB h, repliesFlag_compare_of_nan (fun _ => rfl) hA hB h,
      repliesFlag_compare_of_nan (fun _ => rfl) hA hB h⟩

/-- Settles O53: each predicate answers its test of the operand's pattern and NaN flag. -/
theorem predicatesAnswer : Obligations.PredicatesAnswer := by
  intro s A hA
  refine ⟨⟨_, repliesFlag_predicate (fun _ => rfl) hA, ?_⟩, ⟨_, repliesFlag_predicate (fun _ => rfl) hA, ?_⟩,
    ⟨_, repliesFlag_predicate (fun _ => rfl) hA, ?_⟩, ?_, repliesFlag_predicate (fun _ => rfl) hA⟩
  · simp [PV.isZero]
  · simp [PV.isOne]
  · simp [PV.isInf]
  · exact A.isNeg_eq_sign ▸ repliesFlag_predicate (fun _ => rfl) hA

end Sys2Proof.Machine

/-! # Proofs of 44_config_store.md

CONSTRUCT answers zero in the configuration that the request resolves to (R51, R151). SETDEF is one test of the
pair: a valid one is stored, an invalid one is refused (R152). -/

namespace Sys2Proof.Machine

/-! ## SETDEF, by the test of its pair -/

section Setdef
variable {cn ces : Nat}

/-- R152: a valid pair is stored and answered with err = 0. -/
theorem exec_setdef_of_valid (s : State) (h : Cfg.valid ⟨cn, ces⟩ = true) :
    exec (.setdef cn ces) s = .next ((s.setDefcfg ⟨cn, ces⟩).respond Response.done) := by
  rw [exec_setdef, storeDefcfg_of_valid s h]

/-- R152, R167: an invalid pair is refused, and DEFCFG stays. -/
theorem repliesError_setdef (s : State) (h : Cfg.valid ⟨cn, ces⟩ = false) :
    RepliesError (.setdef cn ces) s .invalidConfiguration :=
  congrArg Host.Outcome.next (storeDefcfg_of_invalid s h)

end Setdef

/-! ## The statements about construction and the store -/

/-- Settles O54: the request resolves to the chosen configuration, and its zero is what the PV word reads as. -/
theorem constructAnswersZero : Obligations.ConstructAnswersZero := by
  intro u cn ces s hvalid
  have hc : (resolveCfg u cn ces s).valid = true := (validCfg_iff _).mp hvalid
  exact ⟨_, replies_construct hc, PV.ofWord_toWord_real_zero hc⟩

/-- Settles O55: a valid pair fits DEFCFG's fields, so it reads back as stored; an invalid one is refused. -/
theorem setdefWritesValidPairsOnly : Obligations.SetdefWritesValidPairsOnly := by
  intro cn ces s
  refine ⟨fun hvalid => ?_, fun hinvalid => ?_⟩
  · have hc : Cfg.valid ⟨cn, ces⟩ = true := (validCfg_iff _).mp hvalid
    have hdef : (s.setDefcfg ⟨cn, ces⟩).defcfg = ⟨cn, ces⟩ := State.defcfg_setDefcfg _ s hc
    exact ⟨_, exec_setdef_of_valid s hc, congrArg Cfg.n hdef, congrArg Cfg.es hdef, rfl, rfl, rfl⟩
  · exact repliesError_setdef s (Bool.eq_false_of_not_eq_true (mt (validCfg_iff _).mpr hinvalid))

end Sys2Proof.Machine

/-! # Proofs of 60_exceptions.md

`errorOf` writes the causes of an error down once, in R165's order. The response of every operation carries that
code, and a response that reports an error is R166's error response. The statements are read off these two facts. -/

namespace Sys2Proof.Machine

/-! ## The error of a decoded request (R162 to R165) -/

/-- R163: an operation that compares the configurations of its operands, on operands whose configurations differ. -/
def Mismatched (i : Instr) (s : State) : Prop :=
  i.isArithmeticB = true ∧ (PV.ofWord s.req.a).cfg ≠ (PV.ofWord s.req.b).cfg

open Classical in
/-- R165, steps 2 to 4: the code that a request which decodes to i is answered with. -/
noncomputable def errorOf (i : Instr) (s : State) : ErrCode :=
  if UsesBadConfig i s then .invalidConfiguration
  else if Mismatched i s then .configMismatch
  else if MalformedAux i (auxCfg i s) s.req.x then .invalidRequest
  else .ok

section ErrorOf
variable {i : Instr} {s : State}

theorem not_mismatched_of_not_arithmetic (h : i.isArithmeticB = false) : ¬Mismatched i s :=
  fun hm => Bool.false_ne_true (h.symm.trans hm.1)

/-- R165: the two causes of step 4 belong to different operations. -/
theorem not_mismatched_of_malformedAux {c : Cfg} {x : AuxWord} (h : MalformedAux i c x) : ¬Mismatched i s := by
  cases i with
  | pack | round => exact not_mismatched_of_not_arithmetic rfl
  | _ => exact h.elim

theorem errorOf_eq_invalidConfiguration_iff : errorOf i s = .invalidConfiguration ↔ UsesBadConfig i s := by
  unfold errorOf
  split_ifs with hbad <;> simp [hbad]

theorem errorOf_eq_configMismatch_iff :
    errorOf i s = .configMismatch ↔ ¬UsesBadConfig i s ∧ Mismatched i s := by
  unfold errorOf
  split_ifs with hbad hmis <;> simp [*]

theorem errorOf_eq_invalidRequest_iff :
    errorOf i s = .invalidRequest ↔ ¬UsesBadConfig i s ∧ MalformedAux i (auxCfg i s) s.req.x := by
  unfold errorOf
  split_ifs with hbad hmis hmal
  · simp [hbad]
  · simpa [hbad] using fun h => not_mismatched_of_malformedAux h hmis
  · simp [hbad, hmal]
  · simp [hmal]

theorem errorOf_eq_ok (hgood : ¬UsesBadConfig i s) (hmis : ¬Mismatched i s)
    (hmal : ¬MalformedAux i (auxCfg i s) s.req.x) : errorOf i s = .ok := by
  simp [errorOf, hgood, hmis, hmal]

end ErrorOf

/-! ## Operands that load, and malformed x operands -/

section Operands
variable {w : PVWord} {v : PV}

theorem not_badConfig_iff_loads : ¬BadConfig w ↔ ∃ v, Loads w v := by
  refine ⟨(loads_or_badConfig w).resolve_right, ?_⟩
  rintro ⟨v, h2, h64, hes, -⟩
  unfold BadConfig
  omega

theorem Loads.not_badConfig (h : Loads w v) : ¬BadConfig w := not_badConfig_iff_loads.mpr ⟨v, h⟩

/-- R52: loading reduces the bits and keeps the configuration. -/
theorem Loads.cfg_eq (h : Loads w v) : v.cfg = (PV.ofWord w).cfg := by
  obtain ⟨-, -, -, rfl⟩ := h
  rfl

theorem PV.cfg_ne_iff {A B : PV} : A.cfg ≠ B.cfg ↔ A.n ≠ B.n ∨ A.es ≠ B.es := by
  simp [PV.cfg, imp_iff_not_or]

end Operands

/-- R44: code 0 is class FIN's alone. -/
theorem PClass.ofCode_eq_fin_iff (k : Nat) : PClass.ofCode k = .fin ↔ k = 0 := by
  match k with
  | 0 | 1 | 2 | _ + 3 => simp [PClass.ofCode]

section MalformedAux
variable {u : Bool} {cn ces : Nat} {c : Cfg} {x : AuxWord}

/-- R164 b: PACK's malformed words, by the fields PACK reads. -/
theorem malformedAux_pack_iff : MalformedAux (.pack u cn ces) c x ↔ (FieldsIn.ofWord x).cls = .fin ∧
    (2 ^ c.es ≤ (FieldsIn.ofWord x).e ∨ 2 ^ (FieldsIn.ofWord x).fb ≤ (FieldsIn.ofWord x).f) :=
  and_congr_left' (PClass.ofCode_eq_fin_iff _).symm

/-- R164 c: ROUND's malformed words, by the fields ROUND reads. -/
theorem malformedAux_round_iff : MalformedAux (.round u cn ces) c x ↔
    (ExactIn.ofWord x).cls = .fin ∧ (ExactIn.ofWord x).sig.testBit 63 = false :=
  and_congr (PClass.ofCode_eq_fin_iff _).symm (by rw [ExactIn.ofWord, slice_testBit_63])

/-- R75: PACK refuses no word but a malformed one. -/
theorem packFields_err (h : ¬MalformedAux (.pack u cn ces) c x) : (packFields c (FieldsIn.ofWord x)).err = .ok := by
  rw [malformedAux_pack_iff] at h
  cases hcls : (FieldsIn.ofWord x).cls with
  | zero => rw [packFields_of_zero hcls]; rfl
  | inf => rw [packFields_of_inf hcls]; rfl
  | nan => rw [packFields_of_nan hcls]; rfl
  | fin =>
    obtain ⟨he, hf⟩ := not_or.mp (not_and.mp h hcls)
    rw [packFields_of_fin hcls (not_le.mp he) (not_le.mp hf)]
    rfl

theorem packFields_of_malformedAux (h : MalformedAux (.pack u cn ces) c x) :
    packFields c (FieldsIn.ofWord x) = Response.ofError .invalidRequest := by
  obtain ⟨hcls, hbad⟩ := malformedAux_pack_iff.mp h
  exact packFields_of_misfit hcls hbad

/-- R98: ROUND refuses no word but a malformed one. -/
theorem roundExact_err (h : ¬MalformedAux (.round u cn ces) c x) : (roundExact c (ExactIn.ofWord x)).err = .ok := by
  rw [malformedAux_round_iff] at h
  cases hcls : (ExactIn.ofWord x).cls with
  | zero => rw [roundExact_of_zero hcls]; rfl
  | inf => rw [roundExact_of_inf hcls]; rfl
  | nan => rw [roundExact_of_nan hcls]; rfl
  | fin =>
    rw [roundExact_of_fin hcls (Bool.eq_true_of_not_eq_false (not_and.mp h hcls))]
    rfl

theorem roundExact_of_malformedAux (h : MalformedAux (.round u cn ces) c x) :
    roundExact c (ExactIn.ofWord x) = Response.ofError .invalidRequest := by
  obtain ⟨hcls, hsig⟩ := malformedAux_round_iff.mp h
  simp [roundExact, hcls, hsig]

end MalformedAux

/-! ## The configurations the operations with a check of their own use -/

section UsesBadConfig
variable {i : Instr} {s : State}

theorem usesBadConfig_iff_of_isArithmeticB (hi : i.isArithmeticB = true) :
    UsesBadConfig i s ↔ BadConfig s.req.a ∨ BadConfig s.req.b := by
  cases i with
  | add | sub | mul | div => exact or_congr_right (and_iff_right rfl)
  | _ => nomatch hi

theorem usesBadConfig_iff_of_malformedAux {c : Cfg} {x : AuxWord} (h : MalformedAux i c x) :
    UsesBadConfig i s ↔ ¬ValidCfg (auxCfg i s) := by
  cases i with
  | pack | round => exact .rfl
  | _ => exact h.elim

theorem not_usesBadConfig_iff_loads (hi : i.isArithmeticB = true) :
    ¬UsesBadConfig i s ↔ (∃ A, Loads s.req.a A) ∧ ∃ B, Loads s.req.b B := by
  rw [usesBadConfig_iff_of_isArithmeticB hi, not_or, not_badConfig_iff_loads, not_badConfig_iff_loads]

end UsesBadConfig

/-! ## The answer of each format carries the error of its request -/

section Answers
variable {i : Instr} {s : State}

/-- R162: format U reports an invalid configuration of A, and no other error. -/
theorem withA_err {f : PV → Response} (hcfg : UsesBadConfig i s ↔ BadConfig s.req.a) (hmis : ¬Mismatched i s)
    (hmal : ¬MalformedAux i (auxCfg i s) s.req.x) (hf : ∀ A, (f A).err = .ok) :
    (withA s f).err = errorOf i s :=
  withA_elim (P := fun rsp => rsp.err = errorOf i s)
    (fun hbad => (errorOf_eq_invalidConfiguration_iff.mpr (hcfg.mpr hbad)).symm)
    fun A hA => (hf A).trans (errorOf_eq_ok (mt hcfg.mp hA.not_badConfig) hmis hmal).symm

/-- R162: format B reports an invalid configuration of A or B before it looks at their values. -/
theorem withAB_err {f : PV → PV → Response}
    (hcfg : UsesBadConfig i s ↔ BadConfig s.req.a ∨ BadConfig s.req.b)
    (hf : ∀ A B, Loads s.req.a A → Loads s.req.b B → ¬UsesBadConfig i s → (f A B).err = errorOf i s) :
    (withAB s f).err = errorOf i s :=
  withAB_elim (P := fun rsp => rsp.err = errorOf i s)
    (fun hbad => (errorOf_eq_invalidConfiguration_iff.mpr (hcfg.mpr hbad)).symm)
    fun A B hA hB => hf A B hA hB (mt hcfg.mp (not_or.mpr ⟨hA.not_badConfig, hB.not_badConfig⟩))

/-- R162: formats CX and C report an invalid configuration before they look at x. -/
theorem withCfg_err {u : Bool} {cn ces : Nat} {f : Cfg → Response}
    (hcfg : UsesBadConfig i s ↔ ¬ValidCfg (chosenCfg u cn ces s))
    (hf : ¬UsesBadConfig i s → (f (chosenCfg u cn ces s)).err = errorOf i s) :
    (withCfg u cn ces s f).err = errorOf i s := by
  have hvalid : ValidCfg (chosenCfg u cn ces s) ↔ (resolveCfg u cn ces s).valid = true := validCfg_iff _
  refine withCfg_elim (P := fun rsp => rsp.err = errorOf i s) (fun hbad => ?_) fun hgood => ?_
  · refine (errorOf_eq_invalidConfiguration_iff.mpr (hcfg.mpr fun h => ?_)).symm
    exact Bool.false_ne_true (hbad.symm.trans (hvalid.mp h))
  · exact hf fun h => hcfg.mp h (hvalid.mpr hgood)

/-- R163: ADD, SUB, MUL and DIV report a mismatch of valid configurations, whatever the values. -/
theorem withAB_sameCfg_err {f : PV → PV → PV} (hi : i.isArithmeticB = true)
    (hmal : ¬MalformedAux i (auxCfg i s) s.req.x) :
    (withAB s fun A B => sameCfg A B (f A B)).err = errorOf i s := by
  refine withAB_err (usesBadConfig_iff_of_isArithmeticB hi) fun A B hA hB hgood => ?_
  have hmis : Mismatched i s ↔ A.cfg ≠ B.cfg := by rw [hA.cfg_eq, hB.cfg_eq, Mismatched, and_iff_right hi]
  refine sameCfg_elim (P := fun rsp => rsp.err = errorOf i s) (fun hne => ?_) fun heq => ?_
  · exact (errorOf_eq_configMismatch_iff.mpr ⟨hgood, hmis.mpr hne⟩).symm
  · exact (errorOf_eq_ok hgood (fun h => hmis.mp h heq) hmal).symm

/-- R164: PACK and ROUND report a malformed x, once the configuration is valid. -/
theorem withCfg_aux_err {u : Bool} {cn ces : Nat} {f : Cfg → Response}
    (hcfg : UsesBadConfig i s ↔ ¬ValidCfg (chosenCfg u cn ces s)) (hmis : ¬Mismatched i s)
    (hbad : MalformedAux i (auxCfg i s) s.req.x → f (chosenCfg u cn ces s) = Response.ofError .invalidRequest)
    (hok : ¬MalformedAux i (auxCfg i s) s.req.x → (f (chosenCfg u cn ces s)).err = .ok) :
    (withCfg u cn ces s f).err = errorOf i s := by
  refine withCfg_err hcfg fun hgood => ?_
  by_cases hmal : MalformedAux i (auxCfg i s) s.req.x
  · rw [hbad hmal, errorOf_eq_invalidRequest_iff.mpr ⟨hgood, hmal⟩]
    rfl
  · rw [hok hmal, errorOf_eq_ok hgood hmis hmal]

end Answers

/-! ## What every operation reports -/

/-- R161 to R165: the reply of each operation but SETDEF carries the error of its request. -/
theorem exists_reply_err (i : Instr) (s : State) (hi : i.isSetdef = false) :
    ∃ rsp, Replies i s rsp ∧ rsp.err = errorOf i s := by
  cases i with
  | setdef => nomatch hi
  | getdef => exact ⟨_, rfl, (errorOf_eq_ok id (not_mismatched_of_not_arithmetic rfl) id).symm⟩
  | add | sub | mul | div => exact ⟨_, rfl, withAB_sameCfg_err rfl id⟩
  | eq | gt | ge | lt | le =>
    exact ⟨_, rfl, withAB_err (or_congr_right (and_iff_right rfl)) fun _ _ _ _ hgood =>
      (errorOf_eq_ok hgood (not_mismatched_of_not_arithmetic rfl) id).symm⟩
  | pack =>
    exact ⟨_, rfl, withCfg_aux_err .rfl (not_mismatched_of_not_arithmetic rfl) packFields_of_malformedAux
      packFields_err⟩
  | round =>
    exact ⟨_, rfl, withCfg_aux_err .rfl (not_mismatched_of_not_arithmetic rfl) roundExact_of_malformedAux
      roundExact_err⟩
  | fromF64 | construct =>
    exact ⟨_, rfl, withCfg_err .rfl fun hgood =>
      (errorOf_eq_ok hgood (not_mismatched_of_not_arithmetic rfl) id).symm⟩
  | _ =>
    exact ⟨_, rfl, withA_err (or_iff_left fun h => nomatch h.1) (not_mismatched_of_not_arithmetic rfl) id
      fun _ => rfl⟩

/-- R161 to R167: every operation answers the error of its request, and does nothing else where there is one. -/
theorem exec_reports (i : Instr) (s : State) : ∃ t rsp, exec i s = .next t ∧ t.response = some rsp ∧
    rsp.err = errorOf i s ∧ (errorOf i s ≠ .ok → RepliesError i s (errorOf i s)) := by
  cases hi : i.isSetdef with
  | false =>
    obtain ⟨rsp, hrep, herr⟩ := exists_reply_err i s hi
    obtain ⟨_, ⟨hzero, -⟩, hrep'⟩ := exists_sound_reply i s hi
    cases hrep.symm.trans hrep'
    refine ⟨_, rsp, hrep, rfl, herr, fun he => ?_⟩
    obtain ⟨hr, hflag, hy⟩ := hzero (herr ▸ he)
    rwa [RepliesError, ← herr, ← hr, ← hflag, ← hy]
  | true =>
    obtain ⟨cn, ces, rfl⟩ := (isSetdef_iff i).mp hi
    cases hc : Cfg.valid ⟨cn, ces⟩ with
    | false =>
      have hrep := repliesError_setdef s hc
      have herr : errorOf (.setdef cn ces) s = .invalidConfiguration :=
        errorOf_eq_invalidConfiguration_iff.mpr fun h =>
          Bool.false_ne_true (hc.symm.trans ((validCfg_iff _).mp h))
      exact ⟨_, _, hrep, rfl, herr.symm, fun _ => herr ▸ hrep⟩
    | true =>
      have herr : errorOf (.setdef cn ces) s = .ok :=
        errorOf_eq_ok (not_not.mpr ((validCfg_iff _).mpr hc)) (not_mismatched_of_not_arithmetic rfl) id
      exact ⟨_, _, exec_setdef_of_valid s hc, rfl, herr.symm, fun he => absurd herr he⟩

section Reports
variable {i : Instr} {s t : State} {rsp : Response} {e : ErrCode}

/-- R166, R167: a request with an error gets the error response, and has no other effect. -/
theorem repliesError_of_errorOf (h : errorOf i s = e) (he : e ≠ .ok) : RepliesError i s e := by
  obtain ⟨-, -, -, -, -, hrep⟩ := exec_reports i s
  exact h ▸ hrep (h.trans_ne he)

theorem errorOf_of_exec (hexec : exec i s = .next t) (hrsp : t.response = some rsp) (herr : rsp.err = e) :
    errorOf i s = e := by
  obtain ⟨_, rsp', hexec', hrsp', herr', -⟩ := exec_reports i s
  cases hexec.symm.trans hexec'
  cases hrsp.symm.trans hrsp'
  exact herr'.symm.trans herr

end Reports

/-! ## The statements about errors -/

/-- Settles O13: the code is first in R165's order; DEFCFG, which usedef = 1 chooses, is valid by the invariant. -/
theorem invalidConfigurationIsReported : Obligations.InvalidConfigurationIsReported := by
  intro i s
  refine ⟨fun hbad => ?_, fun t rsp hexec hrsp herr => ?_, fun hinv cn ces => ?_⟩
  · exact repliesError_of_errorOf (errorOf_eq_invalidConfiguration_iff.mpr hbad) (by decide)
  · exact errorOf_eq_invalidConfiguration_iff.mp (errorOf_of_exec hexec hrsp herr)
  · have hgood : ¬¬ValidCfg s.defcfg := not_not.mpr ((validCfg_iff _).mpr hinv.1)
    exact ⟨hgood, hgood, hgood, hgood⟩

/-- Settles O14: operands load exactly when no configuration is invalid, and loading keeps their configurations. -/
theorem mismatchedArithmeticIsRefused : Obligations.MismatchedArithmeticIsRefused := by
  intro i s
  refine ⟨fun A B hi hA hB hne => ?_, fun t rsp hexec hrsp herr => ?_⟩
  · have hmis : Mismatched i s := ⟨hi, hA.cfg_eq ▸ hB.cfg_eq ▸ PV.cfg_ne_iff.mpr hne⟩
    have hgood : ¬UsesBadConfig i s := (not_usesBadConfig_iff_loads hi).mpr ⟨⟨A, hA⟩, B, hB⟩
    exact repliesError_of_errorOf (errorOf_eq_configMismatch_iff.mpr ⟨hgood, hmis⟩) (by decide)
  · obtain ⟨hgood, hi, hne⟩ := errorOf_eq_configMismatch_iff.mp (errorOf_of_exec hexec hrsp herr)
    obtain ⟨⟨A, hA⟩, B, hB⟩ := (not_usesBadConfig_iff_loads hi).mp hgood
    rw [← hA.cfg_eq, ← hB.cfg_eq] at hne
    exact ⟨hi, A, B, hA, hB, PV.cfg_ne_iff.mp hne⟩

/-- Settles O15: for PACK and ROUND, the only operations with a malformed x, the configuration used is `auxCfg`. -/
theorem malformedAuxiliaryOperandIsRefused : Obligations.MalformedAuxiliaryOperandIsRefused := by
  intro i s
  refine ⟨fun hvalid hmal => ?_, fun t rsp hexec hrsp herr => ?_⟩
  · have hgood : ¬UsesBadConfig i s := fun h => (usesBadConfig_iff_of_malformedAux hmal).mp h hvalid
    exact repliesError_of_errorOf (errorOf_eq_invalidRequest_iff.mpr ⟨hgood, hmal⟩) (by decide)
  · obtain ⟨hgood, hmal⟩ := errorOf_eq_invalidRequest_iff.mp (errorOf_of_exec hexec hrsp herr)
    exact ⟨not_not.mp (mt (usesBadConfig_iff_of_malformedAux hmal).mpr hgood), hmal⟩

/-- R165: a step whose request decodes reports the error of that request. -/
theorem step_of_errorOf {s : State} {q : Request} {rest : List Request} {i : Instr} {e : ErrCode}
    (hq : s.pending = q :: rest) (hd : decode q.cmd = some i) (h : errorOf i (s.accept q rest) = e) (he : e ≠ .ok) :
    step s = .next ((s.accept q rest).raise e) :=
  (step_of_decode hq hd).trans (repliesError_of_errorOf h he)

/-- Settles O16: a word that does not decode raises its error at once; for the others `errorOf` has R165's order. -/
theorem errorPriority : Obligations.ErrorPriority := by
  rintro s q rest _ hq rfl
  refine ⟨fun hd => ?_, fun i hd hbad => ?_, fun i hd hgood hmal => ?_, fun i hd hgood hi hne => ?_⟩
  · exact (step_of_pending_cons hq).trans (performRequest_of_illegal hd)
  · exact step_of_errorOf hq hd (errorOf_eq_invalidConfiguration_iff.mpr hbad) (by decide)
  · exact step_of_errorOf hq hd (errorOf_eq_invalidRequest_iff.mpr ⟨hgood, hmal⟩) (by decide)
  · exact step_of_errorOf hq hd (errorOf_eq_configMismatch_iff.mpr ⟨hgood, hi, hne⟩) (by decide)

end Sys2Proof.Machine

/-! # Proofs of 70_reset_and_hazards.md

One step answers one request (R185, R186): whatever becomes of the request, a response is written, and the request
port and the stream of pending requests stay as they were once the request was accepted. -/

namespace Sys2Proof.Machine

/-! ## What an operation leaves at the ports -/

/-- R152: SETDEF answers whether its pair is stored or refused, and leaves the requests alone. -/
theorem storeDefcfg_answers (c : Cfg) (s : State) :
    ∃ rsp, (storeDefcfg c s).response = some rsp ∧ (storeDefcfg c s).req = s.req ∧
      (storeDefcfg c s).pending = s.pending := by
  cases hc : c.valid with
  | false =>
    rw [storeDefcfg_of_invalid s hc]
    exact ⟨_, rfl, rfl, rfl⟩
  | true =>
    rw [storeDefcfg_of_valid s hc]
    exact ⟨_, rfl, rfl, rfl⟩

/-- R33, R41: every operation writes the response port and leaves the requests alone. -/
theorem exec_answers (i : Instr) (s : State) :
    ∃ t rsp, exec i s = .next t ∧ t.response = some rsp ∧ t.req = s.req ∧ t.pending = s.pending := by
  cases hi : i.isSetdef with
  | false =>
    obtain ⟨rsp, hrep⟩ := everyOperationButSetdefOnlyReplies i s hi
    exact ⟨_, rsp, hrep, rfl, rfl, rfl⟩
  | true =>
    obtain ⟨cn, ces, rfl⟩ := (isSetdef_iff i).mp hi
    obtain ⟨rsp, hports⟩ := storeDefcfg_answers ⟨cn, ces⟩ s
    exact ⟨_, rsp, exec_setdef cn ces s, hports⟩

/-- R52, R53: so does performing any request: one that does not decode is answered with InvalidRequest. -/
theorem performRequest_answers (s : State) :
    ∃ t rsp, performRequest s = .next t ∧ t.response = some rsp ∧ t.req = s.req ∧ t.pending = s.pending := by
  cases hd : decode s.req.cmd with
  | none => exact ⟨_, _, performRequest_of_illegal hd, rfl, rfl, rfl⟩
  | some i =>
    rw [performRequest_of_decode hd]
    exact exec_answers i s

/-! ## The statement -/

/-- Settles O5: the step accepts the request and performs it, and performing any request answers and moves none. -/
theorem everyRequestProducesOneResponse : Obligations.EveryRequestProducesOneResponse := by
  intro s q rest hq
  rw [step_of_pending_cons hq]
  exact performRequest_answers (s.accept q rest)

end Sys2Proof.Machine

/-! # Proofs of 43_compare_predicates.md, section 3

The laws of the five comparisons. They test one integer, the order of the two keys, so trichotomy and the readings of
GE and LE are laws of these tests; exchanging the operands turns the order round (R130), and the checks before the
test treat A and B alike. -/

namespace Sys2Proof.Machine

/-! ## The keys of operands (R130, R131) -/

/-- R130: a value that is not NaN has a key. -/
theorem PV.exists_key_of_not_nan {v : PV} (h : v.nan = false) : ∃ a, v.key = some a := by
  rcases v.decoded_cases with ⟨hnan, -⟩ | ⟨-, -, hd⟩ | ⟨-, -, hd⟩ | ⟨-, -, -, hd⟩
  · nomatch h.symm.trans hnan
  all_goals exact ⟨_, by rw [PV.key, hd]⟩

/-! ## The tests of the order of two keys -/

/-- Of the tests of EQ, GT and LT exactly one holds of an integer. -/
theorem orderTests_trichotomy (o : Int) : (o == 0, decide (0 < o), decide (o < 0)) ∈
    [(true, false, false), (false, true, false), (false, false, true)] := by
  rcases lt_trichotomy o 0 with h | rfl | h
  · simp [h, h.ne, h.le]
  · decide
  · simp [h, h.ne', h.le]

section CompareFlag
variable {A B : PV} {test test' : Int → Bool}

/-- R131, R133: a test that admits equality beside another test answers that test's flag or EQ's, a NaN operand
included. -/
theorem compareFlag_or_eq (hor : ∀ o, test o = true ↔ test' o = true ∨ o = 0) :
    compareFlag A B test = (compareFlag A B test' || compareFlag A B (· == 0)) := by
  rw [Bool.eq_iff_iff]
  cases hA : A.key <;> cases hB : B.key <;> simp [compareFlag, hA, hB, hor]

/-- R131: two tests that agree on the order of two keys and the order turned round answer the same flag with the
operands exchanged, a NaN operand included. -/
theorem compareFlag_swap (hswap : ∀ a b : Key, test (a.cmp b) = test' (b.cmp a)) :
    compareFlag A B test = compareFlag B A test' := by
  cases hA : A.key <;> cases hB : B.key <;> simp [compareFlag, hA, hB, hswap]

end CompareFlag

/-! ## The exchange of operands -/

/-- R162: a format B answer does not depend on which operand is called A, an error included. -/
theorem withAB_swap {s : State} {f g : PV → PV → Response} (hfg : ∀ A B, f A B = g B A) :
    withAB s f = withAB { s with req := s.req.swap } g :=
  withAB_elim (P := (· = withAB { s with req := s.req.swap } g))
    (fun hbad => (withAB_of_badConfig (s := { s with req := s.req.swap }) g hbad.symm).symm)
    fun A B hA hB => (hfg A B).trans (withAB_of_loads (s := { s with req := s.req.swap }) g hB hA).symm

/-- R132: a comparison answers what one with the opposite test answers on the operands exchanged. -/
theorem replies_compare_swap {i j : Instr} {test test' : Int → Bool} {s : State} {rsp : Response}
    (hi : ∀ s, exec i s = .next (s.respond (withAB s fun A B => Response.ofFlag (compareFlag A B test))))
    (hj : ∀ s, exec j s = .next (s.respond (withAB s fun A B => Response.ofFlag (compareFlag A B test'))))
    (hswap : ∀ a b : Key, test (a.cmp b) = test' (b.cmp a)) (h : Replies i s rsp) :
    Replies j { s with req := s.req.swap } rsp :=
  (replies_iff hj _ rsp).mpr <|
    (withAB_swap fun _ _ => congrArg Response.ofFlag (compareFlag_swap hswap)).symm.trans
      ((replies_iff hi s rsp).mp h)

/-! ## The statement -/

/-- Settles O51: the flags are tests of one integer, which changes its sign when the operands are exchanged. -/
theorem comparisonLaws : Obligations.ComparisonLaws := by
  intro s
  refine ⟨fun A B hA hB => ?_,
    fun _ => replies_compare_swap (fun _ => rfl) (fun _ => rfl) fun a b => ?_,
    fun _ => replies_compare_swap (fun _ => rfl) (fun _ => rfl) fun a b => ?_⟩
  · refine ⟨_, _, _, _, _, repliesFlag_compare (fun _ => rfl) hA hB, repliesFlag_compare (fun _ => rfl) hA hB,
      repliesFlag_compare (fun _ => rfl) hA hB, repliesFlag_compare (fun _ => rfl) hA hB,
      repliesFlag_compare (fun _ => rfl) hA hB, compareFlag_or_eq fun o => ?_, compareFlag_or_eq fun o => ?_,
      fun hnanA hnanB => ?_⟩
    · simp [le_iff_lt_or_eq, eq_comm (a := (0 : Int))]
    · simp [le_iff_lt_or_eq]
    · obtain ⟨a, ha⟩ := PV.exists_key_of_not_nan hnanA
      obtain ⟨b, hb⟩ := PV.exists_key_of_not_nan hnanB
      simp only [compareFlag_of_key ha hb]
      exact orderTests_trichotomy (a.cmp b)
  · exact decide_eq_decide.mpr ((Key.cmp_pos_iff a b).trans (Key.cmp_neg_iff b a).symm)
  · exact decide_eq_decide.mpr ((Key.cmp_nonneg_iff a b).trans (Key.cmp_nonpos_iff b a).symm)

end Sys2Proof.Machine
